-- ==== Sys2Proof/Word.lean ====
section
/-! DEFINITION. The words the spec speaks of: 32-bit registers and addresses (00_scope R5 `XLEN`), bytes, 27-bit
block numbers (R7 `line`), and a cache line's 32 bytes (R5 `LINE_BYTES`). -/

namespace Sys2Proof

/-- A general register, a c7 data value, an address or an instruction word: 32 bits (00_scope R5, 30_encoding R90). -/
abbrev Word := BitVec 32

/-- The unit of memory (10_state R53: memory is byte addressed). -/
abbrev Byte := BitVec 8

/-- The number of a 32-byte block, `addr[31:5]` (00_scope R7 `line`). -/
abbrev Block := BitVec 27

/-- The 32 bytes of a cache line; byte `i` belongs at the line's address plus `i` (20_memory R65). -/
abbrev Line := Vector Byte 32

end Sys2Proof
end

