-- ==== Sys2Proof/Syntax.lean ====
section
/-! DEFINITION. The instructions: one constructor per row of spec/opcode_table.json, in the table's order, with the
fields the row leaves variable. -/

namespace Sys2Proof

/-- The fifteen condition codes (30_encoding R93); 0b1111 is a separate space and no condition. -/
inductive Cond where
  | eq | ne | cs | cc | mi | pl | vs | vc | hi | ls | ge | lt | gt | le | al
deriving DecidableEq, Repr

/-- A register number as it stands in the encoding, 0 to 15 (30_encoding R91, R92). -/
abbrev RegNo := BitVec 4

/-- Every access to CP15 c7 (30_encoding R94). `rd` is field Rd, `rn` field Rn; for the range operations Rd holds the
End Address and Rn the Start Address (R106). -/
inductive Instr where
  /-- Wait For Interrupt (R240). -/
  | wfi (c : Cond) (rd : RegNo)
  /-- Invalidate Entire Instruction Cache (R141). -/
  | invIcacheAll (c : Cond) (rd : RegNo)
  /-- Invalidate Instruction Cache Line, using MVA (R160). -/
  | invIcacheMva (c : Cond) (rd : RegNo)
  /-- Invalidate Instruction Cache Line, using Set/Way (R161). -/
  | invIcacheSw (c : Cond) (rd : RegNo)
  /-- Flush Prefetch Buffer (R220). -/
  | flushPrefetchBuffer (c : Cond) (rd : RegNo)
  /-- Flush Entire Branch Target Cache (R221). -/
  | flushBtcAll (c : Cond) (rd : RegNo)
  /-- Flush Branch Target Cache Entry, using MVA (R223). -/
  | flushBtcMva (c : Cond) (rd : RegNo)
  /-- Invalidate Entire Data Cache (R142). -/
  | invDcacheAll (c : Cond) (rd : RegNo)
  /-- Invalidate Data Cache Line, using MVA (R162). -/
  | invDcacheMva (c : Cond) (rd : RegNo)
  /-- Invalidate Data Cache Line, using Set/Way (R163). -/
  | invDcacheSw (c : Cond) (rd : RegNo)
  /-- Invalidate Both Caches (R143). -/
  | invBothAll (c : Cond) (rd : RegNo)
  /-- Clean Entire Data Cache (R144). -/
  | cleanDcacheAll (c : Cond) (rd : RegNo)
  /-- Clean Data Cache Line, using MVA (R164). -/
  | cleanDcacheMva (c : Cond) (rd : RegNo)
  /-- Clean Data Cache Line, using Set/Way (R165). -/
  | cleanDcacheSw (c : Cond) (rd : RegNo)
  /-- Data Synchronization Barrier (R230). -/
  | dsb (c : Cond) (rd : RegNo)
  /-- Data Memory Barrier (R231). -/
  | dmb (c : Cond) (rd : RegNo)
  /-- Read Cache Dirty Status Register (R210). -/
  | readCdsr (c : Cond) (rd : RegNo)
  /-- Read Block Transfer Status Register (R250). -/
  | readBtsr (c : Cond) (rd : RegNo)
  /-- Stop Prefetch Range (R251). -/
  | stopPrefetchRange (c : Cond) (rd : RegNo)
  /-- Prefetch Instruction Cache Line (R166). -/
  | prefetchIcacheMva (c : Cond) (rd : RegNo)
  /-- Clean and Invalidate Entire Data Cache (R145). -/
  | cleaninvDcacheAll (c : Cond) (rd : RegNo)
  /-- Clean and Invalidate Data Cache Line, using MVA (R167). -/
  | cleaninvDcacheMva (c : Cond) (rd : RegNo)
  /-- Clean and Invalidate Data Cache Line, using Set/Way (R168). -/
  | cleaninvDcacheSw (c : Cond) (rd : RegNo)
  /-- Invalidate Instruction Cache Range (R180). -/
  | invIcacheRange (c : Cond) (rd rn : RegNo)
  /-- Invalidate Data Cache Range (R181). -/
  | invDcacheRange (c : Cond) (rd rn : RegNo)
  /-- Clean Data Cache Range (R182). -/
  | cleanDcacheRange (c : Cond) (rd rn : RegNo)
  /-- Clean and Invalidate Data Cache Range (R183). -/
  | cleaninvDcacheRange (c : Cond) (rd rn : RegNo)
  /-- Prefetch Instruction Cache Range (R184). -/
  | prefetchIcacheRange (c : Cond) (rd rn : RegNo)
  /-- Prefetch Data Cache Range (R185). -/
  | prefetchDcacheRange (c : Cond) (rd rn : RegNo)
  /-- Unified-cache encoding c7, 1 (R126). -/
  | unifiedNopC7k1 (c : Cond) (rd : RegNo)
  /-- Unified-cache encoding c7, 2 (R126). -/
  | unifiedNopC7k2 (c : Cond) (rd : RegNo)
  /-- Unified-cache encoding c7, 3 (R126). -/
  | unifiedNopC7k3 (c : Cond) (rd : RegNo)
  /-- Unified-cache encoding c7, 4 (R126). -/
  | unifiedNopC7k4 (c : Cond) (rd : RegNo)
  /-- Unified-cache encoding c7, 5 (R126). -/
  | unifiedNopC7k5 (c : Cond) (rd : RegNo)
  /-- Unified-cache encoding c7, 6 (R126). -/
  | unifiedNopC7k6 (c : Cond) (rd : RegNo)
  /-- Unified-cache encoding c7, 7 (R126). -/
  | unifiedNopC7k7 (c : Cond) (rd : RegNo)
  /-- Unified-cache encodings c11, any Opcode_2 (R127). -/
  | unifiedNopC11 (c : Cond) (rd : RegNo) (opcode2 : BitVec 3)
  /-- Unified-cache encodings c15, any Opcode_2 (R128). -/
  | unifiedNopC15 (c : Cond) (rd : RegNo) (opcode2 : BitVec 3)
  /-- Any other MCR (`read` = 0) or MRC (`read` = 1) to c7 (R124). -/
  | c7OtherCprt (c : Cond) (rd : RegNo) (read : BitVec 1) (opcode1 : BitVec 3) (crm : BitVec 4) (opcode2 : BitVec 3)
  /-- Any other MCRR to CP15 (R125). -/
  | cp15OtherMcrr (c : Cond) (rd rn : RegNo) (opcode1 crm : BitVec 4)
deriving DecidableEq, Repr

end Sys2Proof
end

