-- ==== Sys2Proof/WellFormed.lean ====
section
/-! DEFINITION. Which terms of `Instr` stand for an encoding. Only the two fallback rows can be ill-formed: their
selector must not be the selector of an earlier row (30_encoding R107, R109, R111). Register 15 is NOT ruled out here:
the refusal of 30_encoding R95 comes after the condition and the mode check (40_access R120), so `exec` makes it. -/

namespace Sys2Proof

/-- The (L, CRm, Opcode_2) selectors of 30_encoding R105, all with Opcode_1 = 0: L = 0 is MCR, L = 1 is MRC. -/
def functionSelectors : List (Nat × Nat × Nat) :=
  [(0, 0, 4), (0, 5, 0), (0, 5, 1), (0, 5, 2), (0, 5, 4), (0, 5, 6), (0, 5, 7), (0, 6, 0), (0, 6, 1), (0, 6, 2), (0, 7, 0)]
    ++ [(0, 10, 0), (0, 10, 1), (0, 10, 2), (0, 10, 4), (0, 10, 5), (1, 10, 6), (1, 12, 4), (0, 12, 5), (0, 13, 1)]
    ++ [(0, 14, 0), (0, 14, 1), (0, 14, 2)]

/-- The unified-cache selectors of 30_encoding R108: MCR only, Opcode_1 = 0. -/
def isUnifiedSelector (read crm opcode2 : Nat) : Bool :=
  read == 0 && ((crm == 7 && opcode2 != 0) || crm == 11 || crm == 15)

/-- An MCR or MRC selector that a row before the fallback `C7_OTHER_CPRT` matches. -/
def isDefinedCprt (read : BitVec 1) (opcode1 : BitVec 3) (crm : BitVec 4) (opcode2 : BitVec 3) : Bool :=
  opcode1 == 0 &&
    (functionSelectors.contains (read.toNat, crm.toNat, opcode2.toNat) || isUnifiedSelector read.toNat crm.toNat opcode2.toNat)

/-- An MCRR selector that a row before the fallback `CP15_OTHER_MCRR` matches: (Opcode_1, CRm) of 30_encoding R106. -/
def isDefinedMcrr (opcode1 crm : BitVec 4) : Bool :=
  [(0, 5), (0, 6), (0, 12), (0, 14), (1, 12), (2, 12)].contains (opcode1.toNat, crm.toNat)

/-- A term that stands for an encoding of its own row. -/
def Instr.wf : Instr → Bool
  | .c7OtherCprt _ _ read opcode1 crm opcode2 => !isDefinedCprt read opcode1 crm opcode2
  | .cp15OtherMcrr _ _ _ opcode1 crm => !isDefinedMcrr opcode1 crm
  | .wfi .. | .invIcacheAll .. | .invIcacheMva .. | .invIcacheSw .. | .flushPrefetchBuffer .. | .flushBtcAll ..
  | .flushBtcMva .. | .invDcacheAll .. | .invDcacheMva .. | .invDcacheSw .. | .invBothAll .. | .cleanDcacheAll ..
  | .cleanDcacheMva .. | .cleanDcacheSw .. | .dsb .. | .dmb .. | .readCdsr .. | .readBtsr .. | .stopPrefetchRange ..
  | .prefetchIcacheMva .. | .cleaninvDcacheAll .. | .cleaninvDcacheMva .. | .cleaninvDcacheSw .. | .invIcacheRange ..
  | .invDcacheRange .. | .cleanDcacheRange .. | .cleaninvDcacheRange .. | .prefetchIcacheRange ..
  | .prefetchDcacheRange .. | .unifiedNopC7k1 .. | .unifiedNopC7k2 .. | .unifiedNopC7k3 .. | .unifiedNopC7k4 ..
  | .unifiedNopC7k5 .. | .unifiedNopC7k6 .. | .unifiedNopC7k7 .. | .unifiedNopC11 .. | .unifiedNopC15 .. => true

end Sys2Proof
end

