-- ==== Sys2Proof/Decode.lean ====
section
/-! DEFINITION. From an instruction word to an instruction and back (30_encoding R90 to R113, the rows of
spec/opcode_table.json). Total: every word decodes or is rejected by name. The encoder stands after the decoder. -/

namespace Sys2Proof

/-- Why a word is no instruction of this spec. -/
inductive DecodeReject where
  /-- MCR2, MRC2, MCRR2 or MRRC2 to CP15: `cond = 0b1111` (30_encoding R93, decision D2). -/
  | unconditional
  /-- MRRC to CP15: bit 20 set in format CPRRT (30_encoding R92, decision D2). -/
  | mrrc
  /-- Not an access to CP15 c7 at all (30_encoding R94, R111); so is a word with `cond = 0b1111` that does not go to CP15
  (60_exceptions R282 (e)). -/
  | notC7
deriving DecidableEq, Repr

/-- The condition of field [31:28] (30_encoding R93); none for 0b1111. -/
def Cond.ofBits (b : BitVec 4) : Option Cond :=
  match b.toNat with
  | 0 => some .eq | 1 => some .ne | 2 => some .cs | 3 => some .cc | 4 => some .mi | 5 => some .pl | 6 => some .vs
  | 7 => some .vc | 8 => some .hi | 9 => some .ls | 10 => some .ge | 11 => some .lt | 12 => some .gt | 13 => some .le
  | 14 => some .al | _ => none

/-- An MCR or MRC to c7 by its selector (30_encoding R105, R107, R108). -/
def decodeCprt (c : Cond) (read : BitVec 1) (opcode1 : BitVec 3) (crm : BitVec 4) (opcode2 : BitVec 3) (rd : RegNo) : Instr :=
  match opcode1.toNat, read.toNat, crm.toNat, opcode2.toNat with
  | 0, 0, 0, 4 => .wfi c rd
  | 0, 0, 5, 0 => .invIcacheAll c rd
  | 0, 0, 5, 1 => .invIcacheMva c rd
  | 0, 0, 5, 2 => .invIcacheSw c rd
  | 0, 0, 5, 4 => .flushPrefetchBuffer c rd
  | 0, 0, 5, 6 => .flushBtcAll c rd
  | 0, 0, 5, 7 => .flushBtcMva c rd
  | 0, 0, 6, 0 => .invDcacheAll c rd
  | 0, 0, 6, 1 => .invDcacheMva c rd
  | 0, 0, 6, 2 => .invDcacheSw c rd
  | 0, 0, 7, 0 => .invBothAll c rd
  | 0, 0, 10, 0 => .cleanDcacheAll c rd
  | 0, 0, 10, 1 => .cleanDcacheMva c rd
  | 0, 0, 10, 2 => .cleanDcacheSw c rd
  | 0, 0, 10, 4 => .dsb c rd
  | 0, 0, 10, 5 => .dmb c rd
  | 0, 1, 10, 6 => .readCdsr c rd
  | 0, 1, 12, 4 => .readBtsr c rd
  | 0, 0, 12, 5 => .stopPrefetchRange c rd
  | 0, 0, 13, 1 => .prefetchIcacheMva c rd
  | 0, 0, 14, 0 => .cleaninvDcacheAll c rd
  | 0, 0, 14, 1 => .cleaninvDcacheMva c rd
  | 0, 0, 14, 2 => .cleaninvDcacheSw c rd
  | 0, 0, 7, 1 => .unifiedNopC7k1 c rd
  | 0, 0, 7, 2 => .unifiedNopC7k2 c rd
  | 0, 0, 7, 3 => .unifiedNopC7k3 c rd
  | 0, 0, 7, 4 => .unifiedNopC7k4 c rd
  | 0, 0, 7, 5 => .unifiedNopC7k5 c rd
  | 0, 0, 7, 6 => .unifiedNopC7k6 c rd
  | 0, 0, 7, 7 => .unifiedNopC7k7 c rd
  | 0, 0, 11, _ => .unifiedNopC11 c rd opcode2
  | 0, 0, 15, _ => .unifiedNopC15 c rd opcode2
  | _, _, _, _ => .c7OtherCprt c rd read opcode1 crm opcode2

/-- An MCRR to CP15 by its selector (30_encoding R106, R109): Rd is the End Address, Rn the Start Address. -/
def decodeCprrt (c : Cond) (opcode1 crm : BitVec 4) (rd rn : RegNo) : Instr :=
  match opcode1.toNat, crm.toNat with
  | 0, 5 => .invIcacheRange c rd rn
  | 0, 6 => .invDcacheRange c rd rn
  | 0, 12 => .cleanDcacheRange c rd rn
  | 0, 14 => .cleaninvDcacheRange c rd rn
  | 1, 12 => .prefetchIcacheRange c rd rn
  | 2, 12 => .prefetchDcacheRange c rd rn
  | _, _ => .cp15OtherMcrr c rd rn opcode1 crm

/-- Whether a word has the form of a register transfer with coprocessor 15, of one register (format CPRT, MCR or MRC) or of
two (format CPRRT, MCRR or MRRC), whatever its condition field (30_encoding R91, R92). -/
def cp15Transfer (w : Word) : Bool :=
  w.extractLsb' 8 4 = 15#4
    ∧ (w.extractLsb' 24 4 = 0b1110#4 ∧ w.extractLsb' 4 1 = 1#1 ∨ w.extractLsb' 21 7 = 0b1100010#7)

/-- The instruction of a word, or why it is none (30_encoding R93, R94, R111). -/
def decode (w : Word) : Except DecodeReject Instr :=
  match Cond.ofBits (w.extractLsb' 28 4) with
  | none => if cp15Transfer w then .error .unconditional else .error .notC7
  | some c =>
    if w.extractLsb' 24 4 = 0b1110#4 ∧ w.extractLsb' 16 4 = 7#4 ∧ w.extractLsb' 8 4 = 15#4 ∧ w.extractLsb' 4 1 = 1#1 then
      .ok (decodeCprt c (w.extractLsb' 20 1) (w.extractLsb' 21 3) (w.extractLsb' 0 4) (w.extractLsb' 5 3) (w.extractLsb' 12 4))
    else if w.extractLsb' 20 8 = 0b11000100#8 ∧ w.extractLsb' 8 4 = 15#4 then
      .ok (decodeCprrt c (w.extractLsb' 4 4) (w.extractLsb' 0 4) (w.extractLsb' 12 4) (w.extractLsb' 16 4))
    else if w.extractLsb' 20 8 = 0b11000101#8 ∧ w.extractLsb' 8 4 = 15#4 then .error .mrrc
    else .error .notC7

/-- The word four bytes make, lowest address first, in either byte order (20_memory R65, parameter `big_endian`). -/
def wordOfBytes (bigEndian : Bool) (b0 b1 b2 b3 : Byte) : Word :=
  if bigEndian then b0 ++ b1 ++ b2 ++ b3 else b3 ++ b2 ++ b1 ++ b0

/-- The four bytes of a word, lowest address first. -/
def bytesOfWord (bigEndian : Bool) (w : Word) : List Byte :=
  let le := [w.extractLsb' 0 8, w.extractLsb' 8 8, w.extractLsb' 16 8, w.extractLsb' 24 8]
  if bigEndian then le.reverse else le

/-- The instruction the first four bytes hold, and the bytes after it; fewer than four bytes hold none. -/
def decodeBytes (bigEndian : Bool) : List Byte → Option (Except DecodeReject Instr × List Byte)
  | b0 :: b1 :: b2 :: b3 :: rest => some (decode (wordOfBytes bigEndian b0 b1 b2 b3), rest)
  | _ => none

/-- The instruction the decoder reads from a row's word given as a number, bit 0 the least significant, the bits above
`nbits` zero: laid out as bytes, then decoded. -/
def decodeTableWord (nbits w : Nat) : Option Instr :=
  match decodeBytes false (bytesOfWord false (BitVec.ofNat 32 (w % 2 ^ nbits))) with
  | some (.ok i, _) => some i
  | _ => none

/-- The bits of a condition (30_encoding R93). -/
def Cond.bits : Cond → BitVec 4
  | .eq => 0 | .ne => 1 | .cs => 2 | .cc => 3 | .mi => 4 | .pl => 5 | .vs => 6 | .vc => 7 | .hi => 8 | .ls => 9
  | .ge => 10 | .lt => 11 | .gt => 12 | .le => 13 | .al => 14

/-- Format CPRT with cp_num = 15 and CRn = 7 (30_encoding R91): `cccc 1110 ooo L 0111 dddd 1111 OOO 1 mmmm`. -/
def cprt (c : Cond) (opcode1 : BitVec 3) (read : BitVec 1) (rd : RegNo) (opcode2 : BitVec 3) (crm : BitVec 4) : Word :=
  c.bits ++ 0b1110#4 ++ opcode1 ++ read ++ 7#4 ++ rd ++ 15#4 ++ opcode2 ++ 1#1 ++ crm

/-- Format CPRRT with cp_num = 15 (30_encoding R92): `cccc 1100 0100 nnnn dddd 1111 oooo mmmm`. -/
def cprrt (c : Cond) (rn rd : RegNo) (opcode1 crm : BitVec 4) : Word :=
  c.bits ++ 0b11000100#8 ++ rn ++ rd ++ 15#4 ++ opcode1 ++ crm

/-- An MCR function with Opcode_1 = 0 (30_encoding R105). -/
def mcr (c : Cond) (rd : RegNo) (crm : BitVec 4) (opcode2 : BitVec 3) : Word := cprt c 0 0 rd opcode2 crm

/-- An MRC function with Opcode_1 = 0 (30_encoding R105). -/
def mrc (c : Cond) (rd : RegNo) (crm : BitVec 4) (opcode2 : BitVec 3) : Word := cprt c 0 1 rd opcode2 crm

/-- The word of an instruction (30_encoding R105, R106, R108). -/
def encode : Instr → Word
  | .wfi c rd => mcr c rd 0 4
  | .invIcacheAll c rd => mcr c rd 5 0
  | .invIcacheMva c rd => mcr c rd 5 1
  | .invIcacheSw c rd => mcr c rd 5 2
  | .flushPrefetchBuffer c rd => mcr c rd 5 4
  | .flushBtcAll c rd => mcr c rd 5 6
  | .flushBtcMva c rd => mcr c rd 5 7
  | .invDcacheAll c rd => mcr c rd 6 0
  | .invDcacheMva c rd => mcr c rd 6 1
  | .invDcacheSw c rd => mcr c rd 6 2
  | .invBothAll c rd => mcr c rd 7 0
  | .cleanDcacheAll c rd => mcr c rd 10 0
  | .cleanDcacheMva c rd => mcr c rd 10 1
  | .cleanDcacheSw c rd => mcr c rd 10 2
  | .dsb c rd => mcr c rd 10 4
  | .dmb c rd => mcr c rd 10 5
  | .readCdsr c rd => mrc c rd 10 6
  | .readBtsr c rd => mrc c rd 12 4
  | .stopPrefetchRange c rd => mcr c rd 12 5
  | .prefetchIcacheMva c rd => mcr c rd 13 1
  | .cleaninvDcacheAll c rd => mcr c rd 14 0
  | .cleaninvDcacheMva c rd => mcr c rd 14 1
  | .cleaninvDcacheSw c rd => mcr c rd 14 2
  | .invIcacheRange c rd rn => cprrt c rn rd 0 5
  | .invDcacheRange c rd rn => cprrt c rn rd 0 6
  | .cleanDcacheRange c rd rn => cprrt c rn rd 0 12
  | .cleaninvDcacheRange c rd rn => cprrt c rn rd 0 14
  | .prefetchIcacheRange c rd rn => cprrt c rn rd 1 12
  | .prefetchDcacheRange c rd rn => cprrt c rn rd 2 12
  | .unifiedNopC7k1 c rd => mcr c rd 7 1
  | .unifiedNopC7k2 c rd => mcr c rd 7 2
  | .unifiedNopC7k3 c rd => mcr c rd 7 3
  | .unifiedNopC7k4 c rd => mcr c rd 7 4
  | .unifiedNopC7k5 c rd => mcr c rd 7 5
  | .unifiedNopC7k6 c rd => mcr c rd 7 6
  | .unifiedNopC7k7 c rd => mcr c rd 7 7
  | .unifiedNopC11 c rd opcode2 => mcr c rd 11 opcode2
  | .unifiedNopC15 c rd opcode2 => mcr c rd 15 opcode2
  | .c7OtherCprt c rd read opcode1 crm opcode2 => cprt c opcode1 read rd opcode2 crm
  | .cp15OtherMcrr c rd rn opcode1 crm => cprrt c rn rd opcode1 crm

end Sys2Proof
end

