-- ==== Sys2Proof/Config.lean ====
section
/-! DEFINITION. What an implementation fixes (the parameters of 00_scope R5, as plain data a state carries) and the free
values: constants without a body, of which Lean can prove no value. -/

namespace Sys2Proof.Config

/-- The two sides of the split caches (10_state R25); also the side of a block transfer (R36). -/
inductive Side where
  | instr  -- the instruction side, `I`
  | data   -- the data side, `D`
deriving DecidableEq, Repr

/-- The `access` argument of `translate` (00_scope R5). -/
inductive Access where
  | fetch
  | data
deriving DecidableEq, Repr

/-- What an MCRR to CP15 that selects no range operation does (00_scope R5 `mcrr_other`, conflict C1, decision D3). -/
inductive McrrOther where
  | ignored
  | undefined
deriving DecidableEq, Repr

/-- Which function `fcse` is (00_scope R5, decision D21): the formula the spec believes in (20_memory R61, GK16), or any
other function, `Config.fcseOther k`, of which nothing is known. -/
inductive FcseKind where
  | formula
  | other (k : Nat)
deriving DecidableEq, Repr

/-- `vector_base` and the offsets of exception entry (00_scope R5, 60_exceptions R270, decision D23). -/
structure Vectors where
  base          : Word
  undefOffset   : Word
  abortOffset   : Word
  irqOffset     : Word
  fiqOffset     : Word
deriving DecidableEq, Repr

/-- The parameters of 00_scope R5 that stay fixed while the machine runs. -/
structure Params where
  nWays     : Nat        -- `NWAYS`
  sD        : Nat        -- `S_D`
  sI        : Nat        -- `S_I`
  mcrrOther : McrrOther
  vectors   : Vectors
  bigEndian : Bool
  fcse      : FcseKind
deriving DecidableEq, Repr

/-- A fault of `translate`: the address as the program gave it, as the caches see it, the access and a reason. -/
structure TransFault where
  va     : Word
  mva    : Word
  access : Access
  reason : Word
deriving DecidableEq, Repr

/-- The free values of the machine (log entry 9): the n-th choice that the hardware makes once the choices listed in
the state are used up (00_scope R7 `draw`: "a value of type T chosen by the hardware, under no law"). -/
opaque draw : Nat → Nat

/-- `fcse` when it is not the formula (log entry 14): function number `k`, of the FCSE PID and the block of the VA. -/
opaque fcseOther : Nat → Word → Block → Block

/-- Whether FAR holds the MVA or the VA of the faulting line (log entry 15; 60_exceptions R262: "not stated"). -/
opaque farHoldsMva : TransFault → Bool

/-- Which byte of the faulting line FAR names (log entry 15; 60_exceptions R262: "which byte of the line, is not
stated"). -/
opaque farOffset : TransFault → BitVec 5

/-- The reason code DFSR holds (log entry 15; 91_not_in_source N5). -/
opaque dfsrOf : TransFault → Word

/-- The valid bit of slot number `n` after reset (log entry 7; 10_state R56, decision D8: a draw). -/
opaque resetValid : Side → Nat → Bool

/-- The `addr` field of slot number `n` after reset (log entry 7). -/
opaque resetAddr : Side → Nat → Block

/-- The `block` field of slot number `n` after reset (log entry 7). -/
opaque resetBlock : Side → Nat → Block

/-- The data of slot number `n` after reset (log entry 7). -/
opaque resetData : Side → Nat → Line

/-- The branch target cache after reset (log entry 7; 10_state R56). -/
opaque resetBtac : List Word

/-- The prefetch buffer after reset, addresses and words (log entry 7; 10_state R56). -/
opaque resetPfb : List (Word × Word)

end Sys2Proof.Config
end

