-- ==== Sys2Proof/Machine/State.lean ====
section
/-! DEFINITION. The state of the machine, as plain data: every piece of state that 10_state names (INVENTORY.md,
'State', lists them with rule and reset value), the model's own fields (draws, agenda, points, btOldPids, cdsrClearing), the reasons
to stop, and the state after reset. -/

namespace Sys2Proof.Machine

open Sys2Proof.Config

/-- The processor modes (60_exceptions R275): User, and the privileged ones. -/
inductive Mode where
  | user | fiq | irq | supervisor | abort | undefined | system
deriving DecidableEq, Repr

/-- The pair r13 (stack pointer) and r14 (link) that a mode banks (10_state R48, 60_exceptions R277). -/
structure Bank where
  sp : Word
  lr : Word
deriving DecidableEq, Repr

/-- The general registers with their banks (10_state R47, R48; 60_exceptions R277). -/
structure Regs where
  usr     : Vector Word 13   -- r0 to r12
  fiqHigh : Vector Word 5    -- r8_fiq to r12_fiq
  usrBank : Bank             -- r13, r14 of User and System mode
  fiqBank : Bank
  irqBank : Bank
  svcBank : Bank
  abtBank : Bank
  undBank : Bank
deriving DecidableEq, Repr

/-- One SPSR per exception mode (10_state R48, 60_exceptions R270). -/
structure SavedStatus where
  fiq : Word
  irq : Word
  svc : Word
  abt : Word
  und : Word
deriving DecidableEq, Repr

/-- A line slot of a cache or of a TCM operating as SmartCache (10_state R28). `fading` is the model's own (log entry 41):
an earlier operation has invalidated the slot and that is not complete yet, as 70_reset R306 allows until a Data
Synchronization Barrier. -/
structure Slot where
  valid  : Bool
  dirty  : Bool
  fading : Bool
  addr   : Block   -- physical address of the block, bits [31:5]; bits [4:0] are zero (20_memory R67)
  block  : Block   -- `line(mva)` of the MVA by which the line is found
  data   : Line
deriving DecidableEq, Repr

/-- A tightly-coupled memory (10_state R29, R35, R46; 00_scope R5 `smartcache(k)`): its number is its place in the list of
its side; `base` and `size` are the region of physical addresses it covers; it holds `slots` while it operates as
SmartCache, and `bytes`, from `base` on, while it does not (log entry 52). -/
structure Tcm where
  smartCache : Bool
  base       : Word
  size       : Nat
  slots      : List Slot
  bytes      : List Byte
deriving DecidableEq, Repr

/-- An entry of the branch target cache: the instruction address it is tied to (10_state R34). `fading` is the model's own:
an earlier operation has flushed it and that is not complete yet (70_reset R306; log entry 41). -/
structure Branch where
  addr   : Word
  fading : Bool
deriving DecidableEq, Repr

/-- Where a slot stands on its side: in the cache proper, by number (`way * sets + set`), or in a TCM. -/
inductive SlotRef where
  | cache (idx : Nat)
  | tcm (k set : Nat)
deriving DecidableEq, Repr

/-- A word of the prefetch buffer with the address it was fetched for (10_state R35). -/
structure Prefetched where
  addr : Word
  word : Word
deriving DecidableEq, Repr

/-- One byte on its way to memory (10_state R38, 20_memory R71): written by a store (`explicit`) or by a clean. -/
structure PendingByte where
  addr     : Word
  byte     : Byte
  explicit : Bool
deriving DecidableEq, Repr

/-- A running Prefetch Range (10_state R36): side, the next block, the last block (`end` in the spec). -/
structure Transfer where
  side : Side
  cur  : Block
  last : Block
deriving DecidableEq, Repr

/-- The four input levels (10_state R52). -/
structure Inputs where
  irq            : Bool
  fiq            : Bool
  impreciseAbort : Bool
  debugRequest   : Bool
deriving DecidableEq, Repr

/-- The c1 Control Register bits the c7 page names (10_state R41). -/
structure Control where
  c  : Bool
  i  : Bool
  rr : Bool
deriving DecidableEq, Repr

/-- The c1 Auxiliary Control Register bits the c7 page names (10_state R42). -/
structure AuxControl where
  ra : Bool
  rv : Bool
deriving DecidableEq, Repr

/-- An answer of `translate` (00_scope R5): a physical block and whether the caches may hold it, or a fault with its
reason. -/
inductive Answer where
  | mapped (block : Block) (cacheable : Bool)
  | faults (reason : Word)
deriving DecidableEq, Repr

/-- The MMU's answer for one block of MVAs and one kind of access (00_scope R5 `translate`; log entry 13). -/
structure Mapping where
  block  : Block
  access : Access
  answer : Answer
deriving DecidableEq, Repr

/-- Physical memory: (address, byte) pairs, addresses strictly rising, none equal to what an unlisted address reads as
(`Memory.wf` of Machine/Ops.lean). -/
structure Memory where
  cells : List Host.Cell
deriving DecidableEq, Repr

/-- Where the next free values come from (log entry 9): the listed choices in order, then `Config.draw` of the counter. -/
structure Draws where
  choices : List Nat
  drawn   : Nat
deriving DecidableEq, Repr

/-- What one of the agents of 00_scope R9 may do between two steps of the core (log entry 10). -/
inductive Action where
  /-- The core takes its step. -/
  | core
  /-- The block transfer engine takes its step (43_range R192); `memFault`: fetching the line faults. -/
  | engine (memFault : Bool)
  /-- The cache hardware tries to fill a line (10_state R33). -/
  | fill (side : Side) (mva : Word)
  /-- The cache hardware evicts a slot (10_state R33). -/
  | evict (side : Side) (ref : SlotRef)
  /-- The cache hardware cleans a slot of the data side (10_state R33). -/
  | clean (ref : SlotRef)
  /-- The invalidation of a slot that is still under way is complete (70_reset R306). -/
  | settle (side : Side) (ref : SlotRef)
  /-- An invalidate of the whole data cache that is still under way has run to completion: C is cleared (10_state R22 (b)). -/
  | settleCdsr
  /-- The write buffer completes its `k`-th byte, unless an older one goes to the same address (20_memory R71). -/
  | drain (k : Nat)
  /-- The word at `va` is fetched ahead of execution (10_state R35). -/
  | prefetchWord (va : Word)
  /-- The `k`-th word of the prefetch buffer is dropped (log entry 31). -/
  | dropPrefetched (k : Nat)
  /-- The hardware records a branch at `addr` (10_state R34). -/
  | predict (addr : Word)
  /-- The hardware drops the `k`-th entry of the branch target cache: a flush under way completes, or it is replaced. -/
  | dropBranch (k : Nat)
  /-- The environment sets the input levels (10_state R52). -/
  | setInputs (levels : Inputs)
  /-- Software outside the instruction set in scope stores bytes from `mva` on (10_state R22 (a), 20_memory R71). -/
  | store (mva : Word) (bytes : List Byte)
  /-- Software outside the instruction set in scope writes the FCSE PID (43_range R195). -/
  | setFcsePid (pid : Word)
  /-- Software outside the instruction set in scope changes the page tables (43_range R196). -/
  | setMapping (m : Mapping)
  /-- Software outside the instruction set in scope writes the c1 bits (10_state R41, R42). -/
  | setControl (ctrl : Control) (aux : AuxControl)
  /-- The debug logic enters or leaves debug state (10_state R51). -/
  | setDebugState (on : Bool)
deriving DecidableEq, Repr

/-- The machine's state. -/
structure State where
  regs        : Regs
  pc          : Word
  cpsr        : Word
  spsr        : SavedStatus
  cdsrC       : Bool               -- Cache Dirty Status Register bit C
  dc          : List Slot          -- data cache
  ic          : List Slot          -- instruction cache
  tcmD        : List Tcm
  tcmI        : List Tcm
  btac        : List Branch        -- branch target cache
  pfb         : List Prefetched    -- prefetch buffer, oldest first
  writeBuffer : List PendingByte   -- oldest first
  bt          : Option Transfer    -- block transfer engine; Block Transfer Status Register bit R
  standby     : Bool
  mem         : Memory
  cacheType   : Word               -- c0 Cache Type Register
  ctrl        : Control
  aux         : AuxControl
  far         : Word
  dfsr        : Word
  fcsePid     : Word               -- 32 bits: the model's choice, R45 gives no width (log entry 53)
  mmu         : List Mapping
  lockdown    : Bool
  debugState  : Bool
  inputs      : Inputs
  cfg         : Params
  cdsrClearing : Bool              -- the model's own: C is yet to be cleared (log entry 41)
  btOldPids   : List Word          -- the model's own
  draws       : Draws              -- the model's own
  agenda      : List Action        -- the model's own
  points      : List Inputs        -- the model's own
deriving DecidableEq, Repr

/-- The faults: the machine stops. -/
inductive Fault where
  /-- Raised by the step when the translation of an instruction fetch faults. The spec describes no Prefetch Abort
  (60_exceptions R260). Safe: the hardware goes on, the model stops. -/
  | fetchTranslation
deriving DecidableEq, Repr

/-- The refusals: the model gives no meaning. All are safe: the hardware does something, of which nothing can be proved. -/
inductive Refusal where
  /-- An arm of `exec` without a meaning. None is left. -/
  | notModelled (mnemonic : String)
  /-- Register 15 as Rd or Rn of a c7 access (30_encoding R95, decision D11). Raised by every meaning. -/
  | r15Operand
  /-- A nonzero value written where the operand should be zero (30_encoding R97, decision D12). -/
  | nonzeroSbz
  /-- A Set/Way value with a nonzero bit in [29:S+3] or [4:1] (30_encoding R98, U3). -/
  | setWayReserved
  /-- A Set/Way value that names no way, no SmartCache TCM or no set (30_encoding R99, U4). -/
  | setWayAbsent
  /-- A single-line MVA operation whose address does not translate (42_single_line R171, decision D9). -/
  | lineTranslation
  /-- An operation that bit RA or RV of the Auxiliary Control Register concerns (70_reset R296 (a), U17). -/
  | auxDisabled
  /-- A cache operation while cache lockdown is in force (70_reset R296 (e), U17). -/
  | cacheLockdown
  /-- The instruction address is no multiple of 4 (10_state R49, decision D7). Raised by the step. -/
  | unalignedPc
  /-- The processor is not in ARM state (70_reset R296 (c), decision D1). Raised by the step. -/
  | notArmState
  /-- A debug request is taken: what the debug logic does is outside the spec (60_exceptions R266). Raised by the step. -/
  | debugLogic
  /-- The word is MCR2, MRC2, MCRR2 or MRRC2 to CP15 (30_encoding R93, decision D2). Raised by the step. -/
  | unconditional
  /-- The word is an MRRC to CP15 (decision D2). Raised by the step. -/
  | mrrc
  /-- The word is no MCR, MRC or MCRR to c7, in either instruction space, and no exception return of 60_exceptions R271
  (30_encoding R94, 60_exceptions R282 (e)). Raised by the step. -/
  | outsideSpec
  /-- An exception return in a mode that has no SPSR (60_exceptions R277). Raised by the step. -/
  | noSavedStatus
deriving DecidableEq, Repr

/-- Slot number `n` of a cache after reset: not dirty (10_state R56), no invalidation under way, the rest drawn (decision D8;
log entry 7). -/
def resetSlot (side : Side) (n : Nat) : Slot :=
  { valid := resetValid side n, dirty := false, fading := false, addr := resetAddr side n, block := resetBlock side n
    data := resetData side n }

/-- The slots after reset from number `first` on. -/
def resetSlots (side : Side) (first : Nat) : Nat → List Slot
  | 0 => []
  | count + 1 => resetSlot side first :: resetSlots side (first + 1) count

/-- The CPSR after reset: Supervisor mode, A, I and F masks set, ARM state (10_state R58, GK14; log entry 2). -/
def resetPsr : Word := 0x000001D3#32

/-- The launch value of the parameters: 16KB four-way caches (log entry 5), MCRR to CP15 otherwise ignored (decision
D3, log entry 26), the vector table of 60_exceptions R270 (log entry 16), little-endian (log entry 32), the FCSE
formula of 20_memory R61 (log entry 14). -/
def launchParams : Params :=
  { nWays := 4, sD := 9, sI := 9, mcrrOther := .ignored
    vectors := { base := 0, undefOffset := 0x04, abortOffset := 0x10, irqOffset := 0x18, fiqOffset := 0x1C }
    bigEndian := false, fcse := .formula }

/-- The machine right after reset (10_state R54 to R58; INVENTORY.md gives the ground of every value). -/
def State.reset : State where
  regs :=
    { usr := Vector.replicate 13 0, fiqHigh := Vector.replicate 5 0, usrBank := ⟨0, 0⟩, fiqBank := ⟨0, 0⟩
      irqBank := ⟨0, 0⟩, svcBank := ⟨0, 0⟩, abtBank := ⟨0, 0⟩, undBank := ⟨0, 0⟩ }
  pc := 0
  cpsr := resetPsr
  spsr := { fiq := resetPsr, irq := resetPsr, svc := resetPsr, abt := resetPsr, und := resetPsr }
  cdsrC := false
  dc := resetSlots .data 0 512
  ic := resetSlots .instr 0 512
  tcmD := []
  tcmI := []
  btac := resetBtac.map fun a => { addr := a, fading := false }
  pfb := resetPfb.map fun p => { addr := p.1, word := p.2 }
  writeBuffer := []
  bt := none
  standby := false
  mem := { cells := [] }
  cacheType := 0x1D152152#32
  ctrl := { c := false, i := false, rr := false }
  aux := { ra := false, rv := false }
  far := 0
  dfsr := 0
  fcsePid := 0
  mmu := []
  lockdown := false
  debugState := false
  inputs := { irq := false, fiq := false, impreciseAbort := false, debugRequest := false }
  cfg := launchParams
  cdsrClearing := false
  btOldPids := []
  draws := { choices := [], drawn := 0 }
  agenda := []
  points := []

end Sys2Proof.Machine
end

