-- ==== Sys2Proof/Machine/Flags.lean ====
section
/-! DEFINITION. The program status register: its bits (10_state R50, GK11), the modes (60_exceptions R275), the condition
check (30_encoding R93). No instruction of this spec writes a flag (00_scope R8): there is no flag computation. -/

namespace Sys2Proof.Machine

/-- Flag N, bit 31 (10_state R50). -/
def psrN (p : Word) : Bool := p.getLsbD 31
/-- Flag Z, bit 30 (10_state R50). -/
def psrZ (p : Word) : Bool := p.getLsbD 30
/-- Flag C, bit 29 (10_state R50). -/
def psrC (p : Word) : Bool := p.getLsbD 29
/-- Flag V, bit 28 (10_state R50). -/
def psrV (p : Word) : Bool := p.getLsbD 28
/-- Jazelle state, bit 24. PRESUMED (log entry 35): the spec names Jazelle state and no bit. -/
def psrJ (p : Word) : Bool := p.getLsbD 24
/-- Mask A of imprecise aborts, bit 8; 1 disables (10_state R50). -/
def psrA (p : Word) : Bool := p.getLsbD 8
/-- Mask I of IRQ, bit 7; 1 disables (10_state R50). -/
def psrI (p : Word) : Bool := p.getLsbD 7
/-- Mask F of FIQ, bit 6; 1 disables (10_state R50). -/
def psrF (p : Word) : Bool := p.getLsbD 6
/-- Thumb state, bit 5 (10_state R50). -/
def psrT (p : Word) : Bool := p.getLsbD 5
/-- The mode field, bits [4:0] (10_state R50). -/
def psrMode (p : Word) : BitVec 5 := p.extractLsb' 0 5

/-- The bits of a mode (60_exceptions R275). -/
def Mode.bits : Mode → BitVec 5
  | .user => 0b10000#5
  | .fiq => 0b10001#5
  | .irq => 0b10010#5
  | .supervisor => 0b10011#5
  | .abort => 0b10111#5
  | .undefined => 0b11011#5
  | .system => 0b11111#5

/-- The mode of a mode field; none for the bits R275 does not list (log entry 27). -/
def Mode.ofBits (b : BitVec 5) : Option Mode :=
  match b.toNat with
  | 0b10000 => some .user
  | 0b10001 => some .fiq
  | 0b10010 => some .irq
  | 0b10011 => some .supervisor
  | 0b10111 => some .abort
  | 0b11011 => some .undefined
  | 0b11111 => some .system
  | _ => none

/-- Whether a condition holds of the flags (30_encoding R93: the ARM condition codes, GK15; log entry 43). -/
def condHolds (c : Cond) (p : Word) : Bool :=
  match c with
  | .eq => psrZ p
  | .ne => !psrZ p
  | .cs => psrC p
  | .cc => !psrC p
  | .mi => psrN p
  | .pl => !psrN p
  | .vs => psrV p
  | .vc => !psrV p
  | .hi => psrC p && !psrZ p
  | .ls => !psrC p || psrZ p
  | .ge => psrN p == psrV p
  | .lt => psrN p != psrV p
  | .gt => !psrZ p && psrN p == psrV p
  | .le => psrZ p || psrN p != psrV p
  | .al => true

/-- The CPSR of exception entry (60_exceptions R270): mode, T cleared, I set, F and A set where the exception sets them;
every other bit kept, but J cleared too (log entry 35). -/
def entryPsr (p : Word) (m : Mode) (setF setA : Bool) : Word :=
  (p &&& 0xFEFFFFC0#32) ||| m.bits.setWidth 32 ||| 0x80#32 ||| (if setF then 0x40#32 else 0#32)
    ||| (if setA then 0x100#32 else 0#32)

end Sys2Proof.Machine
end

