-- ==== Sys2Proof/Machine/Ops.lean ====
section
/-! DEFINITION. The named operations over registers, memory, the write buffer and the free values; taking an exception
and returning from one (60_exceptions R270, R271). -/

namespace Sys2Proof.Machine

open Sys2Proof.Config

/-! ## Free values (00_scope R7 `draw`; log entry 9) -/

/-- The next free value. -/
def Draws.head (d : Draws) : Nat :=
  match d.choices with
  | [] => Config.draw d.drawn
  | c :: _ => c

/-- What is left once the next free value is taken. -/
def Draws.tail (d : Draws) : Draws :=
  match d.choices with
  | [] => { d with drawn := d.drawn + 1 }
  | _ :: cs => { d with choices := cs }

/-- The state after one free value is taken. -/
def afterDraw (s : State) : State := { s with draws := s.draws.tail }

/-! ## Modes and registers -/

/-- The mode the CPSR holds, if its field is one of the seven (60_exceptions R275). -/
def modeOf (s : State) : Option Mode := Mode.ofBits (psrMode s.cpsr)

/-- `privileged()`: false exactly in User mode (60_exceptions R275). -/
def privileged (s : State) : Bool := psrMode s.cpsr != Mode.user.bits

/-- The bank of r13 and r14 that a mode uses (60_exceptions R277: User and System share one; log entry 27: so does a
mode field that names no mode). -/
def Regs.bank (r : Regs) : Option Mode → Bank
  | some .fiq => r.fiqBank
  | some .irq => r.irqBank
  | some .supervisor => r.svcBank
  | some .abort => r.abtBank
  | some .undefined => r.undBank
  | some .user | some .system | none => r.usrBank

/-- The registers with one bank of r13 and r14 replaced. -/
def Regs.setBank (r : Regs) (m : Option Mode) (b : Bank) : Regs :=
  match m with
  | some .fiq => { r with fiqBank := b }
  | some .irq => { r with irqBank := b }
  | some .supervisor => { r with svcBank := b }
  | some .abort => { r with abtBank := b }
  | some .undefined => { r with undBank := b }
  | some .user | some .system | none => { r with usrBank := b }

/-- `x[i]`: register r0 to r14 of the current mode's bank (00_scope R7). Register 15 is never an operand
(30_encoding R95); the read is made total by the pc. -/
def readReg (s : State) (n : RegNo) : Word :=
  if n = 15#4 then s.pc
  else if n = 14#4 then (s.regs.bank (modeOf s)).lr
  else if n = 13#4 then (s.regs.bank (modeOf s)).sp
  else if modeOf s = some .fiq ∧ 8 ≤ n.toNat then s.regs.fiqHigh[n.toNat - 8]?.getD 0
  else s.regs.usr[n.toNat]?.getD 0

/-- The registers after `x[i] <- v` in a mode. -/
def Regs.write (r : Regs) (m : Option Mode) (n : RegNo) (v : Word) : Regs :=
  if n = 15#4 then r
  else if n = 14#4 then r.setBank m { r.bank m with lr := v }
  else if n = 13#4 then r.setBank m { r.bank m with sp := v }
  else if m = some .fiq ∧ 8 ≤ n.toNat then { r with fiqHigh := r.fiqHigh.setIfInBounds (n.toNat - 8) v }
  else { r with usr := r.usr.setIfInBounds n.toNat v }

/-- `x[i] <- v` (00_scope R7). -/
def writeReg (s : State) (n : RegNo) (v : Word) : State := { s with regs := s.regs.write (modeOf s) n v }

/-- The SPSR of a mode; User and System mode have none (60_exceptions R277). -/
def SavedStatus.of (p : SavedStatus) : Option Mode → Option Word
  | some .fiq => some p.fiq
  | some .irq => some p.irq
  | some .supervisor => some p.svc
  | some .abort => some p.abt
  | some .undefined => some p.und
  | some .user | some .system | none => none

/-- The SPSRs with a mode's replaced. -/
def SavedStatus.set (p : SavedStatus) (m : Mode) (v : Word) : SavedStatus :=
  match m with
  | .fiq => { p with fiq := v }
  | .irq => { p with irq := v }
  | .supervisor => { p with svc := v }
  | .abort => { p with abt := v }
  | .undefined => { p with und := v }
  | .user | .system => p

/-- `pc <- next`: the instruction at `A` completes, `A + 4` is next, modulo 2^32 (10_state R49, decision D7). -/
def advance (s : State) : State := { s with pc := s.pc + 4 }

/-! ## Taking an exception and returning from one -/

/-- The exceptions of 60_exceptions R261 to R265. -/
inductive Exc where
  | undefinedInstruction
  | dataAbort
  | impreciseAbort
  | irq
  | fiq
deriving DecidableEq, Repr

/-- `mode(E)` (60_exceptions R270). -/
def Exc.mode : Exc → Mode
  | .undefinedInstruction => .undefined
  | .dataAbort | .impreciseAbort => .abort
  | .irq => .irq
  | .fiq => .fiq

/-- `offset(E)` (60_exceptions R270; a parameter, decision D23). -/
def Exc.offset (v : Vectors) : Exc → Word
  | .undefinedInstruction => v.undefOffset
  | .dataAbort | .impreciseAbort => v.abortOffset
  | .irq => v.irqOffset
  | .fiq => v.fiqOffset

/-- Whether entry sets F: FIQ only (60_exceptions R270). -/
def Exc.setsF : Exc → Bool
  | .fiq => true
  | .undefinedInstruction | .dataAbort | .impreciseAbort | .irq => false

/-- Whether entry sets A: all but Undefined Instruction (60_exceptions R270). -/
def Exc.setsA : Exc → Bool
  | .undefinedInstruction => false
  | .dataAbort | .impreciseAbort | .irq | .fiq => true

/-- Exception entry (60_exceptions R270): the SPSR of the new mode takes the CPSR, the CPSR the new mode and masks, the
r14 of the new mode the return link, the pc the vector. Neither entry nor return empties the prefetch buffer: the model's
choice (N47, 45_flush R220 leave it open; log entry 31). -/
def takeException (e : Exc) (link : Word) (s : State) : State :=
  { s with
    spsr := s.spsr.set e.mode s.cpsr
    cpsr := entryPsr s.cpsr e.mode e.setsF e.setsA
    regs := s.regs.setBank (some e.mode) { s.regs.bank (some e.mode) with lr := link }
    pc := s.cfg.vectors.base + e.offset s.cfg.vectors }

/-- `raise UndefinedInstruction()`: the return link is A + 4 (60_exceptions R261, R268). -/
def raiseUndefined (s : State) : State := takeException .undefinedInstruction (s.pc + 4) s

/-- The address FAR records for a fault: inside the faulting line, its VA or its MVA, some byte of it (60_exceptions
R262; log entry 15). -/
def farOf (f : TransFault) : Word :=
  ((if farHoldsMva f then f.mva else f.va).extractLsb' 5 27 ++ farOffset f : Word)

/-- `raise DataAbort(far, dfsr)`: FAR and DFSR first, then entry with the link A + 8 (60_exceptions R262, R268). -/
def raiseDataAbort (f : TransFault) (s : State) : State :=
  takeException .dataAbort (s.pc + 8) { s with far := farOf f, dfsr := dfsrOf f }

/-- An imprecise external abort is taken: entry by the table of 60_exceptions R270 (R265); the link, FAR and DFSR are not
in the source (N49) and are free values (log entry 17). -/
def takeImpreciseAbort (s : State) : State :=
  let s1 := afterDraw s
  let s2 := afterDraw s1
  takeException .impreciseAbort (BitVec.ofNat 32 s.draws.head)
    { afterDraw s2 with far := BitVec.ofNat 32 s1.draws.head, dfsr := BitVec.ofNat 32 s2.draws.head }

/-- Exception return `SUBS PC,R14,#k` (60_exceptions R271): pc <- r14 - k and CPSR <- SPSR of the current mode. The
prefetch buffer is kept (log entry 31). -/
def exceptionReturn (k : Word) (s : State) : Host.Outcome State Fault Refusal :=
  match s.spsr.of (modeOf s) with
  | none => .refused .noSavedStatus
  | some p => .next { s with pc := (s.regs.bank (modeOf s)).lr - k, cpsr := p }

/-! ## Memory -/

/-- What a byte of memory that nothing has written reads as (log entry 8). -/
def unlistedByte : Byte := 0

/-- The byte a list of cells holds at an address. -/
def lookupCell : List Host.Cell → Nat → Byte
  | [], _ => unlistedByte
  | (k, v) :: t, a => if k = a then v else lookupCell t a

/-- The cells after one byte is written, in canonical form again. -/
def putCell : List Host.Cell → Nat → Byte → List Host.Cell
  | [], a, b => if b = unlistedByte then [] else [(a, b)]
  | (k, v) :: t, a, b =>
    if a < k then (if b = unlistedByte then (k, v) :: t else (a, b) :: (k, v) :: t)
    else if a = k then (if b = unlistedByte then t else (a, b) :: t)
    else (k, v) :: putCell t a b

/-- The canonical form: addresses strictly rising and below 2^32, no entry equal to what an unlisted address reads as. -/
abbrev Memory.wf (m : Memory) : Prop :=
  m.cells.Pairwise (fun x y => x.1 < y.1) ∧ ∀ c ∈ m.cells, c.1 < 2 ^ 32 ∧ c.2 ≠ unlistedByte

/-- The byte of memory at a physical address. -/
def Memory.read (m : Memory) (a : Word) : Byte := lookupCell m.cells a.toNat

/-- The memory after one byte is written. -/
def Memory.write (m : Memory) (a : Word) (b : Byte) : Memory := { cells := putCell m.cells a.toNat b }

/-- The first address of a block. -/
def blockBase (b : Block) : Word := b ++ 0#5

/-- The address of byte `i` of a block. -/
def byteOfBlock (b : Block) (i : Nat) : Word := blockBase b + BitVec.ofNat 32 i

/-- `MemRead(addr, 32)`: the 32 bytes of a physical block (00_scope R7, 20_memory R65). -/
def Memory.readLine (m : Memory) (b : Block) : Line :=
  ⟨((List.range 32).map fun i => m.read (byteOfBlock b i)).toArray, by simp⟩

/-! ## The write buffer (10_state R38, 20_memory R71, R72; log entry 28) -/

/-- Bytes written to memory in order. -/
def Memory.writePending (m : Memory) (ps : List PendingByte) : Memory := ps.foldl (fun m p => m.write p.addr p.byte) m

/-- The value a byte of memory has once the write buffer is empty. -/
def settledByte (s : State) (a : Word) : Byte := (s.mem.writePending s.writeBuffer).read a

/-- `CompleteOutstanding()`: every pending byte reaches memory, oldest first (20_memory R72). -/
def completeOutstanding (s : State) : State :=
  { s with mem := s.mem.writePending s.writeBuffer, writeBuffer := [] }

/-- The pending bytes a Data Memory Barrier waits for: the explicit ones, and an older byte to the same address as a
later explicit one (20_memory R74; log entry 29). -/
def dmbWaits : List PendingByte → List PendingByte
  | [] => []
  | p :: t => if p.explicit || t.any (fun q => q.explicit && q.addr == p.addr) then p :: dmbWaits t else dmbWaits t

/-- The pending bytes a Data Memory Barrier leaves. -/
def dmbLeaves : List PendingByte → List PendingByte
  | [] => []
  | p :: t => if p.explicit || t.any (fun q => q.explicit && q.addr == p.addr) then dmbLeaves t else p :: dmbLeaves t

/-- Every outstanding explicit byte reaches memory (20_memory R74). -/
def completeExplicit (s : State) : State :=
  { s with mem := s.mem.writePending (dmbWaits s.writeBuffer), writeBuffer := dmbLeaves s.writeBuffer }

/-- One byte written to memory at once; older pending bytes to that address are complete before it. -/
def commitByte (s : State) (w : Word × Byte) : State :=
  { s with mem := s.mem.write w.1 w.2, writeBuffer := s.writeBuffer.filter (fun p => p.addr != w.1) }

/-- Bytes written to memory at once, in order (`MemWrite`, 00_scope R7). -/
def commit (s : State) (ws : List (Word × Byte)) : State := ws.foldl commitByte s

/-- Bytes handed to the write buffer. It always has room, and no byte is merged with an earlier one to the same address: that its
depth has no bound and that it never merges are the model's choices (10_state R38, 91 N54; log entry 28). -/
def post (s : State) (explicit : Bool) (ws : List (Word × Byte)) : State :=
  { s with writeBuffer := s.writeBuffer ++ ws.map fun w => { addr := w.1, byte := w.2, explicit := explicit } }

/-- A free value between two: whether the effect of an invalidation or a flush is still under way when its instruction is
complete (70_reset R306, 20_memory R76; log entry 41). -/
def delayed (s : State) : Bool := s.draws.head % 2 == 1

/-- The bytes of a cleaned line on their way to memory: written at once, or "may still sit in the write buffer until a
Data Synchronization Barrier" (42_single_line R164); which is a free value. -/
def writeOut (s : State) (ws : List (Word × Byte)) : State :=
  if ws = [] then s
  else if s.draws.head % 2 = 0 then commit (afterDraw s) ws
  else post (afterDraw s) false ws

/-- Every pending byte of one physical block reaches memory. -/
def settleBlock (s : State) (b : Block) : State :=
  { s with
    mem := s.mem.writePending (s.writeBuffer.filter fun p => p.addr.extractLsb' 5 27 == b)
    writeBuffer := s.writeBuffer.filter fun p => p.addr.extractLsb' 5 27 != b }

/-- The write buffer completes its `k`-th byte; nothing happens if there is none or if an older byte goes to the same
address (20_memory R71 (a), (d)). -/
def drainByte (s : State) (k : Nat) : State :=
  match s.writeBuffer[k]? with
  | none => s
  | some p =>
    if (s.writeBuffer.take k).any (fun q => q.addr == p.addr) then s
    else { s with mem := s.mem.write p.addr p.byte, writeBuffer := s.writeBuffer.eraseIdx k }

end Sys2Proof.Machine
end

