-- ==== Sys2Proof/Machine/Operands.lean ====
section
/-! DEFINITION. The operand formats of c7 (30_encoding section 2), the addresses they name (20_memory section 1), and
the two parameters `fcse` and `translate` (00_scope R5). -/

namespace Sys2Proof.Machine

open Sys2Proof.Config

/-- `line(addr)` = addr[31:5] (00_scope R7): bits [4:0] of an MVA or a range address are ignored (30_encoding R101, R103). -/
def lineOf (a : Word) : Block := a.extractLsb' 5 27

/-- The formula the spec believes `fcse` to be: if va[31:25] = 0 then FCSE_PID[31:25] : va[24:0] else va (20_memory R61). -/
def fcseFormula (pid va : Word) : Word :=
  if va.extractLsb' 25 7 = 0#7 then (pid.extractLsb' 25 7 ++ va.extractLsb' 0 25 : Word) else va

/-- `fcse(va)` under a given FCSE PID (00_scope R5; log entry 14). Whatever the function, the place within the line is
kept: the c7 rules apply it to line addresses (43_range R186). -/
def fcseWith (cfg : Params) (pid va : Word) : Word :=
  match cfg.fcse with
  | .formula => fcseFormula pid va
  | .other k => (fcseOther k pid (lineOf va) ++ va.extractLsb' 0 5 : Word)

/-- `fcse(va)` under the current FCSE PID. -/
def fcse (s : State) (va : Word) : Word := fcseWith s.cfg s.fcsePid va

/-- `translate(mva, access)` (00_scope R5; log entry 13): what the list of mappings answers; a block it does not list is
mapped to itself and cacheable. The answer depends on neither the mode nor a permission: no permission is checked, the
model's choice (20_memory R70 (e), 91 N31 leave it open; log entry 13). -/
def translate (s : State) (mva : Word) (acc : Access) : Answer :=
  match s.mmu.find? (fun m => m.block == lineOf mva && m.access == acc) with
  | some m => m.answer
  | none => .mapped (lineOf mva) true

/-- Whether `translate` succeeds (42_single_line R171). -/
def translates (s : State) (mva : Word) (acc : Access) : Bool :=
  match translate s mva acc with
  | .mapped _ _ => true
  | .faults _ => false

/-- The parameter S of a side (00_scope R5 `S_D`, `S_I`). -/
def paramS (s : State) : Side → Nat
  | .instr => s.cfg.sI
  | .data => s.cfg.sD

/-- The sets per way of a side, `2^(S-2)` (10_state R26, R27). -/
def numSets (s : State) (side : Side) : Nat := 2 ^ (paramS s side - 2)

/-- The TCMs of a side (10_state R29). -/
def tcmsOf (s : State) : Side → List Tcm
  | .instr => s.tcmI
  | .data => s.tcmD

/-- Way, bits [31:30] (30_encoding R98). -/
def wayField (v : Word) : Nat := v.toNat / 2 ^ 30

/-- Set, bits [S+2:5] (30_encoding R98). -/
def setField (S : Nat) (v : Word) : Nat := v.toNat / 2 ^ 5 % 2 ^ (S - 2)

/-- Whether a should-be-zero bit, [29:S+3] or [4:1], is set (30_encoding R98). -/
def setWayReservedBits (S : Nat) (v : Word) : Bool :=
  v.toNat % 2 ^ 30 / 2 ^ (S + 3) != 0 || v.toNat % 2 ^ 5 / 2 != 0

/-- `SlotOf(c, S, tcm, v)` (42_single_line R172): the slot a Set/Way value names, or the refusal. -/
def slotOf (s : State) (side : Side) (v : Word) : Except Refusal SlotRef :=
  let S := paramS s side
  if setWayReservedBits S v then .error .setWayReserved
  else if v.getLsbD 0 = false then
    if wayField v < s.cfg.nWays then .ok (.cache (wayField v * numSets s side + setField S v)) else .error .setWayAbsent
  else
    match (tcmsOf s side)[wayField v]? with
    | none => .error .setWayAbsent
    | some t =>
      if t.smartCache ∧ setField S v < t.slots.length then .ok (.tcm (wayField v) (setField S v)) else .error .setWayAbsent

/-- The blocks a range operation visits, ascending: line(start) to line(end) (43_range R186). -/
def rangeBlocks (start stop : Word) : List Block :=
  (List.range ((lineOf stop).toNat - (lineOf start).toNat + 1)).map fun i => lineOf start + BitVec.ofNat 27 i

/-- Whether the Start Address counts as greater than the End Address: on the block numbers; with equal blocks and
start[4:0] > end[4:0] a free value decides (43_range R187, U6). -/
def startAboveEnd (s : State) (start stop : Word) : Bool :=
  if (lineOf start).toNat > (lineOf stop).toNat then true
  else if lineOf start = lineOf stop ∧ (start.extractLsb' 0 5).toNat > (stop.extractLsb' 0 5).toNat then
    s.draws.head % 2 == 0
  else false

/-- The state after the comparison of `startAboveEnd`: the free value, if it was needed, is used up. -/
def afterCompare (s : State) (start stop : Word) : State :=
  if lineOf start = lineOf stop ∧ (start.extractLsb' 0 5).toNat > (stop.extractLsb' 0 5).toNat then afterDraw s else s

end Sys2Proof.Machine
end

