-- ==== Sys2Proof/Machine/Cache.lean ====
section
/-! DEFINITION. The caches and what stands beside them (10_state sections 4 to 6): slots, `Holding`, CleanSlot,
InvalidateSlot, FillSlot, the branch target cache, the prefetch buffer, and the visit of a set of slots. -/

namespace Sys2Proof.Machine

open Sys2Proof.Config

/-! ## Slots -/

/-- The slot is valid and caches block `b` (00_scope R7 `Holding`). -/
def Slot.holds (b : Block) (sl : Slot) : Bool := sl.valid && sl.block == b

/-- A dirty slot in the sense of 10_state R22: valid and dirty (R28: with valid = 0 the other fields have no meaning). -/
def Slot.isDirty (sl : Slot) : Bool := sl.dirty && sl.valid

/-- `InvalidateSlot` (10_state R31). -/
def Slot.invalidated (sl : Slot) : Slot := { sl with valid := false, dirty := false, fading := false }

/-- A slot whose invalidation is under way (70_reset R306): it may still be found, and dirty data it holds may still be
written to memory by an eviction or a clean before it is lost (log entry 41). -/
def Slot.fade (sl : Slot) : Slot := { sl with fading := true }

/-- A slot once no invalidation is under way any more (20_memory R73, 70_reset R306). -/
def Slot.settled (sl : Slot) : Slot := if sl.fading then sl.invalidated else sl

/-- The slot after `CleanSlot` (10_state R30): a valid dirty slot is no longer dirty; any other is unchanged. -/
def Slot.cleaned (sl : Slot) : Slot := if sl.isDirty then { sl with dirty := false } else sl

/-- What `CleanSlot` writes to memory (10_state R30): the 32 bytes of a valid dirty slot at its address, else nothing. -/
def Slot.writeBack (sl : Slot) : List (Word × Byte) :=
  if sl.isDirty then (List.range 32).map fun i => (byteOfBlock sl.addr i, sl.data[i]?.getD 0) else []

/-- The three per-slot actions (10_state R30, R31; 43_range R183 for the third). -/
inductive LineOp where
  | invalidate
  | clean
  | cleanInvalidate
deriving DecidableEq, Repr

/-- What an action leaves of a slot, once it is complete. -/
def LineOp.slot : LineOp → Slot → Slot
  | .invalidate, sl => sl.invalidated
  | .clean, sl => sl.cleaned
  | .cleanInvalidate, sl => sl.cleaned.invalidated

/-- What an action that does not block leaves of a slot when its instruction is complete: the action, or all of it but an
invalidation still under way (70_reset R306; log entry 41). -/
def LineOp.effect (late : Bool) : LineOp → Slot → Slot
  | .invalidate, sl => if late then sl.fade else sl.invalidated
  | .clean, sl => sl.cleaned
  | .cleanInvalidate, sl => if late then sl.cleaned.fade else sl.cleaned.invalidated

/-- What an action writes to memory. -/
def LineOp.writes : LineOp → Slot → List (Word × Byte)
  | .invalidate, _ => []
  | .clean, sl => sl.writeBack
  | .cleanInvalidate, sl => sl.writeBack

/-! ## The two sides -/

/-- The slots of the cache proper of a side (10_state R26, R27). -/
def cacheOf (s : State) : Side → List Slot
  | .instr => s.ic
  | .data => s.dc

/-- A side's cache replaced. -/
def setCache (s : State) (side : Side) (c : List Slot) : State :=
  match side with
  | .instr => { s with ic := c }
  | .data => { s with dc := c }

/-- A side's TCMs replaced. -/
def setTcms (s : State) (side : Side) (t : List Tcm) : State :=
  match side with
  | .instr => { s with tcmI := t }
  | .data => { s with tcmD := t }

/-- The slots of the TCMs of a list that operate as SmartCache (10_state R29). -/
def smartSlots (ts : List Tcm) : List Slot := ts.flatMap fun t => if t.smartCache then t.slots else []

/-- Every slot of a side in which `Holding` looks: the cache proper, then the SmartCache TCMs (10_state R29). -/
def sideSlots (s : State) (side : Side) : List Slot := cacheOf s side ++ smartSlots (tcmsOf s side)

/-- `Holding(c, mva)` for the block of `mva` (00_scope R7). -/
def holding (s : State) (side : Side) (b : Block) : List Slot := (sideSlots s side).filter (Slot.holds b)

/-- A TCM with every slot changed, if it operates as SmartCache. -/
def Tcm.mapSlots (f : Slot → Slot) (t : Tcm) : Tcm := if t.smartCache then { t with slots := t.slots.map f } else t

/-- Every slot in which `Holding` looks, changed. -/
def mapSide (f : Slot → Slot) (s : State) (side : Side) : State :=
  setTcms (setCache s side ((cacheOf s side).map f)) side ((tcmsOf s side).map (Tcm.mapSlots f))

/-! ## One action on the slots an MVA finds, on one slot, on a whole cache -/

/-- Every slot that holds a block, changed. -/
def changeHeld (f : Slot → Slot) (side : Side) (b : Block) (s : State) : State :=
  mapSide (fun sl => if sl.holds b then f sl else sl) s side

/-- `for slot in Holding(c, mva): op(slot)`: the slots (42_single_line R170 (b), 43_range R197). -/
def treatHeld (op : LineOp) (side : Side) (b : Block) (s : State) : State := changeHeld op.slot side b s

/-- `for slot in Holding(c, mva): op(slot)`: what goes to memory, slot after slot in the order of `sideSlots`. `Holding` is a
set and the spec gives no order: that of several dirty slots of one line the last one's data is left in memory is the
model's choice (91 N46; log entry 51). -/
def heldWrites (op : LineOp) (side : Side) (b : Block) (s : State) : List (Word × Byte) :=
  (holding s side b).flatMap op.writes

/-- A blocking operation's action on one block: slots and memory at once (20_memory R76). The write of a cleaned line always
succeeds and raises nothing: that no external abort answers it is the model's choice (43_range R197, 91 N31; log entry 54). -/
def treatBlock (op : LineOp) (side : Side) (s : State) (b : Block) : State :=
  commit (treatHeld op side b s) (heldWrites op side b s)

/-- A TCM with one slot changed, if it operates as SmartCache. -/
def Tcm.modifySlot (n : Nat) (f : Slot → Slot) (t : Tcm) : Tcm :=
  if t.smartCache then { t with slots := t.slots.modify n f } else t

/-- The slot a reference names; a TCM has slots only while it operates as SmartCache (10_state R29). -/
def getSlot (s : State) (side : Side) : SlotRef → Option Slot
  | .cache i => (cacheOf s side)[i]?
  | .tcm k n => ((tcmsOf s side)[k]?).bind fun t => if t.smartCache then t.slots[n]? else none

/-- The slot a reference names, changed. -/
def updateSlot (s : State) (side : Side) (r : SlotRef) (f : Slot → Slot) : State :=
  match r with
  | .cache i => setCache s side ((cacheOf s side).modify i f)
  | .tcm k n => setTcms s side ((tcmsOf s side).modify k (Tcm.modifySlot n f))

/-- What an action on the named slot writes to memory. -/
def slotWrites (op : LineOp) (s : State) (side : Side) (r : SlotRef) : List (Word × Byte) :=
  match getSlot s side r with
  | some sl => op.writes sl
  | none => []

/-- InvalidateSlot over every slot of a cache proper (41_entire_cache R141, R142); TCMs are not touched (R140 (c)). -/
def invalidateAll (late : Bool) (s : State) (side : Side) : State :=
  setCache s side ((cacheOf s side).map (LineOp.effect late .invalidate))

/-- One step of the loop of 41_entire_cache R144, R145: the action on data cache slot number `i`. -/
def treatIndex (op : LineOp) (s : State) (i : Nat) : State :=
  commit (updateSlot s .data (.cache i) op.slot) (slotWrites op s .data (.cache i))

/-- What an invalidate of the whole data cache does to C: it is cleared when the operation runs to completion (10_state R22 (b)),
now or, the operation being under way, later (log entry 41). -/
def clearCdsr (late : Bool) (s : State) : State := { s with cdsrC := s.cdsrC && late, cdsrClearing := late }

/-- Such an operation that was under way has run to completion, if every slot's invalidation has: C is cleared. -/
def settleCdsr (s : State) : State :=
  if s.cdsrClearing && s.dc.all (fun sl => !sl.fading) then { s with cdsrC := false, cdsrClearing := false } else s

/-- The first `n` choices without repetition from a list, by free values: "in an order drawn by the hardware"
(41_entire_cache R144). -/
def shuffle : Nat → List Nat → Draws → List Nat
  | 0, _, _ => []
  | n + 1, l, d => l[d.head % l.length]?.getD 0 :: shuffle n (l.eraseIdx (d.head % l.length)) d.tail

/-- The free values left after `n` are taken. -/
def drawsAfter : Nat → Draws → Draws
  | 0, d => d
  | n + 1, d => drawsAfter n d.tail

/-- The order in which an entire clean visits the data cache slots (41_entire_cache R146: "a draw"). -/
def visitOrder (s : State) : List Nat := shuffle s.dc.length (List.range s.dc.length) s.draws

/-- The state once `visitOrder` is drawn. -/
def afterOrder (s : State) : State := { s with draws := drawsAfter s.dc.length s.draws }

/-! ## Branch target cache and prefetch buffer -/

/-- An entry whose flush is under way (70_reset R306; log entry 41). -/
def Branch.fade (x : Branch) : Branch := { x with fading := true }

/-- The entry is tied to an address of the 8 bytes at mva[31:3] : 0b000 (10_state R34, 30_encoding R102). -/
def Branch.near (mva : Word) (x : Branch) : Bool := x.addr.extractLsb' 3 29 == mva.extractLsb' 3 29

/-- `FlushBTAC()` (10_state R34), complete or under way. -/
def flushBtac (late : Bool) (s : State) : State := { s with btac := if late then s.btac.map Branch.fade else [] }

/-- `FlushBTACEntry(mva)`: every entry tied to an address of the 8 bytes at mva[31:3] : 0b000 (10_state R34). -/
def flushBtacEntry (late : Bool) (s : State) (mva : Word) : State :=
  { s with
    btac := if late then s.btac.map fun x => if x.near mva then x.fade else x else s.btac.filter fun x => !x.near mva }

/-- Every invalidation and flush that is under way is complete: what a Data Synchronization Barrier waits for (20_memory
R73, R76; 70_reset R306). -/
def settleAll (s : State) : State :=
  { s with
    ic := s.ic.map Slot.settled, tcmI := s.tcmI.map (Tcm.mapSlots Slot.settled), dc := s.dc.map Slot.settled
    tcmD := s.tcmD.map (Tcm.mapSlots Slot.settled), btac := s.btac.filter fun x => !x.fading
    cdsrC := s.cdsrC && !s.cdsrClearing, cdsrClearing := false }

/-- `FlushPFB()` (10_state R35). -/
def flushPfb (s : State) : State := { s with pfb := [] }

/-! ## Filling and evicting -/

/-- Whether the cache of a side is enabled: bit I or bit C of the c1 Control Register (10_state R41; log entry 25). -/
def cacheEnabled (s : State) : Side → Bool
  | .instr => s.ctrl.i
  | .data => s.ctrl.c

/-- The place of a physical address among the bytes of a TCM that does not operate as SmartCache (10_state R35; log entry
52). -/
def Tcm.place (t : Tcm) (a : Word) : Option Nat :=
  if t.smartCache = false ∧ t.base.toNat ≤ a.toNat ∧ a.toNat - t.base.toNat < t.bytes.length then some (a.toNat - t.base.toNat)
  else none

/-- The byte such a TCM holds at a physical address. -/
def Tcm.byteAt (a : Word) (t : Tcm) : Option Byte := (t.place a).bind fun n => t.bytes[n]?

/-- The TCM after a byte is stored at a physical address. -/
def Tcm.put (a : Word) (b : Byte) (t : Tcm) : Tcm :=
  match t.place a with
  | some n => { t with bytes := t.bytes.set n b }
  | none => t

/-- Whether a physical address is that of a byte of a TCM, of either side (log entry 52). -/
def inTcm (s : State) (a : Word) : Bool := (s.tcmD ++ s.tcmI).any fun t => (t.place a).isSome

/-- The slot stands for a physical block: a store or a fill may not pass it by (20_memory R71 (a)). -/
def Slot.caches (b pb : Block) (sl : Slot) : Bool := sl.valid && (sl.block == b || sl.addr == pb)

/-- Whether a fill finds nothing to do (log entries 39, 52): the block is in a TCM, which memory stands behind; or, on the
data side, some slot already has it, and a second copy from memory would be without the stores the first one took (20_memory
R71 (a)). -/
def fillBarred (s : State) (side : Side) (b pb : Block) : Bool :=
  (List.range 32).any (fun k => inTcm s (byteOfBlock pb k)) || side == .data && (sideSlots s .data).any (Slot.caches b pb)

/-- The access a side makes. -/
def sideAccess : Side → Access
  | .instr => .fetch
  | .data => .data

/-- The slots a fill of a physical block may choose: any of the cache proper, and those of a SmartCache TCM whose region
covers the block (10_state R32; log entry 39). -/
def fillChoices (s : State) (side : Side) (pb : Block) : List SlotRef :=
  (List.range (cacheOf s side).length).map .cache
    ++ (List.range (tcmsOf s side).length).flatMap fun k =>
      match (tcmsOf s side)[k]? with
      | some t =>
        if t.smartCache ∧ t.base.toNat ≤ (blockBase pb).toNat ∧ (blockBase pb).toNat < t.base.toNat + t.size then
          (List.range t.slots.length).map (.tcm k)
        else []
      | none => []

/-- Clean, then invalidate, the named slot (10_state R33). -/
def evictSlot (s : State) (side : Side) (r : SlotRef) : State :=
  writeOut (updateSlot s side r Slot.invalidated) (slotWrites .clean s side r)

/-- The named slot takes a line from memory, clean (10_state R32). A data side fill sees every earlier store: the pending
bytes of the block are complete first (20_memory R71 (a)). -/
def loadSlot (s : State) (side : Side) (r : SlotRef) (mva : Word) (pb : Block) : State :=
  let s1 := if side = .data then settleBlock s pb else s
  updateSlot s1 side r fun _ =>
    { valid := true, dirty := false, fading := false, addr := pb, block := lineOf mva, data := s1.mem.readLine pb }

/-- `FillSlot(c, mva)` (10_state R32): nothing if translation faults, the memory is not cacheable, the cache is disabled or
the fill is barred; else a free value chooses a slot, or nothing. -/
def fillSlot (s : State) (side : Side) (mva : Word) : State :=
  if cacheEnabled s side then
    match translate s mva (sideAccess side) with
    | .faults _ => s
    | .mapped _ false => s
    | .mapped pb true =>
      if fillBarred s side (lineOf mva) pb then s
      else match (fillChoices s side pb)[s.draws.head % ((fillChoices s side pb).length + 1)]? with
      | none => afterDraw s
      | some r => loadSlot (evictSlot (afterDraw s) side r) side r mva pb
  else s

end Sys2Proof.Machine
end

