-- ==== Sys2Proof/Machine/Interrupts.lean ====
section
/-! DEFINITION. The asynchronous events (60_exceptions R263 to R269): which are enabled, the interrupt points inside the
six interruptible operations (R267), and the taking of an event between two instructions. -/

namespace Sys2Proof.Machine

open Sys2Proof.Config

/-- The four events of 60_exceptions section 2. -/
inductive Event where
  | irq
  | fiq
  | impreciseAbort
  | debugRequest
deriving DecidableEq, Repr

/-- IRQ and FIQ asserted and not masked (60_exceptions R263, R264). -/
def enabledInterrupts (s : State) : List Event :=
  (if s.inputs.irq && !psrI s.cpsr then [.irq] else []) ++ (if s.inputs.fiq && !psrF s.cpsr then [.fiq] else [])

/-- All events that can be taken between two instructions: IRQ, FIQ, an unmasked imprecise abort (60_exceptions R265), a
debug request (R266: it has no mask). Debug state changes none of this: the model's choice (log entry 34). -/
def enabledEvents (s : State) : List Event :=
  enabledInterrupts s ++ (if s.inputs.impreciseAbort && !psrA s.cpsr then [.impreciseAbort] else [])
    ++ (if s.inputs.debugRequest then [.debugRequest] else [])

/-- Any of the four inputs asserted: what wakes a Wait For Interrupt (47_wait_for_interrupt R241). -/
def Inputs.anyAsserted (i : Inputs) : Bool := i.irq || i.fiq || i.impreciseAbort || i.debugRequest

/-- IRQ or FIQ entry with a return link (60_exceptions R263, R264, R270). -/
def takeInterrupt (e : Event) (link : Word) (s : State) : State :=
  match e with
  | .irq => takeException .irq link s
  | .fiq => takeException .fiq link s
  | .impreciseAbort | .debugRequest => s

/-- The levels the environment presents at an interrupt point (10_state R52: sampled "during a blocking or standby
instruction"; log entry 11). -/
def samplePoint (s : State) : State :=
  match s.points with
  | [] => s
  | i :: rest => { s with inputs := i, points := rest }

/-- The interrupt taken at an interrupt point, if one is enabled and the hardware takes it there (60_exceptions R267: it
"may"), after the inputs are sampled. -/
def pointChoice (s : State) : Option Event :=
  match enabledInterrupts s with
  | [] => none
  | e :: es => (e :: es)[s.draws.head % ((e :: es).length + 1)]?

/-- The state after that choice: a free value is used up if an interrupt was enabled. -/
def afterPoint (s : State) : State :=
  match enabledInterrupts s with
  | [] => s
  | _ :: _ => afterDraw s

/-- How a walk along interrupt points, one before each of a number of items, ended. -/
structure Walk where
  treated : Nat            -- how many items were passed
  taken   : Option Event   -- the interrupt taken before the next one
  after   : State          -- inputs, points and draws used up; nothing else is changed
deriving DecidableEq, Repr

/-- No interrupt is enabled and the environment presents no new levels: no interrupt point can be used. -/
def quiet (s : State) : Bool := s.points.isEmpty && (enabledInterrupts s).isEmpty

/-- The interrupt points of an entire clean: one before each slot of a list (41_entire_cache R144). The walk comes before
the slots are treated because nothing it reads depends on them (log entry 40). -/
def walkPoints : List Slot → State → Walk
  | [], s => { treated := 0, taken := none, after := s }
  | _ :: rest, s =>
    if quiet s then { treated := rest.length + 1, taken := none, after := s }
    else
      match pointChoice (samplePoint s) with
      | some e => { treated := 0, taken := some e, after := afterPoint (samplePoint s) }
      | none =>
        { walkPoints rest (afterPoint (samplePoint s)) with
          treated := (walkPoints rest (afterPoint (samplePoint s))).treated + 1 }

/-- One of several enabled events: a free value decides (60_exceptions R269, decision D17); one alone is taken. -/
def chooseEvent (s : State) : List Event → Option Event
  | [] => none
  | [e] => some e
  | e :: es => (e :: es)[s.draws.head % (e :: es).length]?

/-- The state after `chooseEvent`. -/
def afterChoice (s : State) : List Event → State
  | [] | [_] => s
  | _ :: _ :: _ => afterDraw s

/-- An event is taken between two instructions, the next being at B = pc: the link of an interrupt is B + 4
(60_exceptions R268); a debug request leaves the spec (R266). -/
def takeEvent (e : Event) (s : State) : Host.Outcome State Fault Refusal :=
  match e with
  | .irq => .next (takeException .irq (s.pc + 4) s)
  | .fiq => .next (takeException .fiq (s.pc + 4) s)
  | .impreciseAbort => .next (takeImpreciseAbort s)
  | .debugRequest => .refused .debugLogic

end Sys2Proof.Machine
end

