-- ==== Sys2Proof/Machine/Access.lean ====
section
/-! DEFINITION. The checks every c7 access passes, in the order of 40_access R120: condition, mode, operand; and the
meanings of the encodings that select no function (R124 to R128). -/

namespace Sys2Proof.Machine

open Sys2Proof.Config

/-- What an instruction answers. -/
abbrev Result := Host.Outcome State Fault Refusal

/-- Steps (1), (3) and the first operand check of 40_access R120: a failed condition only advances the pc (30_encoding
R93); a failed mode check raises Undefined Instruction (40_access R129); register 15 is refused (30_encoding R95). -/
def c7Access (c : Cond) (userOk : Bool) (operands : List RegNo) (s : State) (body : Result) : Result :=
  if condHolds c s.cpsr then
    if privileged s || userOk then
      if operands.contains 15#4 then .refused .r15Operand else body
    else .next (raiseUndefined s)
  else .next (advance s)

/-- `require x[Rd] = 0` (30_encoding R97). -/
def requireSbz (rd : RegNo) (s : State) (body : Result) : Result :=
  if readReg s rd = 0#32 then body else .refused .nonzeroSbz

/-- The launch premise that no cache lockdown is in force (70_reset R296 (e)). -/
def requireUnlocked (s : State) (body : Result) : Result := if s.lockdown then .refused .cacheLockdown else body

/-- The launch premise `aux_RA = 0` for the Clean Entire Data Cache operations (70_reset R296 (a); log entry 24). -/
def requireRa (s : State) (body : Result) : Result := if s.aux.ra then .refused .auxDisabled else body

/-- The launch premise `aux_RV = 0` for the block transfer operations (70_reset R296 (a); log entry 24). -/
def requireRv (s : State) (body : Result) : Result := if s.aux.rv then .refused .auxDisabled else body

/-- `require translate(mva, access) succeeds` (42_single_line R171). -/
def requireTranslates (mva : Word) (acc : Access) (s : State) (body : Result) : Result :=
  if translates s mva acc then body else .refused .lineTranslation

/-- A unified-cache operation: nothing in a privileged mode, Undefined Instruction in User mode (40_access R126 to R128). -/
def unifiedNop (c : Cond) (rd : RegNo) (s : State) : Result := c7Access c false [rd] s (.next (advance s))

/-- UNIFIED_NOP_C7_1 (40_access R126). -/
def execUnifiedNopC7k1 (c : Cond) (rd : RegNo) (s : State) : Result := unifiedNop c rd s
/-- UNIFIED_NOP_C7_2 (40_access R126). -/
def execUnifiedNopC7k2 (c : Cond) (rd : RegNo) (s : State) : Result := unifiedNop c rd s
/-- UNIFIED_NOP_C7_3 (40_access R126). -/
def execUnifiedNopC7k3 (c : Cond) (rd : RegNo) (s : State) : Result := unifiedNop c rd s
/-- UNIFIED_NOP_C7_4 (40_access R126). -/
def execUnifiedNopC7k4 (c : Cond) (rd : RegNo) (s : State) : Result := unifiedNop c rd s
/-- UNIFIED_NOP_C7_5 (40_access R126). -/
def execUnifiedNopC7k5 (c : Cond) (rd : RegNo) (s : State) : Result := unifiedNop c rd s
/-- UNIFIED_NOP_C7_6 (40_access R126). -/
def execUnifiedNopC7k6 (c : Cond) (rd : RegNo) (s : State) : Result := unifiedNop c rd s
/-- UNIFIED_NOP_C7_7 (40_access R126). -/
def execUnifiedNopC7k7 (c : Cond) (rd : RegNo) (s : State) : Result := unifiedNop c rd s
/-- UNIFIED_NOP_C11 (40_access R127). -/
def execUnifiedNopC11 (c : Cond) (rd : RegNo) (s : State) : Result := unifiedNop c rd s
/-- UNIFIED_NOP_C15 (40_access R128). -/
def execUnifiedNopC15 (c : Cond) (rd : RegNo) (s : State) : Result := unifiedNop c rd s

/-- An encoding that is Undefined in every mode, once its condition holds; the operands are not looked at. -/
def alwaysUndefined (c : Cond) (s : State) : Result :=
  if condHolds c s.cpsr then .next (raiseUndefined s) else .next (advance s)

/-- C7_OTHER_CPRT (40_access R124): Undefined Instruction in every mode. -/
def execC7OtherCprt (c : Cond) (s : State) : Result := alwaysUndefined c s

/-- CP15_OTHER_MCRR (40_access R125): ignored in every mode, or Undefined Instruction under the parameter's other value. -/
def execCp15OtherMcrr (c : Cond) (rd rn : RegNo) (s : State) : Result :=
  match s.cfg.mcrrOther with
  | .undefined => alwaysUndefined c s
  | .ignored => c7Access c true [rd, rn] s (.next (advance s))

end Sys2Proof.Machine
end

