-- ==== Sys2Proof/Machine/Range.lean ====
section
/-! DEFINITION. The operations on address ranges, MCRR (43_range R180 to R198): blocking transfers and the start of a
nonblocking Prefetch Range. The engine's own steps are in Machine/Agents.lean. -/

namespace Sys2Proof.Machine

open Sys2Proof.Config

/-- `Abandon()` (43_range R189). -/
def abandon (s : State) : State := { s with bt := none, btOldPids := [] }

/-- Start greater than End: no cache operation; whether a running Prefetch Range is abandoned is a free value (43_range
R187, U5). -/
def noRange (s : State) : State :=
  if s.bt = none then s else if s.draws.head % 2 = 0 then abandon (afterDraw s) else afterDraw s

/-- How a blocking range operation ended. -/
inductive RangeEnd where
  | completed
  | interrupted (e : Event)
  | aborted (f : TransFault)
deriving DecidableEq, Repr

/-- The control of the loop of 43_range R197: blocks passed, how it ended, the state with inputs, points and draws used
up. -/
structure RangeWalk where
  treated : Nat
  ended   : RangeEnd
  after   : State
deriving DecidableEq, Repr

/-- The interrupt point and the translation before each block (43_range R197, R198). Nothing here depends on what the
loop does to the caches (log entry 40). User mode is checked as a privileged mode is, by translation alone: that no
permission is checked is the model's choice (20_memory R70 (e), 91 N31; log entry 13). -/
def walkRange (acc : Access) : List Block → State → RangeWalk
  | [], s => { treated := 0, ended := .completed, after := s }
  | b :: bs, s =>
    let s1 := samplePoint s
    match pointChoice s1 with
    | some e => { treated := 0, ended := .interrupted e, after := afterPoint s1 }
    | none =>
      let mva := fcse s (blockBase b)
      match translate s mva acc with
      | .faults r => { treated := 0, ended := .aborted { va := blockBase b, mva := mva, access := acc, reason := r }, after := afterPoint s1 }
      | .mapped _ _ =>
        let w := walkRange acc bs (afterPoint s1)
        { w with treated := w.treated + 1 }

/-- The per-block work of the loop: op on every slot in Holding(c, fcse(b : 0)) (43_range R197). -/
def treatBlocks (op : LineOp) (side : Side) (bs : List Block) (s : State) : State :=
  bs.foldl (fun s b => treatBlock op side s (lineOf (fcse s (blockBase b)))) s

/-- Blocking execution over a list of blocks (43_range R197, R198; 60_exceptions R262, R267). -/
def blockingRun (op : LineOp) (side : Side) (acc : Access) (bs : List Block) (s : State) : Result :=
  let w := walkRange acc bs s
  let s1 := treatBlocks op side (bs.take w.treated) w.after
  match w.ended with
  | .completed => .next (advance s1)
  | .interrupted e => .next (takeInterrupt e (s.pc + 4) s1)
  | .aborted f => .next (raiseDataAbort f s1)

/-- A blocking range operation (43_range R186 to R189, R197). -/
def blockingRange (op : LineOp) (side : Side) (acc : Access) (userOk : Bool) (c : Cond) (rd rn : RegNo) (s : State) : Result :=
  c7Access c userOk [rd, rn] s <| requireUnlocked s <| requireRv s <|
    if startAboveEnd s (readReg s rn) (readReg s rd) then
      .next (advance (noRange (afterCompare s (readReg s rn) (readReg s rd))))
    else
      blockingRun op side acc (rangeBlocks (readReg s rn) (readReg s rd))
        (abandon (afterCompare s (readReg s rn) (readReg s rd)))

/-- The start of a Prefetch Range (43_range R190). -/
def prefetchRange (side : Side) (c : Cond) (rd rn : RegNo) (s : State) : Result :=
  c7Access c true [rd, rn] s <| requireUnlocked s <| requireRv s <|
    if startAboveEnd s (readReg s rn) (readReg s rd) then
      .next (advance (noRange (afterCompare s (readReg s rn) (readReg s rd))))
    else
      .next (advance
        { abandon (afterCompare s (readReg s rn) (readReg s rd)) with
          bt := some { side := side, cur := lineOf (readReg s rn), last := lineOf (readReg s rd) } })

/-- INV_ICACHE_RANGE (43_range R180). -/
def execInvIcacheRange (c : Cond) (rd rn : RegNo) (s : State) : Result := blockingRange .invalidate .instr .fetch false c rd rn s

/-- INV_DCACHE_RANGE (43_range R181). -/
def execInvDcacheRange (c : Cond) (rd rn : RegNo) (s : State) : Result := blockingRange .invalidate .data .data false c rd rn s

/-- CLEAN_DCACHE_RANGE (43_range R182): User and privileged. -/
def execCleanDcacheRange (c : Cond) (rd rn : RegNo) (s : State) : Result := blockingRange .clean .data .data true c rd rn s

/-- CLEANINV_DCACHE_RANGE (43_range R183). -/
def execCleaninvDcacheRange (c : Cond) (rd rn : RegNo) (s : State) : Result :=
  blockingRange .cleanInvalidate .data .data false c rd rn s

/-- PREFETCH_ICACHE_RANGE (43_range R184): User and privileged. -/
def execPrefetchIcacheRange (c : Cond) (rd rn : RegNo) (s : State) : Result := prefetchRange .instr c rd rn s

/-- PREFETCH_DCACHE_RANGE (43_range R185): User and privileged. -/
def execPrefetchDcacheRange (c : Cond) (rd rn : RegNo) (s : State) : Result := prefetchRange .data c rd rn s

end Sys2Proof.Machine
end

