-- ==== Sys2Proof/Machine/Agents.lean ====
section
/-! DEFINITION. The agents beside the core (00_scope R9): the block transfer engine (43_range R192 to R195), the cache
hardware (10_state R33 to R35, R38), the environment, and the software outside the instruction set in scope. -/

namespace Sys2Proof.Machine

open Sys2Proof.Config

/-- The FCSE PID an engine step sees: the current one, or one it replaced while the transfer was running; a free value if
there is more than one (43_range R195, U7). -/
def enginePid (s : State) : Word :=
  match s.btOldPids with
  | [] => s.fcsePid
  | p :: ps => (s.fcsePid :: p :: ps)[s.draws.head % (ps.length + 2)]?.getD s.fcsePid

/-- The state after `enginePid`. -/
def afterEnginePid (s : State) : State := if s.btOldPids = [] then s else afterDraw s

/-- A step of the block transfer engine (43_range R192, R193, R194). It reads neither bit RV nor the lockdown: a transfer
that was running when RV was set goes on, the model's choice (70_reset R296 (a) is silent on it; log entry 24). -/
def engineStep (memFault : Bool) (s : State) : State :=
  match s.bt with
  | none => s
  | some t =>
    let mva := fcseWith s.cfg (enginePid s) (blockBase t.cur)
    let s1 := afterEnginePid s
    if memFault || !translates s1 mva (sideAccess t.side) then abandon s1
    else
      let s2 := fillSlot s1 t.side mva
      if t.cur = t.last then abandon s2 else { s2 with bt := some { t with cur := t.cur + 1 } }

/-- A slot takes a stored byte. -/
def Slot.put (off : Nat) (v : Byte) (sl : Slot) : Slot := { sl with dirty := true, data := sl.data.setIfInBounds off v }

/-- The slot takes a store at block `b` of MVAs, physical block `pb`: the store finds it by its MVA (00_scope R7), and a clean of
that MVA brings it to where instruction fetch reads (20_memory R79). A store to memory that is not cacheable rests in no slot
(20_memory R72; log entry 30). -/
def Slot.takes (b pb : Block) (cacheable : Bool) (sl : Slot) : Bool := cacheable && sl.holds b && sl.addr == pb

/-- What is left of a slot that has the block when a store comes to it (log entry 30): an invalidation under way is complete; a
slot in which the store may not rest is evicted; any other is as it was. -/
def Slot.beforeStore (b pb : Block) (cacheable : Bool) (sl : Slot) : Slot :=
  if sl.caches b pb then if sl.fading || !sl.takes b pb cacheable then sl.invalidated else sl else sl

/-- What those evictions write to memory (10_state R33). -/
def storeEvictions (b pb : Block) (cacheable : Bool) (s : State) : List (Word × Byte) :=
  ((sideSlots s .data).filter fun sl => sl.caches b pb && !sl.fading && !sl.takes b pb cacheable).flatMap Slot.writeBack

/-- The data side made ready for a store: what has the block and is left takes the store. -/
def makeRoom (b pb : Block) (cacheable : Bool) (s : State) : State :=
  writeOut (mapSide (Slot.beforeStore b pb cacheable) s .data) (storeEvictions b pb cacheable s)

/-- One byte of an ordinary store, at an MVA (10_state R22 (a), 20_memory R71, R72, R79; log entry 30). A byte of a TCM is stored
there, in every TCM that covers it, at once: it never waits in the write buffer, so that a later fetch sees it without a
barrier. When such a store takes effect the spec does not say (20_memory R78; 91 N4, N54): the model's choice (log entry 52).
Else, after `makeRoom`, a hit in the data cache proper makes the slot dirty and
sets C; a hit in a SmartCache TCM makes the slot dirty and sets C or not (a free value, N34); every slot left takes the byte (R71
(a)); a miss, and every store to memory that is not cacheable, goes to the write buffer. A store that does not translate is
outside the spec and does nothing here. -/
def storeByte (s : State) (w : Word × Byte) : State :=
  match translate s w.1 .data with
  | .faults _ => s
  | .mapped pb cacheable =>
    let off := (w.1.extractLsb' 0 5).toNat
    let takes := Slot.takes (lineOf w.1) pb cacheable
    let s1 := makeRoom (lineOf w.1) pb cacheable s
    let s2 := mapSide (fun sl => if takes sl then sl.put off w.2 else sl) s1 .data
    if inTcm s (byteOfBlock pb off) then
      { s with
        tcmD := s.tcmD.map (Tcm.put (byteOfBlock pb off) w.2), tcmI := s.tcmI.map (Tcm.put (byteOfBlock pb off) w.2) }
    else if s1.dc.any takes then { s2 with cdsrC := true, cdsrClearing := false }
    else if (smartSlots s1.tcmD).any takes then
      let sets := s1.draws.head % 2 == 0
      { afterDraw s2 with cdsrC := s.cdsrC || sets, cdsrClearing := s.cdsrClearing && !sets }
    else post s1 true [(byteOfBlock pb off, w.2)]

/-- Bytes paired with the addresses from `a` on. -/
def addressed (a : Word) (bs : List Byte) : List (Word × Byte) :=
  bs.mapIdx fun i b => (a + BitVec.ofNat 32 i, b)

/-- One byte of a physical block the way instruction fetch sees it (10_state R35): in an instruction side TCM that covers it,
else in the line found, else in memory; the write buffer and the data cache are not seen (20_memory R78; the order is log
entry 32). Where several such TCMs cover the byte, the one of the lowest number gives it: the model's choice (10_state R46, 91 N4
give no regions; log entry 52). -/
def fetchByte (s : State) (line : Option Slot) (pb : Block) (k : Nat) : Byte :=
  match s.tcmI.findSome? (Tcm.byteAt (byteOfBlock pb k)), line with
  | some b, _ => b
  | none, some sl => sl.data[k]?.getD 0
  | none, none => s.mem.read (byteOfBlock pb k)

/-- The instruction side line a fetch at an MVA finds: none if the cache is disabled or no slot holds the block, any one of
several. A line held is found whether or not the mapping is cacheable: the model's choice (log entry 32). -/
def fetchLine (s : State) (mva : Word) : Option Slot :=
  let held := if s.ctrl.i then holding s .instr (lineOf mva) else []
  held[s.draws.head % held.length]?

/-- The bytes at an address the way instruction fetch sees them, or the fault of its translation. -/
def fetchBytes (s : State) (va : Word) : Except TransFault (List Byte) :=
  let mva := fcse s va
  match translate s mva .fetch with
  | .faults r => .error { va := va, mva := mva, access := .fetch, reason := r }
  | .mapped pb _ => .ok ((List.range 4).map fun i => fetchByte s (fetchLine s mva) pb ((mva.extractLsb' 0 5).toNat + i))

/-- The state after `fetchBytes`: a free value is used up if it chose among several slots. -/
def afterFetch (s : State) (va : Word) : State :=
  if s.ctrl.i && 2 ≤ (holding s .instr (lineOf (fcse s va))).length then afterDraw s else s

/-- The instruction word four bytes make (parameter `big_endian`, 20_memory R65). -/
def wordOf (bigEndian : Bool) : List Byte → Word
  | [b0, b1, b2, b3] => wordOfBytes bigEndian b0 b1 b2 b3
  | _ => 0

/-- The instruction word at the pc (10_state R35): the word the prefetch buffer holds for it, which is then used up, or
the word in the memory system. -/
def fetchWord (s : State) : Except TransFault (Word × State) :=
  match s.pfb.find? (fun p => p.addr == s.pc) with
  | some p => .ok (p.word, { s with pfb := s.pfb.eraseP fun q => q.addr == s.pc })
  | none =>
    match fetchBytes s s.pc with
    | .error f => .error f
    | .ok bs => .ok (wordOf s.cfg.bigEndian bs, afterFetch s s.pc)

/-- The word at `va` is fetched ahead of execution (10_state R35); nothing happens if it does not translate or is not
aligned. The buffer always has room: that its depth has no bound is the model's choice (91 N47; log entry 31). -/
def prefetchAhead (s : State) (va : Word) : State :=
  if va.extractLsb' 0 2 = 0#2 then
    match fetchBytes s va with
    | .error _ => s
    | .ok bs => { afterFetch s va with pfb := s.pfb ++ [{ addr := va, word := wordOf s.cfg.bigEndian bs }] }
  else s

/-- The move of an agent other than the core, when it can make it. -/
def move : Action → State → State
  | .core, s => s
  | .engine memFault, s => engineStep memFault s
  | .fill side mva, s => fillSlot s side mva
  | .evict side r, s => evictSlot s side r
  | .clean r, s => writeOut (updateSlot s .data r Slot.cleaned) (slotWrites .clean s .data r)
  | .settle side r, s => updateSlot s side r Slot.settled
  | .settleCdsr, s => settleCdsr s
  | .drain k, s => drainByte s k
  | .prefetchWord va, s => prefetchAhead s va
  | .dropPrefetched k, s => { s with pfb := s.pfb.eraseIdx k }
  | .predict a, s => { s with btac := { addr := a, fading := false } :: s.btac }
  | .dropBranch k, s => { s with btac := s.btac.eraseIdx k }
  | .setInputs levels, s => { s with inputs := levels }
  | .store mva bytes, s => (addressed mva bytes).foldl storeByte s
  | .setFcsePid pid, s =>
    { s with fcsePid := pid, btOldPids := if s.bt.isSome then s.fcsePid :: s.btOldPids else s.btOldPids }
  | .setMapping m, s => { s with mmu := m :: s.mmu.filter fun x => !(x.block == m.block && x.access == m.access) }
  | .setControl ctrl aux, s => { s with ctrl := ctrl, aux := aux }
  | .setDebugState on, s => { s with debugState := on }

/-- The moves that stand for instructions of this core outside the instruction set in scope (log entry 10). -/
def Action.bySoftware : Action → Bool
  | .store .. | .setFcsePid .. | .setMapping .. | .setControl .. => true
  | .core | .engine .. | .fill .. | .evict .. | .clean .. | .settle .. | .settleCdsr | .drain .. | .prefetchWord ..
  | .dropPrefetched .. | .predict .. | .dropBranch .. | .setInputs .. | .setDebugState .. => false

/-- The step of an agent other than the core. In standby the core executes no instruction until the wake (10_state R37,
47_wait_for_interrupt R241), so a move that stands for one does nothing. -/
def act (a : Action) (s : State) : State := if s.standby && a.bySoftware then s else move a s

/-- The words of the exception returns 60_exceptions R271 names, with the constant they subtract from r14: SUBS PC,R14,#4
(0xE25EF004), SUBS PC,R14,#8 (0xE25EF008), MOVS PC,R14 (0xE1B0F00E; log entry 19). -/
def returnWord (w : Word) : Option Word :=
  if w = 0xE25EF004#32 then some 4
  else if w = 0xE25EF008#32 then some 8
  else if w = 0xE1B0F00E#32 then some 0
  else none

end Sys2Proof.Machine
end

