-- ==== Sys2Proof/Machine/EntireCache.lean ====
section
/-! DEFINITION. The operations on an entire cache (41_entire_cache R140 to R146). -/

namespace Sys2Proof.Machine

open Sys2Proof.Config

/-- INV_ICACHE_ALL: Invalidate Entire Instruction Cache; also flushes the branch target cache (41_entire_cache R141). The
effect is sure only after a Data Synchronization Barrier (70_reset R306). -/
def execInvIcacheAll (c : Cond) (rd : RegNo) (s : State) : Result :=
  c7Access c false [rd] s <| requireSbz rd s <| requireUnlocked s <|
    .next (advance (flushBtac (delayed s) (invalidateAll (delayed s) (afterDraw s) .instr)))

/-- INV_DCACHE_ALL: Invalidate Entire Data Cache; dirty data is discarded, C is cleared (41_entire_cache R142), both at the
latest after a Data Synchronization Barrier (70_reset R306). -/
def execInvDcacheAll (c : Cond) (rd : RegNo) (s : State) : Result :=
  c7Access c false [rd] s <| requireSbz rd s <| requireUnlocked s <|
    .next (advance (clearCdsr (delayed s) (invalidateAll (delayed s) (afterDraw s) .data)))

/-- INV_BOTH_ALL: Invalidate Both Caches (41_entire_cache R143): each cache's effect may be delayed by itself. -/
def execInvBothAll (c : Cond) (rd : RegNo) (s : State) : Result :=
  c7Access c false [rd] s <| requireSbz rd s <| requireUnlocked s <|
    .next (advance (clearCdsr (delayed (afterDraw s)) (invalidateAll (delayed (afterDraw s))
      (flushBtac (delayed s) (invalidateAll (delayed s) (afterDraw (afterDraw s)) .instr)) .data)))

/-- The slots treated by an entire clean, in the order drawn: the first `n` of it. -/
def treatEntire (op : LineOp) (order : List Nat) (s : State) : State := order.foldl (treatIndex op) s

/-- The loop of the two entire cleans (41_entire_cache R144, R145, R146): an interrupt point before each slot; an
interrupt leaves with r14 = A + 4, the slots treated so far staying treated and C unchanged; the end of the loop clears
C. -/
def cleanEntire (op : LineOp) (s : State) : Result :=
  let w := walkPoints s.dc s
  let s1 := treatEntire op ((visitOrder w.after).take w.treated) (afterOrder w.after)
  match w.taken with
  | some e => .next (takeInterrupt e (s.pc + 4) s1)
  | none => .next (advance { s1 with cdsrC := false })

/-- CLEAN_DCACHE_ALL: Clean Entire Data Cache (41_entire_cache R144). -/
def execCleanDcacheAll (c : Cond) (rd : RegNo) (s : State) : Result :=
  c7Access c false [rd] s <| requireSbz rd s <| requireUnlocked s <| requireRa s <| cleanEntire .clean s

/-- CLEANINV_DCACHE_ALL: Clean and Invalidate Entire Data Cache (41_entire_cache R145). -/
def execCleaninvDcacheAll (c : Cond) (rd : RegNo) (s : State) : Result :=
  c7Access c false [rd] s <| requireSbz rd s <| requireUnlocked s <| requireRa s <| cleanEntire .cleanInvalidate s

end Sys2Proof.Machine
end

