-- ==== Sys2Proof/Machine/Flush.lean ====
section
/-! DEFINITION. The flush operations, the barriers and Wait For Interrupt (45_flush_operations, 46_barriers,
47_wait_for_interrupt). -/

namespace Sys2Proof.Machine

/-- FLUSH_PREFETCH_BUFFER: User and privileged (45_flush_operations R220). It takes effect at once (20_memory R75). -/
def execFlushPrefetchBuffer (c : Cond) (rd : RegNo) (s : State) : Result :=
  c7Access c true [rd] s <| requireSbz rd s <| .next (advance (flushPfb s))

/-- FLUSH_BTC_ALL: privileged, and User in debug state (45_flush_operations R221, R222; 40_access R130). -/
def execFlushBtcAll (c : Cond) (rd : RegNo) (s : State) : Result :=
  c7Access c s.debugState [rd] s <| requireSbz rd s <| .next (advance (flushBtac (delayed s) (afterDraw s)))

/-- FLUSH_BTC_MVA: bits [2:0] ignored, no translation (45_flush_operations R223). -/
def execFlushBtcMva (c : Cond) (rd : RegNo) (s : State) : Result :=
  c7Access c false [rd] s (.next (advance (flushBtacEntry (delayed s) (afterDraw s) (readReg s rd))))

/-- DSB: every outstanding transaction and cleaned line is complete, and every invalidation and flush has taken full effect;
nothing later has started (46_barriers R230, 70_reset R306). The block transfer engine is not waited for. -/
def execDsb (c : Cond) (rd : RegNo) (s : State) : Result :=
  c7Access c true [rd] s <| requireSbz rd s <| .next (advance (completeOutstanding (settleAll s)))

/-- DMB: every explicit transaction is complete (46_barriers R231, 20_memory R74). -/
def execDmb (c : Cond) (rd : RegNo) (s : State) : Result :=
  c7Access c true [rd] s <| requireSbz rd s <| .next (advance (completeExplicit s))

/-- WFI: standby is entered; the pc stays at the MCR until the wake step (47_wait_for_interrupt R240, R241). -/
def execWfi (c : Cond) (rd : RegNo) (s : State) : Result :=
  c7Access c false [rd] s <| requireSbz rd s <| .next { s with standby := true }

/-- The wake step: the MCR completes (47_wait_for_interrupt R241). -/
def wake (s : State) : State := advance { s with standby := false }

end Sys2Proof.Machine
end

