-- ==== Sys2Proof/Machine/SingleLine.lean ====
section
/-! DEFINITION. The operations on single cache lines (42_single_line R160 to R172). -/

namespace Sys2Proof.Machine

open Sys2Proof.Config

/-- An action on the slots that hold the MVA in Rd, bits [4:0] ignored, no FCSE modification (42_single_line R170 (b),
R171). An invalidation may be under way when the instruction is complete (70_reset R306). -/
def lineByMva (op : LineOp) (side : Side) (c : Cond) (rd : RegNo) (s : State) : Result :=
  c7Access c false [rd] s <| requireUnlocked s <|
    requireTranslates (readReg s rd) (sideAccess side) s <|
      .next (advance (writeOut (changeHeld (op.effect (delayed s)) side (lineOf (readReg s rd)) (afterDraw s))
        (heldWrites op side (lineOf (readReg s rd)) s)))

/-- An action on the slot that the Set/Way value in Rd names (42_single_line R170 (c), R172). -/
def lineBySetWay (op : LineOp) (side : Side) (c : Cond) (rd : RegNo) (s : State) : Result :=
  c7Access c false [rd] s <| requireUnlocked s <|
    match slotOf s side (readReg s rd) with
    | .error e => .refused e
    | .ok r => .next (advance (writeOut (updateSlot (afterDraw s) side r (op.effect (delayed s))) (slotWrites op s side r)))

/-- INV_ICACHE_MVA (42_single_line R160). -/
def execInvIcacheMva (c : Cond) (rd : RegNo) (s : State) : Result := lineByMva .invalidate .instr c rd s

/-- INV_ICACHE_SW (42_single_line R161). -/
def execInvIcacheSw (c : Cond) (rd : RegNo) (s : State) : Result := lineBySetWay .invalidate .instr c rd s

/-- INV_DCACHE_MVA (42_single_line R162). -/
def execInvDcacheMva (c : Cond) (rd : RegNo) (s : State) : Result := lineByMva .invalidate .data c rd s

/-- INV_DCACHE_SW (42_single_line R163). -/
def execInvDcacheSw (c : Cond) (rd : RegNo) (s : State) : Result := lineBySetWay .invalidate .data c rd s

/-- CLEAN_DCACHE_MVA (42_single_line R164). -/
def execCleanDcacheMva (c : Cond) (rd : RegNo) (s : State) : Result := lineByMva .clean .data c rd s

/-- CLEAN_DCACHE_SW (42_single_line R165). -/
def execCleanDcacheSw (c : Cond) (rd : RegNo) (s : State) : Result := lineBySetWay .clean .data c rd s

/-- PREFETCH_ICACHE_MVA: Prefetch Instruction Cache Line (42_single_line R166). -/
def execPrefetchIcacheMva (c : Cond) (rd : RegNo) (s : State) : Result :=
  c7Access c false [rd] s <| requireUnlocked s <|
    requireTranslates (readReg s rd) .fetch s <|
      .next (advance (if holding s .instr (lineOf (readReg s rd)) = [] then fillSlot s .instr (readReg s rd) else s))

/-- CLEANINV_DCACHE_MVA (42_single_line R167). -/
def execCleaninvDcacheMva (c : Cond) (rd : RegNo) (s : State) : Result := lineByMva .cleanInvalidate .data c rd s

/-- CLEANINV_DCACHE_SW (42_single_line R168). -/
def execCleaninvDcacheSw (c : Cond) (rd : RegNo) (s : State) : Result := lineBySetWay .cleanInvalidate .data c rd s

end Sys2Proof.Machine
end

