-- ==== Sys2Proof/Machine/Status.lean ====
section
/-! DEFINITION. Reading the two status registers, and stopping a Prefetch Range (44_cache_dirty_status,
48_block_transfer_control). -/

namespace Sys2Proof.Machine

/-- A status register as it reads: bits [31:1] zero, bit [0] the status bit (30_encoding R104). -/
def statusWord (b : Bool) : Word := if b then 1#32 else 0#32

/-- Block Transfer Status Register bit R: a Prefetch Range is in progress (10_state R24). -/
def btsrR (s : State) : Bool := s.bt.isSome

/-- READ_CDSR: privileged only, no side effect (44_cache_dirty_status R210). -/
def execReadCdsr (c : Cond) (rd : RegNo) (s : State) : Result :=
  c7Access c false [rd] s (.next (advance (writeReg s rd (statusWord s.cdsrC))))

/-- READ_BTSR: User and privileged, no side effect (48_block_transfer_control R250). -/
def execReadBtsr (c : Cond) (rd : RegNo) (s : State) : Result :=
  c7Access c true [rd] s (.next (advance (writeReg s rd (statusWord (btsrR s)))))

/-- STOP_PREFETCH_RANGE: User and privileged (48_block_transfer_control R251). -/
def execStopPrefetchRange (c : Cond) (rd : RegNo) (s : State) : Result :=
  c7Access c true [rd] s <| requireSbz rd s <| .next (advance { s with bt := none, btOldPids := [] })

end Sys2Proof.Machine
end

