-- ==== Sys2Proof/Machine/Dispatch.lean ====
section
/-! DEFINITION. The meaning of every instruction: one arm per constructor, in the order of spec/opcode_table.json. -/

namespace Sys2Proof.Machine

def exec (i : Instr) (s : State) : Host.Outcome State Fault Refusal :=
  match i with
  | .wfi c rd => Sys2Proof.Machine.execWfi c rd s
  | .invIcacheAll c rd => Sys2Proof.Machine.execInvIcacheAll c rd s
  | .invIcacheMva c rd => Sys2Proof.Machine.execInvIcacheMva c rd s
  | .invIcacheSw c rd => Sys2Proof.Machine.execInvIcacheSw c rd s
  | .flushPrefetchBuffer c rd => Sys2Proof.Machine.execFlushPrefetchBuffer c rd s
  | .flushBtcAll c rd => Sys2Proof.Machine.execFlushBtcAll c rd s
  | .flushBtcMva c rd => Sys2Proof.Machine.execFlushBtcMva c rd s
  | .invDcacheAll c rd => Sys2Proof.Machine.execInvDcacheAll c rd s
  | .invDcacheMva c rd => Sys2Proof.Machine.execInvDcacheMva c rd s
  | .invDcacheSw c rd => Sys2Proof.Machine.execInvDcacheSw c rd s
  | .invBothAll c rd => Sys2Proof.Machine.execInvBothAll c rd s
  | .cleanDcacheAll c rd => Sys2Proof.Machine.execCleanDcacheAll c rd s
  | .cleanDcacheMva c rd => Sys2Proof.Machine.execCleanDcacheMva c rd s
  | .cleanDcacheSw c rd => Sys2Proof.Machine.execCleanDcacheSw c rd s
  | .dsb c rd => Sys2Proof.Machine.execDsb c rd s
  | .dmb c rd => Sys2Proof.Machine.execDmb c rd s
  | .readCdsr c rd => Sys2Proof.Machine.execReadCdsr c rd s
  | .readBtsr c rd => Sys2Proof.Machine.execReadBtsr c rd s
  | .stopPrefetchRange c rd => Sys2Proof.Machine.execStopPrefetchRange c rd s
  | .prefetchIcacheMva c rd => Sys2Proof.Machine.execPrefetchIcacheMva c rd s
  | .cleaninvDcacheAll c rd => Sys2Proof.Machine.execCleaninvDcacheAll c rd s
  | .cleaninvDcacheMva c rd => Sys2Proof.Machine.execCleaninvDcacheMva c rd s
  | .cleaninvDcacheSw c rd => Sys2Proof.Machine.execCleaninvDcacheSw c rd s
  | .invIcacheRange c rd rn => Sys2Proof.Machine.execInvIcacheRange c rd rn s
  | .invDcacheRange c rd rn => Sys2Proof.Machine.execInvDcacheRange c rd rn s
  | .cleanDcacheRange c rd rn => Sys2Proof.Machine.execCleanDcacheRange c rd rn s
  | .cleaninvDcacheRange c rd rn => Sys2Proof.Machine.execCleaninvDcacheRange c rd rn s
  | .prefetchIcacheRange c rd rn => Sys2Proof.Machine.execPrefetchIcacheRange c rd rn s
  | .prefetchDcacheRange c rd rn => Sys2Proof.Machine.execPrefetchDcacheRange c rd rn s
  | .unifiedNopC7k1 c rd => Sys2Proof.Machine.execUnifiedNopC7k1 c rd s
  | .unifiedNopC7k2 c rd => Sys2Proof.Machine.execUnifiedNopC7k2 c rd s
  | .unifiedNopC7k3 c rd => Sys2Proof.Machine.execUnifiedNopC7k3 c rd s
  | .unifiedNopC7k4 c rd => Sys2Proof.Machine.execUnifiedNopC7k4 c rd s
  | .unifiedNopC7k5 c rd => Sys2Proof.Machine.execUnifiedNopC7k5 c rd s
  | .unifiedNopC7k6 c rd => Sys2Proof.Machine.execUnifiedNopC7k6 c rd s
  | .unifiedNopC7k7 c rd => Sys2Proof.Machine.execUnifiedNopC7k7 c rd s
  | .unifiedNopC11 c rd _ => Sys2Proof.Machine.execUnifiedNopC11 c rd s
  | .unifiedNopC15 c rd _ => Sys2Proof.Machine.execUnifiedNopC15 c rd s
  | .c7OtherCprt c _ _ _ _ _ => Sys2Proof.Machine.execC7OtherCprt c s
  | .cp15OtherMcrr c rd rn _ _ => Sys2Proof.Machine.execCp15OtherMcrr c rd rn s

end Sys2Proof.Machine
end

