-- ==== Sys2Proof/Machine/Step.lean ====
section
/-! DEFINITION. One step of the machine: the agenda says which agent moves (log entry 10); the core, when it moves, wakes
or waits in standby, takes an enabled event, or fetches and executes one instruction. -/

namespace Sys2Proof.Machine

/-- The instruction at the pc is fetched and executed (40_access R120; 10_state R49; 70_reset R296 (c)). -/
def runInstruction (s : State) : Host.Outcome State Fault Refusal :=
  if psrT s.cpsr || psrJ s.cpsr then .refused .notArmState
  else if s.pc.extractLsb' 0 2 ≠ 0#2 then .refused .unalignedPc
  else
    match fetchWord s with
    | .error _ => .fault .fetchTranslation
    | .ok (w, s1) =>
      match decode w with
      | .ok i => exec i s1
      | .error .unconditional => .refused .unconditional
      | .error .mrrc => .refused .mrrc
      | .error .notC7 =>
        match returnWord w with
        | some k => exceptionReturn k s1
        | none => .refused .outsideSpec

/-- The core's step: in standby it wakes when an input is asserted and else waits (47_wait_for_interrupt R241, 60_exceptions
R282 (c)); else an enabled event is taken before the next instruction (60_exceptions R263 to R269). The step does not read the debug
state: that in debug state the core fetches, executes and takes events as outside it is the model's choice (45_flush R222 and
91 N12 leave it open; log entry 34). -/
def coreStep (s : State) : Host.Outcome State Fault Refusal :=
  if s.standby then .next (if s.inputs.anyAsserted then wake s else s)
  else
    match chooseEvent s (enabledEvents s) with
    | some e => takeEvent e (afterChoice s (enabledEvents s))
    | none => runInstruction s

/-- One step: the agent at the head of the agenda, or the core (00_scope R9). -/
def step (s : State) : Host.Outcome State Fault Refusal :=
  match s.agenda with
  | [] => coreStep s
  | .core :: rest => coreStep { s with agenda := rest }
  | a :: rest => .next (act a { s with agenda := rest })

/-- The state with an instruction word where the next fetch takes it from: at the head of the prefetch buffer, for the
pc (10_state R35: "executing that address uses the held word"). It stands for loading a program (log entry 42). -/
def State.withFetchWord (s : State) (nbits w : Nat) : State :=
  { s with pfb := { addr := s.pc, word := BitVec.ofNat 32 (w % 2 ^ nbits) } :: s.pfb }

end Sys2Proof.Machine
end

