-- ==== Sys2Proof/Safety.lean ====
section
/-! DEFINITION. The terms the statements use: what the checks of 40_access R120 ask of an instruction, the launch premise
of 70_reset R296, the invariants of the machine, and what a safe run is. -/

namespace Sys2Proof.Machine

open Sys2Proof.Config

/-- The condition of an instruction. -/
def Instr.cond : Instr → Cond
  | .wfi c _ | .invIcacheAll c _ | .invIcacheMva c _ | .invIcacheSw c _ | .flushPrefetchBuffer c _ | .flushBtcAll c _
  | .flushBtcMva c _ | .invDcacheAll c _ | .invDcacheMva c _ | .invDcacheSw c _ | .invBothAll c _ | .cleanDcacheAll c _
  | .cleanDcacheMva c _ | .cleanDcacheSw c _ | .dsb c _ | .dmb c _ | .readCdsr c _ | .readBtsr c _
  | .stopPrefetchRange c _ | .prefetchIcacheMva c _ | .cleaninvDcacheAll c _ | .cleaninvDcacheMva c _
  | .cleaninvDcacheSw c _ | .invIcacheRange c _ _ | .invDcacheRange c _ _ | .cleanDcacheRange c _ _
  | .cleaninvDcacheRange c _ _ | .prefetchIcacheRange c _ _ | .prefetchDcacheRange c _ _ | .unifiedNopC7k1 c _
  | .unifiedNopC7k2 c _ | .unifiedNopC7k3 c _ | .unifiedNopC7k4 c _ | .unifiedNopC7k5 c _ | .unifiedNopC7k6 c _
  | .unifiedNopC7k7 c _ | .unifiedNopC11 c _ _ | .unifiedNopC15 c _ _ | .c7OtherCprt c _ _ _ _ _
  | .cp15OtherMcrr c _ _ _ _ => c

/-- The register fields whose value 15 is refused once the mode check has passed (30_encoding R95). The encodings that
are always Undefined never get that far. -/
def Instr.operands : Instr → List RegNo
  | .wfi _ r | .invIcacheAll _ r | .invIcacheMva _ r | .invIcacheSw _ r | .flushPrefetchBuffer _ r | .flushBtcAll _ r
  | .flushBtcMva _ r | .invDcacheAll _ r | .invDcacheMva _ r | .invDcacheSw _ r | .invBothAll _ r | .cleanDcacheAll _ r
  | .cleanDcacheMva _ r | .cleanDcacheSw _ r | .dsb _ r | .dmb _ r | .readCdsr _ r | .readBtsr _ r
  | .stopPrefetchRange _ r | .prefetchIcacheMva _ r | .cleaninvDcacheAll _ r | .cleaninvDcacheMva _ r
  | .cleaninvDcacheSw _ r | .unifiedNopC7k1 _ r | .unifiedNopC7k2 _ r | .unifiedNopC7k3 _ r | .unifiedNopC7k4 _ r
  | .unifiedNopC7k5 _ r | .unifiedNopC7k6 _ r | .unifiedNopC7k7 _ r | .unifiedNopC11 _ r _ | .unifiedNopC15 _ r _ => [r]
  | .invIcacheRange _ rd rn | .invDcacheRange _ rd rn | .cleanDcacheRange _ rd rn | .cleaninvDcacheRange _ rd rn
  | .prefetchIcacheRange _ rd rn | .prefetchDcacheRange _ rd rn | .cp15OtherMcrr _ rd rn _ _ => [rd, rn]
  | .c7OtherCprt _ _ _ _ _ _ => []

/-- Whether the access matrix opens an instruction to User mode, in or out of debug state (40_access R123, R130). The
always Undefined encodings and the ignored MCRRs have no mode check. -/
def Instr.userOk (debug : Bool) : Instr → Bool
  | .flushPrefetchBuffer .. | .dsb .. | .dmb .. | .stopPrefetchRange .. | .readBtsr .. | .cleanDcacheRange ..
  | .prefetchIcacheRange .. | .prefetchDcacheRange .. | .cp15OtherMcrr .. => true
  | .flushBtcAll .. => debug
  | .wfi .. | .invIcacheAll .. | .invIcacheMva .. | .invIcacheSw .. | .flushBtcMva .. | .invDcacheAll ..
  | .invDcacheMva .. | .invDcacheSw .. | .invBothAll .. | .cleanDcacheAll .. | .cleanDcacheMva .. | .cleanDcacheSw ..
  | .readCdsr .. | .prefetchIcacheMva .. | .cleaninvDcacheAll .. | .cleaninvDcacheMva .. | .cleaninvDcacheSw ..
  | .invIcacheRange .. | .invDcacheRange .. | .cleaninvDcacheRange .. | .unifiedNopC7k1 .. | .unifiedNopC7k2 ..
  | .unifiedNopC7k3 .. | .unifiedNopC7k4 .. | .unifiedNopC7k5 .. | .unifiedNopC7k6 .. | .unifiedNopC7k7 ..
  | .unifiedNopC11 .. | .unifiedNopC15 .. | .c7OtherCprt .. => false

/-- The register that should be zero, of the instructions whose data is SBZ (30_encoding R97, R105). -/
def Instr.sbz : Instr → Option RegNo
  | .wfi _ r | .invIcacheAll _ r | .flushPrefetchBuffer _ r | .flushBtcAll _ r | .invDcacheAll _ r | .invBothAll _ r
  | .cleanDcacheAll _ r | .dsb _ r | .dmb _ r | .stopPrefetchRange _ r | .cleaninvDcacheAll _ r => some r
  | .invIcacheMva .. | .invIcacheSw .. | .flushBtcMva .. | .invDcacheMva .. | .invDcacheSw .. | .cleanDcacheMva ..
  | .cleanDcacheSw .. | .readCdsr .. | .readBtsr .. | .prefetchIcacheMva .. | .cleaninvDcacheMva ..
  | .cleaninvDcacheSw .. | .invIcacheRange .. | .invDcacheRange .. | .cleanDcacheRange .. | .cleaninvDcacheRange ..
  | .prefetchIcacheRange .. | .prefetchDcacheRange .. | .unifiedNopC7k1 .. | .unifiedNopC7k2 .. | .unifiedNopC7k3 ..
  | .unifiedNopC7k4 .. | .unifiedNopC7k5 .. | .unifiedNopC7k6 .. | .unifiedNopC7k7 .. | .unifiedNopC11 ..
  | .unifiedNopC15 .. | .c7OtherCprt .. | .cp15OtherMcrr .. => none

/-- The operations on whole caches, lines and ranges, which the premise of no lockdown concerns (70_reset R296 (e)). -/
def Instr.isCacheOp : Instr → Bool
  | .invIcacheAll .. | .invIcacheMva .. | .invIcacheSw .. | .invDcacheAll .. | .invDcacheMva .. | .invDcacheSw ..
  | .invBothAll .. | .cleanDcacheAll .. | .cleanDcacheMva .. | .cleanDcacheSw .. | .prefetchIcacheMva ..
  | .cleaninvDcacheAll .. | .cleaninvDcacheMva .. | .cleaninvDcacheSw .. | .invIcacheRange .. | .invDcacheRange ..
  | .cleanDcacheRange .. | .cleaninvDcacheRange .. | .prefetchIcacheRange .. | .prefetchDcacheRange .. => true
  | .wfi .. | .flushPrefetchBuffer .. | .flushBtcAll .. | .flushBtcMva .. | .dsb .. | .dmb .. | .readCdsr ..
  | .readBtsr .. | .stopPrefetchRange .. | .unifiedNopC7k1 .. | .unifiedNopC7k2 .. | .unifiedNopC7k3 ..
  | .unifiedNopC7k4 .. | .unifiedNopC7k5 .. | .unifiedNopC7k6 .. | .unifiedNopC7k7 .. | .unifiedNopC11 ..
  | .unifiedNopC15 .. | .c7OtherCprt .. | .cp15OtherMcrr .. => false

/-- The condition holds, the mode check passes and no operand is register 15: steps (1), (3) and the first of (4) of
40_access R120. -/
def Admitted (c : Cond) (userOk : Bool) (operands : List RegNo) (s : State) : Prop :=
  condHolds c s.cpsr = true ∧ (privileged s = true ∨ userOk = true) ∧ 15#4 ∉ operands

/-- The launch premise for the cache operations (70_reset R296 (a), (e); (f), which their meanings do not need, is
`GeometryReported`). -/
def Premise (s : State) : Prop := s.lockdown = false ∧ s.aux.ra = false ∧ s.aux.rv = false

/-- The core's next step executes the instruction at the pc: nobody else moves first, no standby, no event to take, ARM
state, an aligned pc. -/
def RunsNext (s : State) : Prop :=
  s.agenda = [] ∧ s.standby = false ∧ enabledEvents s = [] ∧ psrT s.cpsr = false ∧ psrJ s.cpsr = false
    ∧ s.pc.extractLsb' 0 2 = 0#2

/-- Whatever the hardware chooses, the Start Address does not count as greater than the End Address (43_range R187, U6). -/
def RangeRuns (start stop : Word) : Prop :=
  (lineOf start).toNat < (lineOf stop).toNat
    ∨ lineOf start = lineOf stop ∧ (start.extractLsb' 0 5).toNat ≤ (stop.extractLsb' 0 5).toNat

/-- Two slots of a list with one physical address are one and the same data: writing both back leaves no doubt which
bytes memory gets. -/
def OneDataPerLine (l : List Slot) : Prop := ∀ x ∈ l, ∀ y ∈ l, x.addr = y.addr → x.data = y.data

/-- The dirty slots of a list, which a clean of all of them writes back (10_state R30). -/
def dirtyOf (l : List Slot) : List Slot := l.filter Slot.isDirty

/-- Memory, once the write buffer is empty, holds the data of these slots, and every byte outside their lines is as
before, in memory now and once the write buffer is empty. -/
def WroteBack (l : List Slot) (s t : State) : Prop :=
  (∀ sl ∈ l, ∀ k : Fin 32, settledByte t (byteOfBlock sl.addr k) = sl.data[k])
    ∧ ∀ a, (∀ sl ∈ l, lineOf a ≠ sl.addr) → t.mem.read a = s.mem.read a ∧ settledByte t a = settledByte s a

/-- Memory holds the data of these slots already now. -/
def InMemory (l : List Slot) (t : State) : Prop := ∀ sl ∈ l, ∀ k : Fin 32, t.mem.read (byteOfBlock sl.addr k) = sl.data[k]

/-- What a treatment of these slots leaves in memory (10_state R30, R31): an invalidate writes nothing; a clean writes the data
of the dirty ones back, at once. -/
def MemoryAfter (op : LineOp) (hit : List Slot) (s t : State) : Prop :=
  match op with
  | .invalidate => t.mem = s.mem ∧ t.writeBuffer = s.writeBuffer
  | .clean | .cleanInvalidate =>
    Memory.wf s.mem → OneDataPerLine (dirtyOf hit) → InMemory (dirtyOf hit) t ∧ WroteBack (dirtyOf hit) s t

/-- What holds once a Data Synchronization Barrier has been executed in a state (20_memory R73, R76; 70_reset R306). -/
def AfterDsb (t : State) (P : State → Prop) : Prop :=
  ∀ (c : Cond) (rd : RegNo), Admitted c true [rd] t → readReg t rd = 0 → ∃ u, exec (.dsb c rd) t = .next u ∧ P u

/-- The slots of a side that hold a line of a list of blocks, each taken through `fcse` (43_range R197). -/
def hitBy (s : State) (side : Side) (bs : List Block) : List Slot :=
  (sideSlots s side).filter fun sl => bs.any fun b => sl.holds (lineOf (fcse s (blockBase b)))

/-- A slot held by one of a list of blocks, each taken through `fcse`, has been treated; any other is as it was. -/
def treatedBy (op : LineOp) (s : State) (bs : List Block) (sl : Slot) : Slot :=
  if bs.any fun b => sl.holds (lineOf (fcse s (blockBase b))) then op.slot sl else sl

/-- An interrupt is asserted at these input levels and not masked by this status (60_exceptions R263, R264). -/
def Pending (e : Event) (levels : Inputs) (psr : Word) : Prop :=
  e = .irq ∧ levels.irq = true ∧ psrI psr = false ∨ e = .fiq ∧ levels.fiq = true ∧ psrF psr = false

/-- What entering the handler of an interrupt, IRQ or FIQ, with a return link does to the registers, the status and the pc
(60_exceptions R263, R264, R270). -/
def EnteredInterrupt (e : Event) (link : Word) (s t : State) : Prop :=
  ∃ x, (e, x) ∈ [(Event.irq, Exc.irq), (.fiq, .fiq)]
    ∧ t.pc = s.cfg.vectors.base + x.offset s.cfg.vectors ∧ t.cpsr = entryPsr s.cpsr x.mode x.setsF x.setsA
    ∧ t.spsr = s.spsr.set x.mode s.cpsr
    ∧ t.regs = s.regs.setBank (some x.mode) { s.regs.bank (some x.mode) with lr := link }

/-- The six range operations (30_encoding R106). -/
def rangeOps (c : Cond) (rd rn : RegNo) : List Instr :=
  [.invIcacheRange c rd rn, .invDcacheRange c rd rn, .cleanDcacheRange c rd rn, .cleaninvDcacheRange c rd rn,
    .prefetchIcacheRange c rd rn, .prefetchDcacheRange c rd rn]

/-- The four blocking range operations with their action, side and access (43_range R180 to R183). -/
def blockingOps (c : Cond) (rd rn : RegNo) : List (Instr × LineOp × Side × Access) :=
  [(.invIcacheRange c rd rn, .invalidate, .instr, .fetch), (.invDcacheRange c rd rn, .invalidate, .data, .data),
    (.cleanDcacheRange c rd rn, .clean, .data, .data), (.cleaninvDcacheRange c rd rn, .cleanInvalidate, .data, .data)]

/-! ## Invariants -/

/-- The invariant of 10_state R22: C = 0 implies that no slot of the data cache proper is dirty. -/
def CdsrSound (s : State) : Prop := s.cdsrC = false → ∀ sl ∈ s.dc, sl.isDirty = false

/-- Instruction cache slots are never dirty (10_state R27); nor are the SmartCache slots of that side. -/
def IcacheClean (s : State) : Prop := ∀ sl ∈ sideSlots s .instr, sl.isDirty = false

/-- The launch premise of 70_reset R296 (f): the parameters agree with what the Cache Type Register reports. S_D is its field
[20:18] plus 4 (30_encoding R100); the instruction side's field [8:6] and the associativities [17:15] and [5:3] are the
family's (PRESUMED, log entry 5). -/
def GeometryReported (s : State) : Prop :=
  s.cfg.sD = (s.cacheType.extractLsb' 18 3).toNat + 4 ∧ s.cfg.sI = (s.cacheType.extractLsb' 6 3).toNat + 4
    ∧ s.cfg.nWays = 2 ^ (s.cacheType.extractLsb' 15 3).toNat ∧ s.cfg.nWays = 2 ^ (s.cacheType.extractLsb' 3 3).toNat

/-- The caches have the number of slots their parameters say (10_state R26, R27), and the parameters are as reported. -/
def Geometry (s : State) : Prop :=
  s.dc.length = s.cfg.nWays * 2 ^ (s.cfg.sD - 2) ∧ s.ic.length = s.cfg.nWays * 2 ^ (s.cfg.sI - 2) ∧ GeometryReported s

/-- A running Prefetch Range has not passed its last block (43_range R192). -/
def TransferOrdered (s : State) : Prop := ∀ t, s.bt = some t → t.cur.toNat ≤ t.last.toNat

/-- CPSR and every SPSR hold one of the seven modes (60_exceptions R275). -/
def ModesLegal (s : State) : Prop :=
  ∀ p ∈ [s.cpsr, s.spsr.fiq, s.spsr.irq, s.spsr.svc, s.spsr.abt, s.spsr.und], (Mode.ofBits (psrMode p)).isSome = true

/-- While an invalidate of the whole data cache is under way, its dirty slots are those whose invalidation is: once it is
complete C can be clear (10_state R22 (b); 70_reset R306; log entry 41). -/
def ClearingSound (s : State) : Prop := s.cdsrClearing = true → ∀ sl ∈ s.dc, sl.isDirty = true → sl.fading = true

/-- What every step keeps: memory in canonical form, C sound, the instruction side clean, the caches in their shape, a
running transfer not past its end, legal modes, no slot left dirty by an invalidate of the data cache under way. -/
def Inv (s : State) : Prop :=
  Memory.wf s.mem ∧ CdsrSound s ∧ IcacheClean s ∧ Geometry s ∧ TransferOrdered s ∧ ModesLegal s ∧ ClearingSound s

/-! ## Safe runs -/

/-- The state an answer goes on with. -/
def nextState? : Result → Option State
  | .next s => some s
  | .fault _ | .refused _ => none

/-- A run of `n` steps ends in no fault. -/
def NoFaultWithin (n : Nat) (s : State) : Prop := ∀ f, Sys2Proof.core.run n s ≠ .fault f

end Sys2Proof.Machine
end

