-- ==== Sys2Proof/Certificates/Slice0/Obligations.lean ====
section
/-! DEFINITION. The statements for the provers. Each docstring cites the rules of spec/ that the statement formalises; what is
the model's own choice is said there with its log entry (notes/assumptions). `Admitted` is: condition, mode and r15 checks
pass; `Premise` is: bits RA and RV clear, no lockdown (70_reset R296). -/

open Sys2Proof Sys2Proof.Machine Sys2Proof.Config

/-! ## Encoding -/

/-- Words written out from 30_encoding R91, R92, R105, R106, R108 decode to their instructions (layouts GK4, selectors
partly GK20, GK21). -/
def Obligations.WrittenWordsDecode : Prop :=
  decode 0xEE070F90#32 = .ok (.wfi .al 0) ∧ decode 0xEE070FD5#32 = .ok (.flushBtcAll .al 0)
    ∧ decode 0xEE070F56#32 = .ok (.invDcacheSw .al 0) ∧ decode 0xEE071F1A#32 = .ok (.cleanDcacheAll .al 1)
    ∧ decode 0xEE070F9A#32 = .ok (.dsb .al 0) ∧ decode 0xEE171FDA#32 = .ok (.readCdsr .al 1)
    ∧ decode 0xEE170F9C#32 = .ok (.readBtsr .al 0) ∧ decode 0xEE070FBC#32 = .ok (.stopPrefetchRange .al 0)
    ∧ decode 0xEE074F5E#32 = .ok (.cleaninvDcacheSw .al 4) ∧ decode 0xEC401F0C#32 = .ok (.cleanDcacheRange .al 1 0)
    ∧ decode 0xEC401F2C#32 = .ok (.prefetchDcacheRange .al 1 0) ∧ decode 0xEE070FF7#32 = .ok (.unifiedNopC7k7 .al 0)
    ∧ decode 0xEE070FFF#32 = .ok (.unifiedNopC15 .al 0 7) ∧ decode 0xEE170F9A#32 = .ok (.c7OtherCprt .al 0 1 0 10 4)
    ∧ decode 0xEC401F3C#32 = .ok (.cp15OtherMcrr .al 1 0 3 12)

/-- Decoding the word of a well-formed instruction gives the instruction back, every operand at every value (30_encoding
R91, R92, R111). -/
def Obligations.DecodeEncode : Prop := ∀ i : Instr, Instr.wf i = true → decode (encode i) = .ok i

/-- The other direction: a word that decodes is the word of what it decodes to, which is well-formed; no bit of a word is
dropped (30_encoding R91, R92, R111). -/
def Obligations.EncodeDecode : Prop := ∀ (w : Word) (i : Instr), decode w = .ok i → Instr.wf i = true ∧ encode i = w

/-- A word decodes exactly when its condition field is not 0b1111 and one of the two fallback rows' masks matches it
(30_encoding R93, R94, R111). With 0b1111, only a register transfer of coprocessor 15 (MCR2, MRC2, MCRR2, MRRC2) is rejected as
unconditional, and an MRRC to CP15 is rejected as such: the words of 60_exceptions R282 (d), decision D2, are kept apart from
those of (e). -/
def Obligations.DecodesExactlyC7 : Prop :=
  ∀ w : Word, ((∃ i, decode w = .ok i)
      ↔ w.extractLsb' 28 4 ≠ 15#4 ∧ (w &&& 0x0F0F0F10#32 = 0x0E070F10#32 ∨ w &&& 0x0FF00F00#32 = 0x0C400F00#32))
    ∧ (decode w = .error .unconditional
      ↔ w.extractLsb' 28 4 = 15#4 ∧ (w &&& 0x0F000F10#32 = 0x0E000F10#32 ∨ w &&& 0x0FE00F00#32 = 0x0C400F00#32))
    ∧ (decode w = .error .mrrc ↔ w.extractLsb' 28 4 ≠ 15#4 ∧ w &&& 0x0FF00F00#32 = 0x0C500F00#32)

/-! ## The step -/

/-- A step runs the decoded instruction: when it is the core's turn, nothing is to be taken first and the fetched word
decodes, the step is `exec` on the state after the fetch, which differs in the prefetch buffer and the free values only;
the same when the agenda names the core (00_scope R8, R9; 40_access R120; the agenda is log entry 10). -/
def Obligations.StepRunsDecoded : Prop :=
  ∀ (s s1 : State) (w : Word) (i : Instr), RunsNext s → fetchWord s = .ok (w, s1) → decode w = .ok i →
    step s = exec i s1 ∧ s1 = { s with pfb := s1.pfb, draws := s1.draws }
      ∧ ∀ rest, step { s with agenda := .core :: rest } = exec i { s1 with agenda := rest }

/-- Where an instruction comes from: the first word the prefetch buffer holds for the pc, wherever it stands, used up by that (log
entry 31); else, with the instruction cache enabled, a line that holds the block, any one of several (a free choice); else
memory, not the write buffer; and before line and memory an instruction side TCM that covers the byte (10_state R35, 20_memory
R78; the order is log entry 32, the TCM log entry 52). -/
def Obligations.FetchSource : Prop :=
  ∀ s : State,
    (∀ l p r, s.pfb = l ++ p :: r → (∀ q ∈ l, q.addr ≠ s.pc) → p.addr = s.pc →
        fetchWord s = .ok (p.word, { s with pfb := l ++ r }))
      ∧ ((∀ p ∈ s.pfb, p.addr ≠ s.pc) → ∀ pb ca, translate s (fcse s s.pc) .fetch = .mapped pb ca →
        (s.ctrl.i = false ∨ holding s .instr (lineOf (fcse s s.pc)) = [] →
          fetchWord s = .ok (wordOf s.cfg.bigEndian ((List.range 4).map fun k =>
            fetchByte s none pb (((fcse s s.pc).extractLsb' 0 5).toNat + k)), s))
        ∧ (s.ctrl.i = true → holding s .instr (lineOf (fcse s s.pc)) ≠ [] →
          ∃ sl ∈ holding s .instr (lineOf (fcse s s.pc)), ∃ draws,
            fetchWord s = .ok (wordOf s.cfg.bigEndian ((List.range 4).map fun k =>
              fetchByte s (some sl) pb (((fcse s s.pc).extractLsb' 0 5).toNat + k)), { s with draws := draws })
            ∧ (holding s .instr (lineOf (fcse s s.pc)) = [sl] → draws = s.draws)))
      ∧ ∀ pb k, ((∀ x ∈ s.tcmI, x.byteAt (byteOfBlock pb k) = none) → fetchByte s none pb k = s.mem.read (byteOfBlock pb k)
          ∧ ∀ sl, fetchByte s (some sl) pb k = sl.data[k]?.getD 0)
        ∧ ∀ l x r b line, s.tcmI = l ++ x :: r → (∀ y ∈ l, y.byteAt (byteOfBlock pb k) = none) →
          x.byteAt (byteOfBlock pb k) = some b → fetchByte s line pb k = b

/-- What the step stops on instead of running: Thumb or Jazelle state, a pc that is no multiple of 4, a fetch that does not
translate (the model's fault, log entry 33), and the words this spec gives no meaning to (60_exceptions R282 (d), (e);
decisions D1, D2, D7; log entries 35, 46, 47). -/
def Obligations.StepStops : Prop :=
  ∀ s : State, s.agenda = [] → s.standby = false → enabledEvents s = [] →
    (psrT s.cpsr = true ∨ psrJ s.cpsr = true → step s = .refused .notArmState)
      ∧ (psrT s.cpsr = false → psrJ s.cpsr = false →
        (s.pc.extractLsb' 0 2 ≠ 0#2 → step s = .refused .unalignedPc)
          ∧ (s.pc.extractLsb' 0 2 = 0#2 →
            (∀ f, fetchWord s = .error f → step s = .fault .fetchTranslation)
              ∧ ∀ w s1, fetchWord s = .ok (w, s1) →
                (decode w = .error .unconditional → step s = .refused .unconditional)
                  ∧ (decode w = .error .mrrc → step s = .refused .mrrc)
                  ∧ (decode w = .error .notC7 → returnWord w = none → step s = .refused .outsideSpec)))

/-- The engine, the cache hardware, the environment and outside software never touch the registers, the status, the pc,
standby, FAR or DFSR, nor the branch target cache except to record a branch or drop an entry, and they always move on. For the
engine and the cache hardware this is 00_scope R9 and 43_range R194; that outside software (stores, the FCSE PID, the page
tables, c1) is a move which leaves pc and registers alone, and that lockdown never changes, is the model's choice (log entries
10, 24, 30). In standby, where the core executes nothing (10_state R37), a move of outside software does nothing. -/
def Obligations.OtherAgentsLeaveProcessor : Prop :=
  ∀ (s : State) (a : Action) (rest : List Action), s.agenda = a :: rest → a ≠ .core →
    ∃ t, step s = .next t ∧ t.regs = s.regs ∧ t.pc = s.pc ∧ t.cpsr = s.cpsr ∧ t.spsr = s.spsr ∧ t.standby = s.standby
      ∧ t.far = s.far ∧ t.dfsr = s.dfsr ∧ t.cacheType = s.cacheType ∧ t.lockdown = s.lockdown ∧ t.cfg = s.cfg
      ∧ t.agenda = rest ∧ (s.standby = true → a.bySoftware = true → t = { s with agenda := rest })
      ∧ (t.btac = s.btac ∨ (∃ x, a = .predict x ∧ t.btac = { addr := x, fading := false } :: s.btac)
        ∨ ∃ k, a = .dropBranch k ∧ t.btac = s.btac.eraseIdx k)

/-! ## The checks of every access -/

/-- A failed condition makes every c7 access advance the pc and nothing else, whatever its mode or operands (30_encoding
R93, 40_access R120 (1); GK15). -/
def Obligations.FailedConditionAdvances : Prop :=
  ∀ (i : Instr) (s : State), condHolds (Instr.cond i) s.cpsr = false → exec i s = .next { s with pc := s.pc + 4 }

/-- In User mode every access the matrix does not open takes the Undefined Instruction exception, with the link A + 4, before
any effect and whatever its operands (40_access R122, R123, R129, R130; decision D13 where the source's table is lost; link
GK22, log entry 18). -/
def Obligations.UserModeUndefined : Prop :=
  ∀ (i : Instr) (s : State), condHolds (Instr.cond i) s.cpsr = true → psrMode s.cpsr = 0b10000#5 →
    Instr.userOk s.debugState i = false → exec i s = .next (takeException .undefinedInstruction (s.pc + 4) s)

/-- 30_encoding R107: an MCR or MRC to c7 that is no function of R105 and no unified-cache encoding decodes as such and takes
the Undefined Instruction exception in every mode. -/
def Obligations.OtherCprtUndefined : Prop :=
  ∀ (c : Cond) (rd : RegNo) (read : BitVec 1) (opcode1 : BitVec 3) (crm : BitVec 4) (opcode2 : BitVec 3),
    isDefinedCprt read opcode1 crm opcode2 = false →
      decode (cprt c opcode1 read rd opcode2 crm) = .ok (.c7OtherCprt c rd read opcode1 crm opcode2)
        ∧ ∀ s, condHolds c s.cpsr = true → exec (.c7OtherCprt c rd read opcode1 crm opcode2) s = .next (raiseUndefined s)

/-- 30_encoding R108: the 23 unified-cache encodings do nothing in a privileged mode and take the Undefined Instruction
exception in User mode. Register 15 as Rd is the subject of `Register15Refused`. -/
def Obligations.UnifiedNops : Prop :=
  ∀ (c : Cond) (rd : RegNo) (k : BitVec 3) (i : Instr) (s : State),
    i ∈ [Instr.unifiedNopC7k1 c rd, .unifiedNopC7k2 c rd, .unifiedNopC7k3 c rd, .unifiedNopC7k4 c rd, .unifiedNopC7k5 c rd,
      .unifiedNopC7k6 c rd, .unifiedNopC7k7 c rd, .unifiedNopC11 c rd k, .unifiedNopC15 c rd k] →
    condHolds c s.cpsr = true →
      (privileged s = false → exec i s = .next (raiseUndefined s))
        ∧ (privileged s = true → rd ≠ 15#4 → exec i s = .next { s with pc := s.pc + 4 })

/-- Any other MCRR to CP15 is ignored in every mode (40_access R125, conflict C1, decision D3), or, under the parameter's
other value, takes the Undefined Instruction exception. Register 15 is the subject of `Register15Refused`. -/
def Obligations.OtherMcrr : Prop :=
  ∀ (c : Cond) (rd rn : RegNo) (opcode1 crm : BitVec 4) (s : State), condHolds c s.cpsr = true →
    (s.cfg.mcrrOther = .ignored → rd ≠ 15#4 → rn ≠ 15#4 →
        exec (.cp15OtherMcrr c rd rn opcode1 crm) s = .next { s with pc := s.pc + 4 })
      ∧ (s.cfg.mcrrOther = .undefined → exec (.cp15OtherMcrr c rd rn opcode1 crm) s = .next (raiseUndefined s))

/-- The model's stop, log entry 22 (30_encoding R95, decision D11): register 15 as an operand is refused once condition and
mode check have passed. -/
def Obligations.Register15Refused : Prop :=
  ∀ (i : Instr) (s : State), condHolds (Instr.cond i) s.cpsr = true →
    privileged s = true ∨ Instr.userOk s.debugState i = true → 15#4 ∈ Instr.operands i →
    (∀ c rd rn opcode1 crm, i = .cp15OtherMcrr c rd rn opcode1 crm → s.cfg.mcrrOther = .ignored) →
      exec i s = .refused .r15Operand

/-- The model's stop, log entry 20 (30_encoding R97, decision D12): a nonzero value in an operand that should be zero is
refused. -/
def Obligations.NonzeroSbzRefused : Prop :=
  ∀ (i : Instr) (r : RegNo) (s : State), Instr.sbz i = some r →
    Admitted (Instr.cond i) (Instr.userOk s.debugState i) (Instr.operands i) s → readReg s r ≠ 0 →
      exec i s = .refused .nonzeroSbz

/-- The model's stops, log entry 24 (70_reset R296 (a), (e); U17): outside the launch premise the operations concerned are
refused. -/
def Obligations.OutsidePremiseRefused : Prop :=
  ∀ (i : Instr) (s : State), Admitted (Instr.cond i) (Instr.userOk s.debugState i) (Instr.operands i) s →
    (∀ r, Instr.sbz i = some r → readReg s r = 0) →
      (Instr.isCacheOp i = true → s.lockdown = true → exec i s = .refused .cacheLockdown)
        ∧ (s.lockdown = false → s.aux.ra = true → ∀ c rd, i ∈ [Instr.cleanDcacheAll c rd, .cleaninvDcacheAll c rd] →
          exec i s = .refused .auxDisabled)
        ∧ (s.lockdown = false → s.aux.rv = true → ∀ c rd rn, i ∈ rangeOps c rd rn → exec i s = .refused .auxDisabled)

/-! ## Entire caches -/

/-- Invalidate Entire Instruction Cache: every slot of the cache proper invalid, the branch target cache empty. Invalidate
Entire Data Cache: every slot of the cache proper invalid, C clear, dirty data discarded. Either at once or, the slots still
fading and C not yet clear, at the latest after a Data Synchronization Barrier (70_reset R306; which is a free choice, log entry
41). Nothing else changes but the pc: neither memory nor write buffer nor TCMs (41_entire R140, R141, R142; 20_memory R84). -/
def Obligations.InvalidateEntire : Prop :=
  ∀ (c : Cond) (rd : RegNo) (s : State), Admitted c false [rd] s → readReg s rd = 0 → Premise s →
    (∃ t late, exec (.invIcacheAll c rd) s = .next t
      ∧ t = { s with pc := s.pc + 4, ic := s.ic.map (LineOp.effect late .invalidate)
                     btac := if late then s.btac.map Branch.fade else [], draws := t.draws }
      ∧ (late = false → ∀ sl ∈ t.ic, sl.valid = false)
      ∧ AfterDsb t fun u => (∀ sl ∈ u.ic, sl.valid = false) ∧ u.btac = [])
    ∧ ∃ t late, exec (.invDcacheAll c rd) s = .next t
      ∧ t = { s with
        pc := s.pc + 4, dc := s.dc.map (LineOp.effect late .invalidate), cdsrC := s.cdsrC && late, cdsrClearing := late
        draws := t.draws }
      ∧ (late = false → t.cdsrC = false ∧ ∀ sl ∈ t.dc, sl.valid = false)
      ∧ AfterDsb t fun u => u.cdsrC = false ∧ (∀ sl ∈ u.dc, sl.valid = false) ∧ ∀ a, u.mem.read a = settledByte s a

/-- Invalidate Both Caches is the effect of the two together, each at once or under way (41_entire R143; 70_reset R306, log
entry 41). -/
def Obligations.InvalidateBoth : Prop :=
  ∀ (c : Cond) (rd : RegNo) (s : State), Admitted c false [rd] s → readReg s rd = 0 → Premise s →
    ∃ t u, exec (.invBothAll c rd) s = .next t ∧ exec (.invIcacheAll c rd) s = .next u
      ∧ exec (.invDcacheAll c rd) { u with pc := s.pc } = .next t
      ∧ AfterDsb t (fun v => (∀ sl ∈ v.ic ++ v.dc, sl.valid = false) ∧ v.btac = [] ∧ v.cdsrC = false)
      ∧ t = { s with
        pc := s.pc + 4, ic := t.ic, dc := t.dc, btac := t.btac, cdsrC := s.cdsrC && t.cdsrClearing
        cdsrClearing := t.cdsrClearing, draws := t.draws }

/-- The two entire cleans when no interrupt is taken on the way: every slot of the data cache proper is treated whatever the order
drawn, memory holds what the dirty slots held, C is clear, every other byte of memory and everything else is unchanged, the
TCMs among it, but for the levels sampled at the interrupt points (41_entire R140, R144, R145; 20_memory R84). Two dirty slots
of one line are taken to hold one data. -/
def Obligations.EntireCleanCompletes : Prop :=
  ∀ (c : Cond) (rd : RegNo) (s : State) (i : Instr) (op : LineOp),
    (i, op) ∈ [(Instr.cleanDcacheAll c rd, LineOp.clean), (.cleaninvDcacheAll c rd, .cleanInvalidate)] →
    Admitted c false [rd] s → readReg s rd = 0 → Premise s → (walkPoints s.dc s).taken = none → Memory.wf s.mem →
    OneDataPerLine (dirtyOf s.dc) →
      ∃ t, exec i s = .next t ∧ t.dc = s.dc.map op.slot ∧ (∀ sl ∈ t.dc, sl.isDirty = false)
        ∧ (op = .cleanInvalidate → ∀ sl ∈ t.dc, sl.valid = false)
        ∧ InMemory (dirtyOf s.dc) t ∧ WroteBack (dirtyOf s.dc) s t
        ∧ t = { s with pc := s.pc + 4, cdsrC := false, dc := t.dc, mem := t.mem, writeBuffer := t.writeBuffer
                       draws := t.draws, inputs := t.inputs, points := t.points }
        ∧ (quiet s = true → t.inputs = s.inputs ∧ t.points = s.points)

/-- An entire clean always ends in a next state: it completes, or an interrupt is taken on the way: the handler entered is that
of the IRQ or FIQ taken, which the levels sampled last assert and no mask holds back; the link is A + 4, C unchanged. The slots it passed are treated and no data of theirs is lost: memory holds what their dirty lines held, and every
byte outside those lines is as before (41_entire R145, R146; 60_exceptions R263, R264, R267, R268). -/
def Obligations.EntireCleanEnds : Prop :=
  ∀ (c : Cond) (rd : RegNo) (s : State) (i : Instr) (op : LineOp),
    (i, op) ∈ [(Instr.cleanDcacheAll c rd, LineOp.clean), (.cleaninvDcacheAll c rd, .cleanInvalidate)] →
    Admitted c false [rd] s → readReg s rd = 0 → Premise s →
      ∃ (t : State) (passed : List Nat), exec i s = .next t ∧ passed.length = (walkPoints s.dc s).treated
        ∧ passed.Nodup ∧ (∀ n ∈ passed, n < s.dc.length)
        ∧ (∀ n : Nat, t.dc[n]? = if n ∈ passed then (s.dc[n]?).map op.slot else s.dc[n]?)
        ∧ MemoryAfter op (passed.filterMap fun n => s.dc[n]?) s t
        ∧ t = { s with pc := t.pc, cpsr := t.cpsr, spsr := t.spsr, regs := t.regs, cdsrC := t.cdsrC, dc := t.dc
                       mem := t.mem, writeBuffer := t.writeBuffer, draws := t.draws, inputs := t.inputs
                       points := t.points }
        ∧ ((walkPoints s.dc s).taken = none →
          t.dc = s.dc.map op.slot ∧ t.cdsrC = false ∧ t.pc = s.pc + 4 ∧ t.cpsr = s.cpsr ∧ t.spsr = s.spsr ∧ t.regs = s.regs)
        ∧ ∀ e, (walkPoints s.dc s).taken = some e →
          t.cdsrC = s.cdsrC ∧ EnteredInterrupt e (s.pc + 4) s t ∧ Pending e t.inputs s.cpsr

/-! ## Single lines -/

/-- An invalidate by MVA: the slots that hold the line are invalid and their dirty data is lost, memory and write buffer being as
before (20_memory R80; 42_single R160, R162, R170 (b), (d)); either at once or, the slots still fading, at the latest after a
Data Synchronization Barrier, when no slot holds the line (R76, 70_reset R306; which is a free choice, log entry 41). Nothing
else changes but the pc. An address that does not translate is the subject of `LineTranslationRefused`. -/
def Obligations.InvalidateLine : Prop :=
  ∀ (c : Cond) (rd : RegNo) (s : State) (i : Instr) (side : Side),
    (i, side) ∈ [(Instr.invIcacheMva c rd, Side.instr), (.invDcacheMva c rd, .data)] → Admitted c false [rd] s → Premise s →
    translates s (readReg s rd) (sideAccess side) = true →
      ∃ t late, exec i s = .next t
        ∧ t = { mapSide (fun sl => if sl.holds (lineOf (readReg s rd)) then LineOp.effect late .invalidate sl else sl) s side with
          pc := s.pc + 4, draws := t.draws }
        ∧ (∀ sl ∈ holding t side (lineOf (readReg s rd)), sl.fading = true)
        ∧ (late = false → holding t side (lineOf (readReg s rd)) = [])
        ∧ AfterDsb t fun u => holding u side (lineOf (readReg s rd)) = [] ∧ ∀ a, u.mem.read a = settledByte s a

/-- Clean, and clean and invalidate, by MVA: the slots of the line are treated, SmartCache slots among them; their dirty data
is in memory or on its way in the write buffer (a free choice, log entry 28), and in memory after a Data Synchronization
Barrier; an invalidation may be under way until then (70_reset R306, log entry 41); every byte outside those lines and
everything else, C among it, is as before (42_single R164, R167, R170; 20_memory R81, R82). -/
def Obligations.CleanLine : Prop :=
  ∀ (c : Cond) (rd : RegNo) (s : State) (i : Instr) (op : LineOp),
    (i, op) ∈ [(Instr.cleanDcacheMva c rd, LineOp.clean), (.cleaninvDcacheMva c rd, .cleanInvalidate)] →
    Admitted c false [rd] s → Premise s → Memory.wf s.mem → translates s (readReg s rd) .data = true →
    OneDataPerLine (dirtyOf (holding s .data (lineOf (readReg s rd)))) →
      ∃ t late, exec i s = .next t ∧ WroteBack (dirtyOf (holding s .data (lineOf (readReg s rd)))) s t
        ∧ (∀ sl ∈ holding t .data (lineOf (readReg s rd)), sl.isDirty = false)
        ∧ AfterDsb t (fun u => InMemory (dirtyOf (holding s .data (lineOf (readReg s rd)))) u
          ∧ (op = .cleanInvalidate → holding u .data (lineOf (readReg s rd)) = []))
        ∧ t = { mapSide (fun sl => if sl.holds (lineOf (readReg s rd)) then op.effect late sl else sl) s .data with
          pc := s.pc + 4, mem := t.mem, writeBuffer := t.writeBuffer, draws := t.draws }

/-- The model's stop, log entry 23 (42_single R171, decision D9): a single-line MVA operation on an address that does not
translate is refused. -/
def Obligations.LineTranslationRefused : Prop :=
  ∀ (c : Cond) (rd : RegNo) (s : State), Admitted c false [rd] s → Premise s →
    (translates s (readReg s rd) .fetch = false →
      ∀ i ∈ [Instr.invIcacheMva c rd, .prefetchIcacheMva c rd], exec i s = .refused .lineTranslation)
      ∧ (translates s (readReg s rd) .data = false →
        ∀ i ∈ [Instr.invDcacheMva c rd, .cleanDcacheMva c rd, .cleaninvDcacheMva c rd], exec i s = .refused .lineTranslation)

/-- What a Set/Way value names, and when it names nothing (30_encoding R98, R99; 42_single R172). That a value which names
nothing, or has a reserved bit set, is refused is the model's stop, log entry 21 (U3, U4). -/
def Obligations.SetWayDecode : Prop :=
  ∀ (s : State) (side : Side) (way set : Nat), way < 4 → 2 ≤ paramS s side → paramS s side ≤ 26 → set < numSets s side →
    (way < s.cfg.nWays →
        slotOf s side (BitVec.ofNat 32 (way * 2 ^ 30 + set * 2 ^ 5)) = .ok (.cache (way * numSets s side + set)))
      ∧ (s.cfg.nWays ≤ way → slotOf s side (BitVec.ofNat 32 (way * 2 ^ 30 + set * 2 ^ 5)) = .error .setWayAbsent)
      ∧ (∀ t, (tcmsOf s side)[way]? = some t → t.smartCache = true → set < t.slots.length →
        slotOf s side (BitVec.ofNat 32 (way * 2 ^ 30 + set * 2 ^ 5 + 1)) = .ok (.tcm way set))
      ∧ ((∀ t, (tcmsOf s side)[way]? = some t → t.smartCache = false ∨ t.slots.length ≤ set) →
        slotOf s side (BitVec.ofNat 32 (way * 2 ^ 30 + set * 2 ^ 5 + 1)) = .error .setWayAbsent)
      ∧ ∀ v : Word, (∃ k, 1 ≤ k ∧ k ≤ 4 ∧ v.getLsbD k = true) ∨ (∃ k, paramS s side + 3 ≤ k ∧ k ≤ 29 ∧ v.getLsbD k = true) →
        slotOf s side v = .error .setWayReserved

/-- Invalidate by Set/Way: the named slot, valid or not, becomes invalid, at once or at the latest after a Data Synchronization
Barrier (70_reset R306, log entry 41), every other stays; nothing goes to memory; a value that names no slot is refused
(42_single R161, R163, R170 (c); the refusal is log entry 21). -/
def Obligations.SetWayInvalidate : Prop :=
  ∀ (c : Cond) (rd : RegNo) (s : State) (i : Instr) (side : Side),
    (i, side) ∈ [(Instr.invIcacheSw c rd, Side.instr), (.invDcacheSw c rd, .data)] → Admitted c false [rd] s → Premise s →
      (∀ e, slotOf s side (readReg s rd) = .error e → exec i s = .refused e)
        ∧ ∀ r, slotOf s side (readReg s rd) = .ok r →
          ∃ t late, exec i s = .next t
            ∧ t = { updateSlot s side r (LineOp.effect late .invalidate) with pc := s.pc + 4, draws := t.draws }
            ∧ getSlot t side r = (getSlot s side r).map (LineOp.effect late .invalidate)
            ∧ (∀ q, q ≠ r → getSlot t side q = getSlot s side q)
            ∧ AfterDsb t fun u => ∀ sl, getSlot u side r = some sl → sl.valid = false

/-- Clean, and clean and invalidate, by Set/Way: the named slot is treated, its dirty data is in memory or in the write buffer
(log entry 28), an invalidation may be under way until a Data Synchronization Barrier (70_reset R306, log entry 41), every other
slot and byte is as before, C too (42_single R165, R168; 20_memory R83). A value that names no slot is refused: the model's
stop, log entry 21 (U3, U4, R172). -/
def Obligations.SetWayClean : Prop :=
  ∀ (c : Cond) (rd : RegNo) (s : State) (i : Instr) (op : LineOp),
    (i, op) ∈ [(Instr.cleanDcacheSw c rd, LineOp.clean), (.cleaninvDcacheSw c rd, .cleanInvalidate)] →
    Admitted c false [rd] s → Premise s → Memory.wf s.mem →
      (∀ e, slotOf s .data (readReg s rd) = .error e → exec i s = .refused e)
        ∧ ∀ r, slotOf s .data (readReg s rd) = .ok r →
          ∃ t late, exec i s = .next t ∧ WroteBack (dirtyOf (getSlot s .data r).toList) s t
            ∧ getSlot t .data r = (getSlot s .data r).map (op.effect late)
            ∧ (∀ q, q ≠ r → getSlot t .data q = getSlot s .data q)
            ∧ AfterDsb t (fun u => InMemory (dirtyOf (getSlot s .data r).toList) u
              ∧ (op = .cleanInvalidate → ∀ sl, getSlot u .data r = some sl → sl.valid = false))
            ∧ t = { updateSlot s .data r (op.effect late) with
              pc := s.pc + 4, mem := t.mem, writeBuffer := t.writeBuffer, draws := t.draws }

/-- Prefetch Instruction Cache Line: nothing happens if the line is held; else the line is offered to a fill, which is `fillSlot`
(`FillOneSlot` says all it can do). Nothing happens where the memory is not cacheable, the cache is disabled (log entry 25) or
the fill is barred, the line being in a TCM (log entries 39, 52). In any case nothing more than one instruction side slot
changes, to hold the line, clean, as memory has it (42_single R166, 10_state R32). R166 leaves open when the fill happens: that
it is complete with the instruction or does not happen at all is the model's choice, log entry 39. That instruction side
slots are not dirty is the invariant `IcacheClean`. -/
def Obligations.PrefetchInstructionLine : Prop :=
  ∀ (c : Cond) (rd : RegNo) (s : State) (pb : Block) (ca : Bool), Admitted c false [rd] s → Premise s → IcacheClean s →
    translate s (readReg s rd) .fetch = .mapped pb ca →
      ∃ t, exec (.prefetchIcacheMva c rd) s = .next t
        ∧ (holding s .instr (lineOf (readReg s rd)) ≠ [] → t = { s with pc := s.pc + 4 })
        ∧ (holding s .instr (lineOf (readReg s rd)) = [] → t = { fillSlot s .instr (readReg s rd) with pc := s.pc + 4 })
        ∧ (ca = false ∨ cacheEnabled s .instr = false ∨ fillBarred s .instr (lineOf (readReg s rd)) pb = true →
          t = { s with pc := s.pc + 4 })
        ∧ (t = { s with pc := s.pc + 4, draws := t.draws }
          ∨ ∃ r, t = { updateSlot s .instr r fun _ =>
              { valid := true, dirty := false, fading := false, addr := pb, block := lineOf (readReg s rd)
                data := s.mem.readLine pb } with pc := s.pc + 4, draws := t.draws })

/-- A fill of either side changes nothing but the free values, or puts a clean copy of the line, as memory then has it, into one
slot; what that slot held is evicted, its dirty data being in memory or in the write buffer; every other slot of both sides, what
every other byte of memory becomes, and everything else is as before; a data side copy has every earlier store to the line
(10_state R32, R33, 20_memory R71 (a)). Without translation, cacheability or an enabled cache it does nothing (the enable is log
entry 25); nor if it is barred: the line is in a TCM or, on the data side, in some slot already (log entries 39, 52). -/
def Obligations.FillOneSlot : Prop :=
  ∀ (s : State) (side : Side) (mva : Word),
    (cacheEnabled s side = false ∨ (∀ pb, translate s mva (sideAccess side) ≠ .mapped pb true) → fillSlot s side mva = s)
      ∧ ∀ pb t, translate s mva (sideAccess side) = .mapped pb true → t = fillSlot s side mva →
        (fillBarred s side (lineOf mva) pb = true → t = s)
          ∧ (t = { s with draws := t.draws }
            ∨ ∃ r old, getSlot s side r = some old
              ∧ t = { updateSlot s side r fun _ =>
                  { valid := true, dirty := false, fading := false, addr := pb, block := lineOf mva, data := t.mem.readLine pb } with
                mem := t.mem, writeBuffer := t.writeBuffer, draws := t.draws }
              ∧ (∀ q, q ≠ r → getSlot t side q = getSlot s side q)
              ∧ (Memory.wf s.mem →
                (∀ sl ∈ dirtyOf [old], ∀ k : Fin 32, settledByte t (byteOfBlock sl.addr k) = sl.data[k])
                  ∧ (∀ a, (∀ sl ∈ dirtyOf [old], lineOf a ≠ sl.addr) →
                    settledByte t a = settledByte s a ∧ (side = .instr ∨ lineOf a ≠ pb → t.mem.read a = s.mem.read a))
                  ∧ (side = .data → ∀ k : Fin 32, (t.mem.readLine pb)[k] = settledByte t (byteOfBlock pb k))))

/-! ## Status registers and block transfer control -/

/-- 30_encoding R104: an MRC of a status register writes the whole register of Rd: 31 zeros and the status bit. Nothing else
changes but the pc: no other register of the current mode, no status bit. -/
def Obligations.StatusReads : Prop :=
  ∀ (c : Cond) (rd : RegNo) (s : State) (i : Instr) (userOk bit : Bool),
    (i, userOk, bit) ∈ [(Instr.readCdsr c rd, false, s.cdsrC), (.readBtsr c rd, true, s.bt.isSome)] →
    Admitted c userOk [rd] s →
      ∃ t, exec i s = .next t ∧ readReg t rd = 0#31 ++ BitVec.ofBool bit
        ∧ (∀ r, r ≠ rd → r ≠ 15#4 → readReg t r = readReg s r)
        ∧ t = { writeReg s rd (0#31 ++ BitVec.ofBool bit) with pc := s.pc + 4 }

/-- A read of the Cache Dirty Status Register that returns 0 shows a data cache proper without dirty slots, in every state that
keeps the invariant of 10_state R22 (41_entire R150, 44_cdsr R210 (d)). -/
def Obligations.ZeroReadMeansClean : Prop :=
  ∀ (c : Cond) (rd : RegNo) (s t : State), CdsrSound s → Admitted c false [rd] s → exec (.readCdsr c rd) s = .next t →
    readReg t rd = 0 → t.cdsrC = false ∧ ∀ sl ∈ t.dc, sl.isDirty = false

/-- Stop Prefetch Range ends a transfer of either side, in any mode, and changes nothing else (48_btc R251). -/
def Obligations.StopPrefetchRange : Prop :=
  ∀ (c : Cond) (rd : RegNo) (s : State), Admitted c true [rd] s → readReg s rd = 0 →
    ∃ t, exec (.stopPrefetchRange c rd) s = .next t ∧ btsrR t = false
      ∧ t = { s with pc := s.pc + 4, bt := none, btOldPids := [] }

/-! ## Ranges -/

/-- The blocks of a range, ascending, from the Start Address's line to the End Address's, both inclusive (43_range R186). -/
def Obligations.RangeBlocksInclusive : Prop :=
  ∀ start stop : Word, (lineOf start).toNat ≤ (lineOf stop).toNat →
    (∀ b, b ∈ rangeBlocks start stop ↔ (lineOf start).toNat ≤ b.toNat ∧ b.toNat ≤ (lineOf stop).toNat)
      ∧ (rangeBlocks start stop).Pairwise (fun x y => x.toNat < y.toNat)
      ∧ (rangeBlocks start stop).length = (lineOf stop).toNat - (lineOf start).toNat + 1

/-- A blocking invalidate of a range that ends without interrupt or abort: every slot that holds a line of the range, through
`fcse`, is invalidated and no other; nothing goes to memory; a running prefetch is gone; nothing else changes but the pc and what
the interrupt points sample (43_range R180, R181, R189, R197; 20_memory R85). When the loop ends so: `QuietWalksComplete`. -/
def Obligations.RangeInvalidate : Prop :=
  ∀ (c : Cond) (rd rn : RegNo) (s : State) (i : Instr) (side : Side) (acc : Access),
    (i, side, acc) ∈ [(Instr.invIcacheRange c rd rn, Side.instr, Access.fetch), (.invDcacheRange c rd rn, .data, .data)] →
    Admitted c false [rd, rn] s → Premise s → RangeRuns (readReg s rn) (readReg s rd) →
    (walkRange acc (rangeBlocks (readReg s rn) (readReg s rd)) (abandon s)).ended = .completed →
      ∃ t, exec i s = .next t
        ∧ t = { mapSide (treatedBy .invalidate s (rangeBlocks (readReg s rn) (readReg s rd))) s side with
          pc := s.pc + 4, bt := none, btOldPids := [], draws := t.draws, inputs := t.inputs, points := t.points }
        ∧ (quiet s = true → t.draws = s.draws ∧ t.inputs = s.inputs ∧ t.points = s.points)

/-- A blocking clean, or clean and invalidate, of a range that ends without interrupt or abort: the slots of the range are treated,
memory holds what the dirty ones held, every other byte and everything else, C among it, is unchanged, but for what the interrupt
points sample (43_range R182, R183, R189, R197; 20_memory R85). When the loop ends so: `QuietWalksComplete`. That no permission is
checked in User mode is the model's choice, log entry 13 (43_range R182). -/
def Obligations.RangeClean : Prop :=
  ∀ (c : Cond) (rd rn : RegNo) (s : State) (i : Instr) (op : LineOp) (userOk : Bool) (hit : List Slot),
    (i, op, userOk) ∈ [(Instr.cleanDcacheRange c rd rn, LineOp.clean, true),
      (.cleaninvDcacheRange c rd rn, .cleanInvalidate, false)] →
    Admitted c userOk [rd, rn] s → Premise s → Memory.wf s.mem → RangeRuns (readReg s rn) (readReg s rd) →
    (walkRange .data (rangeBlocks (readReg s rn) (readReg s rd)) (abandon s)).ended = .completed →
    hit = dirtyOf (hitBy s .data (rangeBlocks (readReg s rn) (readReg s rd))) → OneDataPerLine hit →
      ∃ t, exec i s = .next t ∧ InMemory hit t ∧ WroteBack hit s t
        ∧ t = { mapSide (treatedBy op s (rangeBlocks (readReg s rn) (readReg s rd))) s .data with
          pc := s.pc + 4, bt := none, btOldPids := [], mem := t.mem, writeBuffer := t.writeBuffer
          draws := t.draws, inputs := t.inputs, points := t.points }
        ∧ (quiet s = true → t.draws = s.draws ∧ t.inputs = s.inputs ∧ t.points = s.points)

/-- A line of a blocking range that does not translate, no interrupt being taken before it: Data Abort, FAR inside the line (its
VA or MVA, log entry 15), DFSR the reason, the link A + 8 and entry by the table of 60_exceptions R270 (GK22, log entries 16, 18); the lines before it stay
treated: their slots, on that side and no other, and memory, where an invalidate leaves everything as before and a clean leaves
what the dirty slots held; nothing else changes but what the interrupt points sample (43_range R197; 60_exceptions R262). -/
def Obligations.RangeTranslationFault : Prop :=
  ∀ (c : Cond) (rd rn : RegNo) (s : State) (i : Instr) (op : LineOp) (side : Side) (acc : Access)
    (pre post : List Block) (b : Block) (r : Word),
    (i, op, side, acc) ∈ blockingOps c rd rn → Admitted c (Instr.userOk s.debugState i) [rd, rn] s → Premise s →
    RangeRuns (readReg s rn) (readReg s rd) → rangeBlocks (readReg s rn) (readReg s rd) = pre ++ b :: post →
    (∀ e, (walkRange acc (rangeBlocks (readReg s rn) (readReg s rd)) (abandon s)).ended ≠ .interrupted e) →
    (∀ x ∈ pre, translates s (fcse s (blockBase x)) acc = true) → translate s (fcse s (blockBase b)) acc = .faults r →
      ∃ t, exec i s = .next t
        ∧ (lineOf t.far = b ∨ lineOf t.far = lineOf (fcse s (blockBase b)))
        ∧ t.dfsr = dfsrOf { va := blockBase b, mva := fcse s (blockBase b), access := acc, reason := r }
        ∧ MemoryAfter op (hitBy s side pre) s t
        ∧ t = { mapSide (treatedBy op s pre) s side with
          pc := s.cfg.vectors.base + s.cfg.vectors.abortOffset, cpsr := entryPsr s.cpsr .abort false true
          spsr := { s.spsr with abt := s.cpsr }, regs := { s.regs with abtBank := { s.regs.abtBank with lr := s.pc + 8 } }
          far := t.far, dfsr := t.dfsr, bt := none, btOldPids := [], mem := t.mem, writeBuffer := t.writeBuffer
          draws := t.draws, inputs := t.inputs, points := t.points }
        ∧ (quiet s = true → t.draws = s.draws ∧ t.inputs = s.inputs ∧ t.points = s.points)

/-- An interrupted blocking range operation: the handler entered is that of the interrupt the loop ended with, which the levels
sampled last assert and no mask holds back; the link is A + 4; the lines passed stay treated: their slots, SmartCache slots among
them, on that side and no other, and memory, where an invalidate leaves everything as before and a clean leaves what the dirty
slots held; no transfer is left; FAR, DFSR, C and everything else is unchanged, but for what the interrupt points sample (43_range
R198; 60_exceptions R263, R264, R267, R268). -/
def Obligations.RangeInterrupted : Prop :=
  ∀ (c : Cond) (rd rn : RegNo) (s : State) (i : Instr) (op : LineOp) (side : Side) (acc : Access) (e : Event)
    (w : RangeWalk) (passed : List Block),
    (i, op, side, acc) ∈ blockingOps c rd rn → Admitted c (Instr.userOk s.debugState i) [rd, rn] s → Premise s →
    RangeRuns (readReg s rn) (readReg s rd) → w = walkRange acc (rangeBlocks (readReg s rn) (readReg s rd)) (abandon s) →
    w.ended = .interrupted e → passed = (rangeBlocks (readReg s rn) (readReg s rd)).take w.treated →
      ∃ t, exec i s = .next t ∧ EnteredInterrupt e (s.pc + 4) s t ∧ Pending e t.inputs s.cpsr
        ∧ MemoryAfter op (hitBy s side passed) s t
        ∧ t = { mapSide (treatedBy op s passed) s side with
          pc := t.pc, cpsr := t.cpsr, spsr := t.spsr, regs := t.regs, bt := none, btOldPids := [], mem := t.mem
          writeBuffer := t.writeBuffer, draws := t.draws, inputs := t.inputs, points := t.points }

/-- Start Address above End Address (43_range R187): no cache operation, no abort, no transfer started; whether a running
Prefetch Range is abandoned is open (U5, log entry 38). On one line, with the low address bits of Start above those of End, the
hardware does that or operates on the line, as the same instruction does with the Start Address for both (U6). -/
def Obligations.StartAboveEnd : Prop :=
  ∀ (c : Cond) (rd rn : RegNo) (s : State) (k : Fin 6) (i j : Instr), (rangeOps c rd rn)[k]? = some i →
    (rangeOps c rn rn)[k]? = some j → Admitted c (Instr.userOk s.debugState i) [rd, rn] s → Premise s →
      ((lineOf (readReg s rd)).toNat < (lineOf (readReg s rn)).toNat →
        ∃ t, exec i s = .next t
          ∧ (t.bt = s.bt ∧ t.btOldPids = s.btOldPids ∨ t.bt = none ∧ t.btOldPids = [])
          ∧ t = { s with pc := s.pc + 4, bt := t.bt, btOldPids := t.btOldPids, draws := t.draws })
        ∧ (lineOf (readReg s rn) = lineOf (readReg s rd) →
          ((readReg s rd).extractLsb' 0 5).toNat < ((readReg s rn).extractLsb' 0 5).toNat →
            exec i s = .next (advance (noRange (afterDraw s))) ∨ exec i s = exec j (afterDraw s))

/-- A Prefetch Range starts the engine at the Start Address's line and goes on at once; open to User mode; it raises nothing and
touches nothing else (43_range R184, R185, R190, R191). -/
def Obligations.PrefetchRangeStarts : Prop :=
  ∀ (c : Cond) (rd rn : RegNo) (s : State) (i : Instr) (side : Side),
    (i, side) ∈ [(Instr.prefetchIcacheRange c rd rn, Side.instr), (.prefetchDcacheRange c rd rn, .data)] →
    Admitted c true [rd, rn] s → Premise s → RangeRuns (readReg s rn) (readReg s rd) →
      ∃ t, exec i s = .next t ∧ btsrR t = true
        ∧ t = { s with
          pc := s.pc + 4, btOldPids := []
          bt := some { side := side, cur := lineOf (readReg s rn), last := lineOf (readReg s rd) } }

/-- One transfer at a time: a range operation acts as if no transfer had been running, and leaves the one it started or none
(43_range R189). -/
def Obligations.NewTransferAbandonsOld : Prop :=
  ∀ (c : Cond) (rd rn : RegNo) (s : State) (i : Instr), i ∈ rangeOps c rd rn →
    Admitted c (Instr.userOk s.debugState i) [rd, rn] s → Premise s → RangeRuns (readReg s rn) (readReg s rd) →
      exec i s = exec i { s with bt := none, btOldPids := [] }
        ∧ ∀ t, exec i s = .next t → t.bt = none ∨ ∃ side,
          t.bt = some { side := side, cur := lineOf (readReg s rn), last := lineOf (readReg s rd) }

/-- 43_range R193: a step of the engine that handles the last block ends the transfer, and R reads 0. -/
def Obligations.EngineEnds : Prop :=
  ∀ (s : State) (memFault : Bool) (rest : List Action) (x : Transfer), s.agenda = .engine memFault :: rest →
    s.bt = some x → x.cur = x.last → ∃ t, step s = .next t ∧ t.bt = none ∧ btsrR t = false

/-- A step of the engine: with a fault the whole transfer ends silently (the reading of 43_range R194 that ends it, log entry 37);
else the line is offered to a fill, which is `fillSlot` on the line and side of the transfer (`FillOneSlot` says all it can do),
and the transfer moves on by one block or ends. The FCSE PID it uses is the current one or one that was replaced while it ran,
the list of which is the model's own (R192, R194, R195; log entry 37). -/
def Obligations.EngineStep : Prop :=
  ∀ (s : State) (memFault : Bool) (rest : List Action) (x : Transfer), s.agenda = .engine memFault :: rest →
    s.bt = some x →
      ∃ t pid draws, step s = .next t ∧ pid ∈ s.fcsePid :: s.btOldPids ∧ (s.btOldPids = [] → draws = s.draws)
        ∧ (memFault = true ∨ translates s (fcseWith s.cfg pid (blockBase x.cur)) (sideAccess x.side) = false →
          t = { s with agenda := rest, bt := none, btOldPids := [], draws := draws })
        ∧ (memFault = false → translates s (fcseWith s.cfg pid (blockBase x.cur)) (sideAccess x.side) = true →
          t = { fillSlot { s with agenda := rest, draws := draws } x.side (fcseWith s.cfg pid (blockBase x.cur)) with
            bt := if x.cur = x.last then none else some { x with cur := x.cur + 1 }
            btOldPids := if x.cur = x.last then [] else s.btOldPids })

/-! ## Flushes, barriers, Wait For Interrupt -/

/-- The flushes (45_flush R220 to R223, 20_memory R75, R86, 30_encoding R102): the prefetch buffer in every mode, at once; the
branch target cache in privileged modes or in debug state; the entries of the 8 bytes at mva[31:3] : 0b000, whatever mva[2:0] is,
in privileged modes; the last two at once or at the latest after a Data Synchronization Barrier (70_reset R306, log entry 41).
Nothing else changes but the pc. -/
def Obligations.Flushes : Prop :=
  ∀ (c : Cond) (rd : RegNo) (s : State),
    (Admitted c true [rd] s → readReg s rd = 0 →
        exec (.flushPrefetchBuffer c rd) s = .next { s with pc := s.pc + 4, pfb := [] })
      ∧ (Admitted c s.debugState [rd] s → readReg s rd = 0 →
        ∃ t, exec (.flushBtcAll c rd) s = .next t ∧ (∀ x ∈ t.btac, x.fading = true) ∧ AfterDsb t (fun u => u.btac = [])
          ∧ t.btac.length ≤ s.btac.length ∧ t = { s with pc := s.pc + 4, btac := t.btac, draws := t.draws })
      ∧ (Admitted c false [rd] s →
        ∃ t, exec (.flushBtcMva c rd) s = .next t
          ∧ (∀ x, x.addr.extractLsb' 3 29 ≠ (readReg s rd).extractLsb' 3 29 → (x ∈ t.btac ↔ x ∈ s.btac))
          ∧ (∀ x ∈ t.btac, x.addr.extractLsb' 3 29 = (readReg s rd).extractLsb' 3 29 → x.fading = true)
          ∧ AfterDsb t (fun u => ∀ x,
            x ∈ u.btac ↔ x ∈ s.btac ∧ x.fading = false ∧ x.addr.extractLsb' 3 29 ≠ (readReg s rd).extractLsb' 3 29)
          ∧ t.btac.length ≤ s.btac.length ∧ t = { s with pc := s.pc + 4, btac := t.btac, draws := t.draws })

/-- Data Synchronization Barrier: nothing is left in the write buffer, every byte of memory is what it was to become; every
invalidation and flush that was under way is complete, with C cleared if one of the whole data cache was among them, and no
other slot or entry is touched; engine and everything else are unchanged (46_barriers R230; 20_memory R72, R73, R76; 70_reset R306; what can be under way is log entry 41). -/
def Obligations.DataSynchronizationBarrier : Prop :=
  ∀ (c : Cond) (rd : RegNo) (s : State), Admitted c true [rd] s → readReg s rd = 0 →
    ∃ t, exec (.dsb c rd) s = .next t ∧ t.writeBuffer = [] ∧ (∀ a, t.mem.read a = settledByte s a)
      ∧ (∀ side, ∀ sl ∈ sideSlots t side, sl.valid = true → sl.fading = false) ∧ (∀ x ∈ t.btac, x.fading = false)
      ∧ t = { s with
        pc := s.pc + 4, mem := t.mem, writeBuffer := [], dc := s.dc.map Slot.settled, ic := s.ic.map Slot.settled
        tcmD := s.tcmD.map (Tcm.mapSlots Slot.settled), tcmI := s.tcmI.map (Tcm.mapSlots Slot.settled)
        btac := s.btac.filter fun x => !x.fading, cdsrC := s.cdsrC && !s.cdsrClearing, cdsrClearing := false }

/-- Data Memory Barrier: no explicit transaction is left outstanding, and the last explicit byte to an address that nothing later
goes to is in memory; what every byte becomes is unchanged; it need not wait for cleaned lines (46_barriers R231, 20_memory
R74; which older bytes it completes is log entry 29). -/
def Obligations.DataMemoryBarrier : Prop :=
  ∀ (c : Cond) (rd : RegNo) (s : State), Admitted c true [rd] s → readReg s rd = 0 → Memory.wf s.mem →
    ∃ t, exec (.dmb c rd) s = .next t ∧ (∀ p ∈ t.writeBuffer, p.explicit = false) ∧ t.writeBuffer.Sublist s.writeBuffer
      ∧ (∀ a, settledByte t a = settledByte s a)
      ∧ (∀ l p r, s.writeBuffer = l ++ p :: r → p.explicit = true → (∀ q ∈ r, q.addr ≠ p.addr) →
        t.mem.read p.addr = p.byte)
      ∧ t = { s with pc := s.pc + 4, mem := t.mem, writeBuffer := t.writeBuffer }

/-- Wait For Interrupt enters standby and changes nothing else; the pc stays until the wake (47_wfi R240). -/
def Obligations.WaitForInterrupt : Prop :=
  ∀ (c : Cond) (rd : RegNo) (s : State), Admitted c false [rd] s → readReg s rd = 0 →
    exec (.wfi c rd) s = .next { s with standby := true }

/-- In standby the core wakes exactly when one of the four inputs is asserted, whatever the masks: the MCR completes. Else it
stays as it is. If an IRQ or FIQ alone is enabled, the step after the wake takes it with the link A + 8, A the address of the
MCR (47_wfi R241, R242; 60_exceptions R268, R282 (c); decision D16). -/
def Obligations.WakeWhateverTheMasks : Prop :=
  ∀ s : State, s.agenda = [] → s.standby = true →
    (s.inputs.irq = true ∨ s.inputs.fiq = true ∨ s.inputs.impreciseAbort = true ∨ s.inputs.debugRequest = true →
        step s = .next { s with standby := false, pc := s.pc + 4 })
      ∧ (s.inputs.irq = false → s.inputs.fiq = false → s.inputs.impreciseAbort = false → s.inputs.debugRequest = false →
        step s = .next s)
      ∧ ∀ (e : Event) (x : Exc), (e, x) ∈ [(Event.irq, Exc.irq), (.fiq, .fiq)] → enabledEvents s = [e] →
        ∃ u, step s = .next u ∧ step u = .next (takeException x (s.pc + 8) { s with standby := false, pc := s.pc + 4 })

/-- 10_state R37: while standby is 1 no step of the core executes an instruction; standby is set only by executing Wait For
Interrupt and cleared only by the wake step, which needs an asserted input. -/
def Obligations.StandbyChanges : Prop :=
  ∀ s t : State, step s = .next t →
    (s.standby = true → t.standby = true → t.pc = s.pc ∧ t.regs = s.regs ∧ t.cpsr = s.cpsr)
      ∧ (s.standby = true → t.standby = false →
        s.inputs.anyAsserted = true ∧ t = { s with standby := false, pc := s.pc + 4, agenda := t.agenda })
      ∧ (s.standby = false → t.standby = true →
        ∃ s0 w s1 c rd, s0 = { s with agenda := t.agenda } ∧ fetchWord s0 = .ok (w, s1) ∧ decode w = .ok (.wfi c rd)
          ∧ t = { s1 with standby := true })

/-! ## Exceptions -/

/-- Exception entry: the table of 60_exceptions R270 (GK22; log entry 16): which mode, what the CPSR becomes, what the SPSR and
r14 of that mode take, where the pc goes, as launched too, and that nothing else changes. That bit 24 (Jazelle) is cleared and that the prefetch buffer
is kept are the model's choices, log entries 35 and 31 (N47). -/
def Obligations.ExceptionEntry : Prop :=
  ∀ (e : Exc) (link : Word) (s t : State), t = takeException e link s →
    t.pc = s.cfg.vectors.base + e.offset s.cfg.vectors
      ∧ t.spsr.of (some e.mode) = some s.cpsr ∧ (∀ m, m ≠ some e.mode → t.spsr.of m = s.spsr.of m)
      ∧ t.regs.bank (some e.mode) = { sp := (s.regs.bank (some e.mode)).sp, lr := link }
      ∧ (∀ m, m ≠ some e.mode → t.regs.bank m = s.regs.bank m)
      ∧ t.regs.usr = s.regs.usr ∧ t.regs.fiqHigh = s.regs.fiqHigh
      ∧ modeOf t = some e.mode ∧ psrT t.cpsr = false ∧ psrI t.cpsr = true
      ∧ psrF t.cpsr = (psrF s.cpsr || e == .fiq) ∧ psrA t.cpsr = (psrA s.cpsr || e != .undefinedInstruction)
      ∧ (∀ k, 9 ≤ k → k ≠ 24 → t.cpsr.getLsbD k = s.cpsr.getLsbD k) ∧ psrJ t.cpsr = false
      ∧ t = { s with pc := t.pc, cpsr := t.cpsr, spsr := t.spsr, regs := t.regs }
      ∧ (s.cfg.vectors = launchParams.vectors →
        (e, psrMode t.cpsr, t.pc) ∈ [(Exc.undefinedInstruction, 0b11011#5, 0x04#32), (.dataAbort, 0b10111#5, 0x10#32),
          (.impreciseAbort, 0b10111#5, 0x10#32), (.irq, 0b10010#5, 0x18#32), (.fiq, 0b10001#5, 0x1C#32)])

/-- Which events are enabled between two instructions, and, one of them, no order being fixed, taken before the next
instruction, at B: IRQ and FIQ with the link B + 4 (60_exceptions R263, R264, R268, R269); an imprecise abort by the table with a
free link, FAR and DFSR (R265, log entry 17); a debug request leaves the spec (R266, log entry 34). That an enabled event is always
taken before the next instruction is the model's choice, log entry 12 (R267 calls it a matter of latency outside the source);
that debug state changes none of this is log entry 34. -/
def Obligations.EventTaken : Prop :=
  ∀ s : State, s.agenda = [] → s.standby = false →
    (.irq ∈ enabledEvents s ↔ s.inputs.irq = true ∧ psrI s.cpsr = false)
      ∧ (.fiq ∈ enabledEvents s ↔ s.inputs.fiq = true ∧ psrF s.cpsr = false)
      ∧ (.impreciseAbort ∈ enabledEvents s ↔ s.inputs.impreciseAbort = true ∧ psrA s.cpsr = false)
      ∧ (.debugRequest ∈ enabledEvents s ↔ s.inputs.debugRequest = true)
      ∧ (enabledEvents s ≠ [] → ∃ e draws, e ∈ enabledEvents s
        ∧ (e = .irq → step s = .next (takeException .irq (s.pc + 4) { s with draws := draws }))
        ∧ (e = .fiq → step s = .next (takeException .fiq (s.pc + 4) { s with draws := draws }))
        ∧ (e = .impreciseAbort → ∃ link far dfsr, step s = .next
          (takeException .impreciseAbort link { s with far := far, dfsr := dfsr, draws := draws }))
        ∧ (e = .debugRequest → step s = .refused .debugLogic))

/-- The return instructions SUBS PC,R14,#4, SUBS PC,R14,#8 and MOVS PC,R14 (60_exceptions R271; GK22; the word of the last is
log entry 19): pc from r14, CPSR from the SPSR of the mode; refused in a mode without SPSR. That the prefetch
buffer is kept is the model's choice, log entry 31. -/
def Obligations.ReturnInstructions : Prop :=
  ∀ (s s1 : State) (w k : Word), RunsNext s → fetchWord s = .ok (w, s1) →
    (w, k) ∈ [(0xE25EF004#32, 4#32), (0xE25EF008#32, 8#32), (0xE1B0F00E#32, 0#32)] →
      (∀ p, s.spsr.of (modeOf s) = some p →
          step s = .next { s1 with pc := (s.regs.bank (modeOf s)).lr - k, cpsr := p })
        ∧ (s.spsr.of (modeOf s) = none → step s = .refused .noSavedStatus)

/-- Returning undoes entry: after any exception with any link, a return that subtracts k resumes at link - k with the CPSR of
before (60_exceptions R270, R271). -/
def Obligations.ReturnUndoesEntry : Prop :=
  ∀ (e : Exc) (link k : Word) (s t : State), t = takeException e link s →
    exceptionReturn k t = .next { t with pc := link - k, cpsr := s.cpsr }

/-! ## The whole machine -/

/-- What User mode cannot do with c7: without an exception entry an instruction executed there leaves the instruction side, C,
standby, the other modes' registers, the SPSRs, FAR and DFSR alone, makes no data side slot valid or invalid, and outside debug
state leaves the branch target cache alone; except that it can complete the invalidations and flushes that a privileged mode left
under way, all of them, with what one of the whole data cache does to C (a Data Synchronization Barrier; log entry 41)
(60_exceptions R276, 40_access R123). -/
def Obligations.UserModeLimits : Prop :=
  ∀ (i : Instr) (s t : State), psrMode s.cpsr = 0b10000#5 → exec i s = .next t → t.cpsr = s.cpsr →
    (t.cdsrC = s.cdsrC ∨ s.cdsrClearing = true ∧ t.cdsrC = false) ∧ t.standby = s.standby ∧ t.spsr = s.spsr ∧ t.far = s.far ∧ t.dfsr = s.dfsr
      ∧ (∃ f : Slot → Slot, (f = id ∨ f = Slot.settled) ∧ t.ic = s.ic.map f ∧ t.tcmI = s.tcmI.map (Tcm.mapSlots f)
        ∧ t.dc.map (·.valid) = (s.dc.map f).map (·.valid)
        ∧ (smartSlots t.tcmD).map (·.valid) = ((smartSlots s.tcmD).map f).map (·.valid))
      ∧ (∀ m, m ≠ some .user → m ≠ some .system → m ≠ none → t.regs.bank m = s.regs.bank m)
      ∧ t.regs.fiqHigh = s.regs.fiqHigh
      ∧ (s.debugState = false → t.btac = s.btac ∨ t.btac = s.btac.filter fun x => !x.fading)

/-- R goes from 0 to 1 in no step but one that fetches, decodes and executes a Prefetch Range (48_btc R250 (c), 43_range R190). -/
def Obligations.OnlyPrefetchRangeStarts : Prop :=
  ∀ s t : State, step s = .next t → btsrR s = false → btsrR t = true →
    ∃ s1 w i c rd rn, fetchWord { s with agenda := t.agenda } = .ok (w, s1) ∧ decode w = .ok i
      ∧ i ∈ [Instr.prefetchIcacheRange c rd rn, .prefetchDcacheRange c rd rn] ∧ exec i s1 = .next t

/-- C goes from 1 to 0 in no step but one that fetches, decodes and executes one of four operations (10_state R22 (b), (d)), or
that completes one of the two invalidates among them which is under way (70_reset R306; log entry 41): a Data Synchronization
Barrier, or the move that completes it. One of the two is under way only once it is executed. No instruction of this spec sets C
(44_cdsr; 43_range R185), and in standby nothing does. -/
def Obligations.OnlyFourClearDirty : Prop :=
  ∀ s t : State, step s = .next t →
    (s.cdsrC = true → t.cdsrC = false →
        (∃ s1 w i c rd, fetchWord { s with agenda := t.agenda } = .ok (w, s1) ∧ decode w = .ok i
          ∧ (i ∈ [Instr.cleanDcacheAll c rd, .cleaninvDcacheAll c rd, .invDcacheAll c rd, .invBothAll c rd]
            ∨ i = .dsb c rd ∧ s.cdsrClearing = true) ∧ exec i s1 = .next t)
        ∨ s.cdsrClearing = true ∧ (∀ sl ∈ s.dc, sl.fading = false) ∧ s.agenda = .settleCdsr :: t.agenda)
      ∧ (s.cdsrClearing = false → t.cdsrClearing = true →
        ∃ s1 w i c rd, fetchWord { s with agenda := t.agenda } = .ok (w, s1) ∧ decode w = .ok i
          ∧ i ∈ [Instr.invDcacheAll c rd, .invBothAll c rd] ∧ exec i s1 = .next t)
      ∧ (s.cdsrC = false → t.cdsrC = true → s.standby = false ∧ ∃ mva bytes rest, s.agenda = .store mva bytes :: rest)

/-- 10_state R54: after reset C is 0, and bits [31:1] of the register read as zero always. -/
def Obligations.ResetClearsDirty : Prop :=
  State.reset.cdsrC = false
    ∧ ∀ (c : Cond) (rd : RegNo) (s : State), Admitted c false [rd] s →
      ∃ t, exec (.readCdsr c rd) s = .next t ∧ readReg t rd &&& 0xFFFFFFFE#32 = 0

/-- The other reset values the spec gives: no transfer, not in standby, no data cache slot dirty (10_state R55 to R57). -/
def Obligations.ResetState : Prop :=
  State.reset.bt = none ∧ btsrR State.reset = false ∧ State.reset.standby = false
    ∧ ∀ sl ∈ State.reset.dc ++ State.reset.ic, sl.dirty = false

/-- The reset state has the invariant. That its modes are legal, its caches have their shape and the Cache Type Register reports
it (70_reset R296 (f)) rests on log entries 2, 3, 5. -/
def Obligations.ResetInvariant : Prop := Inv State.reset

/-- Every step keeps the invariant: memory in canonical form, C = 0 only without dirty slots (10_state R22), the instruction
side never dirty (R27), the caches in their shape (R26) as the Cache Type Register reports it (70_reset R296 (f)), a running
transfer not past its end (43_range R192), legal modes (60_exceptions R275), no dirty slot that an invalidate of the whole data
cache which is under way does not take with it (70_reset R306, log entry 41). -/
def Obligations.StepKeepsInvariant : Prop := ∀ s t : State, Inv s → step s = .next t → Inv t

/-! ## The loops and the cache hardware -/

/-- Which interrupts the blocking loops take, and when they take none. The one taken at an interrupt point is asserted there, by
the levels sampled at that point (those of before, or some the environment presents; log entry 11), and its mask is clear. With
nothing asserted that is unmasked and no new levels presented, or with both masks set, whatever levels the environment presents,
an entire clean takes none, and a range takes none and completes exactly when every block of it translates (41_entire R146,
43_range R197, R198; 60_exceptions R263, R264, R267). -/
def Obligations.QuietWalksComplete : Prop :=
  ∀ (s : State) (acc : Access) (slots : List Slot) (bs : List Block),
    (∀ e, (walkPoints slots s).taken = some e →
        Pending e (walkPoints slots s).after.inputs s.cpsr ∧ (walkPoints slots s).after.inputs ∈ s.inputs :: s.points)
      ∧ (∀ e, (walkRange acc bs s).ended = .interrupted e →
        Pending e (walkRange acc bs s).after.inputs s.cpsr ∧ (walkRange acc bs s).after.inputs ∈ s.inputs :: s.points)
      ∧ (quiet s = true ∨ psrI s.cpsr = true ∧ psrF s.cpsr = true →
        (walkPoints slots s).taken = none ∧ (∀ e, (walkRange acc bs s).ended ≠ .interrupted e)
          ∧ ((walkRange acc bs s).ended = .completed ↔ ∀ b ∈ bs, translates s (fcse s (blockBase b)) acc = true))

/-- What the cache hardware does by itself: an eviction invalidates the named slot and a clean keeps it, its dirty data being in
memory or in the write buffer and every other byte as before, also where the invalidation of the slot is under way; an
invalidation under way completes, writing nothing; one of the whole data cache is complete when that of every slot is, and C is
then clear; a byte that leaves the write buffer is in memory at its address, and no other address changes, but nothing happens
while an older byte goes to the same address, or where there is no such byte: what any byte becomes once the buffer is empty is
as before, and bytes to different addresses leave in any order; nothing else changes (10_state R22 (b), R33, R38; 20_memory R71
(a), (b), (d); 70_reset R306, log entries 28, 41). -/
def Obligations.CacheHardwareMoves : Prop :=
  ∀ (s t : State) (side : Side) (r : SlotRef) (rest : List Action), Memory.wf s.mem → step s = .next t →
    (s.agenda = .evict side r :: rest → WroteBack (dirtyOf (getSlot s side r).toList) s t
        ∧ t = { updateSlot s side r Slot.invalidated with
          agenda := rest, mem := t.mem, writeBuffer := t.writeBuffer, draws := t.draws })
      ∧ (s.agenda = .clean r :: rest → WroteBack (dirtyOf (getSlot s .data r).toList) s t
        ∧ t = { updateSlot s .data r Slot.cleaned with
          agenda := rest, mem := t.mem, writeBuffer := t.writeBuffer, draws := t.draws })
      ∧ (s.agenda = .settle side r :: rest →
        t = { updateSlot s side r (fun sl => if sl.fading then sl.invalidated else sl) with agenda := rest })
      ∧ (s.agenda = .settleCdsr :: rest →
        (s.cdsrClearing = true → (∀ sl ∈ s.dc, sl.fading = false) →
            t = { s with agenda := rest, cdsrC := false, cdsrClearing := false })
          ∧ (s.cdsrClearing = false ∨ (∃ sl ∈ s.dc, sl.fading = true) → t = { s with agenda := rest }))
      ∧ ∀ k, s.agenda = .drain k :: rest →
        (∀ a, settledByte t a = settledByte s a)
          ∧ (s.writeBuffer[k]? = none → t = { s with agenda := rest })
          ∧ ∀ p, s.writeBuffer[k]? = some p →
            ((∃ q ∈ s.writeBuffer.take k, q.addr = p.addr) → t = { s with agenda := rest })
              ∧ ((∀ q ∈ s.writeBuffer.take k, q.addr ≠ p.addr) →
                t.mem.read p.addr = p.byte ∧ (∀ a, a ≠ p.addr → t.mem.read a = s.mem.read a)
                  ∧ t = { s with agenda := rest, mem := t.mem, writeBuffer := s.writeBuffer.eraseIdx k })
end

