-- ==== Sys2Proof/Laws/State.lean ====
section
/-! SUPPORT. What each named update of the state leaves in each field, one lemma per field, each by `rfl`. -/

namespace Sys2Proof.Machine

/-! ## `advance` -/

@[simp] theorem advance_regs (s : State) : (advance s).regs = s.regs := rfl
@[simp] theorem advance_pc (s : State) : (advance s).pc = s.pc + 4 := rfl
@[simp] theorem advance_cpsr (s : State) : (advance s).cpsr = s.cpsr := rfl
@[simp] theorem advance_spsr (s : State) : (advance s).spsr = s.spsr := rfl
@[simp] theorem advance_cdsrC (s : State) : (advance s).cdsrC = s.cdsrC := rfl
@[simp] theorem advance_cdsrClearing (s : State) : (advance s).cdsrClearing = s.cdsrClearing := rfl
@[simp] theorem advance_dc (s : State) : (advance s).dc = s.dc := rfl
@[simp] theorem advance_ic (s : State) : (advance s).ic = s.ic := rfl
@[simp] theorem advance_tcmD (s : State) : (advance s).tcmD = s.tcmD := rfl
@[simp] theorem advance_tcmI (s : State) : (advance s).tcmI = s.tcmI := rfl
@[simp] theorem advance_btac (s : State) : (advance s).btac = s.btac := rfl
@[simp] theorem advance_pfb (s : State) : (advance s).pfb = s.pfb := rfl
@[simp] theorem advance_writeBuffer (s : State) : (advance s).writeBuffer = s.writeBuffer := rfl
@[simp] theorem advance_bt (s : State) : (advance s).bt = s.bt := rfl
@[simp] theorem advance_standby (s : State) : (advance s).standby = s.standby := rfl
@[simp] theorem advance_mem (s : State) : (advance s).mem = s.mem := rfl
@[simp] theorem advance_cacheType (s : State) : (advance s).cacheType = s.cacheType := rfl
@[simp] theorem advance_ctrl (s : State) : (advance s).ctrl = s.ctrl := rfl
@[simp] theorem advance_aux (s : State) : (advance s).aux = s.aux := rfl
@[simp] theorem advance_far (s : State) : (advance s).far = s.far := rfl
@[simp] theorem advance_dfsr (s : State) : (advance s).dfsr = s.dfsr := rfl
@[simp] theorem advance_fcsePid (s : State) : (advance s).fcsePid = s.fcsePid := rfl
@[simp] theorem advance_mmu (s : State) : (advance s).mmu = s.mmu := rfl
@[simp] theorem advance_lockdown (s : State) : (advance s).lockdown = s.lockdown := rfl
@[simp] theorem advance_debugState (s : State) : (advance s).debugState = s.debugState := rfl
@[simp] theorem advance_inputs (s : State) : (advance s).inputs = s.inputs := rfl
@[simp] theorem advance_cfg (s : State) : (advance s).cfg = s.cfg := rfl
@[simp] theorem advance_btOldPids (s : State) : (advance s).btOldPids = s.btOldPids := rfl
@[simp] theorem advance_draws (s : State) : (advance s).draws = s.draws := rfl
@[simp] theorem advance_agenda (s : State) : (advance s).agenda = s.agenda := rfl
@[simp] theorem advance_points (s : State) : (advance s).points = s.points := rfl

/-! ## `afterDraw` -/

@[simp] theorem afterDraw_regs (s : State) : (afterDraw s).regs = s.regs := rfl
@[simp] theorem afterDraw_pc (s : State) : (afterDraw s).pc = s.pc := rfl
@[simp] theorem afterDraw_cpsr (s : State) : (afterDraw s).cpsr = s.cpsr := rfl
@[simp] theorem afterDraw_spsr (s : State) : (afterDraw s).spsr = s.spsr := rfl
@[simp] theorem afterDraw_cdsrC (s : State) : (afterDraw s).cdsrC = s.cdsrC := rfl
@[simp] theorem afterDraw_cdsrClearing (s : State) : (afterDraw s).cdsrClearing = s.cdsrClearing := rfl
@[simp] theorem afterDraw_dc (s : State) : (afterDraw s).dc = s.dc := rfl
@[simp] theorem afterDraw_ic (s : State) : (afterDraw s).ic = s.ic := rfl
@[simp] theorem afterDraw_tcmD (s : State) : (afterDraw s).tcmD = s.tcmD := rfl
@[simp] theorem afterDraw_tcmI (s : State) : (afterDraw s).tcmI = s.tcmI := rfl
@[simp] theorem afterDraw_btac (s : State) : (afterDraw s).btac = s.btac := rfl
@[simp] theorem afterDraw_pfb (s : State) : (afterDraw s).pfb = s.pfb := rfl
@[simp] theorem afterDraw_writeBuffer (s : State) : (afterDraw s).writeBuffer = s.writeBuffer := rfl
@[simp] theorem afterDraw_bt (s : State) : (afterDraw s).bt = s.bt := rfl
@[simp] theorem afterDraw_standby (s : State) : (afterDraw s).standby = s.standby := rfl
@[simp] theorem afterDraw_mem (s : State) : (afterDraw s).mem = s.mem := rfl
@[simp] theorem afterDraw_cacheType (s : State) : (afterDraw s).cacheType = s.cacheType := rfl
@[simp] theorem afterDraw_ctrl (s : State) : (afterDraw s).ctrl = s.ctrl := rfl
@[simp] theorem afterDraw_aux (s : State) : (afterDraw s).aux = s.aux := rfl
@[simp] theorem afterDraw_far (s : State) : (afterDraw s).far = s.far := rfl
@[simp] theorem afterDraw_dfsr (s : State) : (afterDraw s).dfsr = s.dfsr := rfl
@[simp] theorem afterDraw_fcsePid (s : State) : (afterDraw s).fcsePid = s.fcsePid := rfl
@[simp] theorem afterDraw_mmu (s : State) : (afterDraw s).mmu = s.mmu := rfl
@[simp] theorem afterDraw_lockdown (s : State) : (afterDraw s).lockdown = s.lockdown := rfl
@[simp] theorem afterDraw_debugState (s : State) : (afterDraw s).debugState = s.debugState := rfl
@[simp] theorem afterDraw_inputs (s : State) : (afterDraw s).inputs = s.inputs := rfl
@[simp] theorem afterDraw_cfg (s : State) : (afterDraw s).cfg = s.cfg := rfl
@[simp] theorem afterDraw_btOldPids (s : State) : (afterDraw s).btOldPids = s.btOldPids := rfl
@[simp] theorem afterDraw_draws (s : State) : (afterDraw s).draws = s.draws.tail := rfl
@[simp] theorem afterDraw_agenda (s : State) : (afterDraw s).agenda = s.agenda := rfl
@[simp] theorem afterDraw_points (s : State) : (afterDraw s).points = s.points := rfl

/-! ## `abandon` -/

@[simp] theorem abandon_regs (s : State) : (abandon s).regs = s.regs := rfl
@[simp] theorem abandon_pc (s : State) : (abandon s).pc = s.pc := rfl
@[simp] theorem abandon_cpsr (s : State) : (abandon s).cpsr = s.cpsr := rfl
@[simp] theorem abandon_spsr (s : State) : (abandon s).spsr = s.spsr := rfl
@[simp] theorem abandon_cdsrC (s : State) : (abandon s).cdsrC = s.cdsrC := rfl
@[simp] theorem abandon_cdsrClearing (s : State) : (abandon s).cdsrClearing = s.cdsrClearing := rfl
@[simp] theorem abandon_dc (s : State) : (abandon s).dc = s.dc := rfl
@[simp] theorem abandon_ic (s : State) : (abandon s).ic = s.ic := rfl
@[simp] theorem abandon_tcmD (s : State) : (abandon s).tcmD = s.tcmD := rfl
@[simp] theorem abandon_tcmI (s : State) : (abandon s).tcmI = s.tcmI := rfl
@[simp] theorem abandon_btac (s : State) : (abandon s).btac = s.btac := rfl
@[simp] theorem abandon_pfb (s : State) : (abandon s).pfb = s.pfb := rfl
@[simp] theorem abandon_writeBuffer (s : State) : (abandon s).writeBuffer = s.writeBuffer := rfl
@[simp] theorem abandon_bt (s : State) : (abandon s).bt = none := rfl
@[simp] theorem abandon_standby (s : State) : (abandon s).standby = s.standby := rfl
@[simp] theorem abandon_mem (s : State) : (abandon s).mem = s.mem := rfl
@[simp] theorem abandon_cacheType (s : State) : (abandon s).cacheType = s.cacheType := rfl
@[simp] theorem abandon_ctrl (s : State) : (abandon s).ctrl = s.ctrl := rfl
@[simp] theorem abandon_aux (s : State) : (abandon s).aux = s.aux := rfl
@[simp] theorem abandon_far (s : State) : (abandon s).far = s.far := rfl
@[simp] theorem abandon_dfsr (s : State) : (abandon s).dfsr = s.dfsr := rfl
@[simp] theorem abandon_fcsePid (s : State) : (abandon s).fcsePid = s.fcsePid := rfl
@[simp] theorem abandon_mmu (s : State) : (abandon s).mmu = s.mmu := rfl
@[simp] theorem abandon_lockdown (s : State) : (abandon s).lockdown = s.lockdown := rfl
@[simp] theorem abandon_debugState (s : State) : (abandon s).debugState = s.debugState := rfl
@[simp] theorem abandon_inputs (s : State) : (abandon s).inputs = s.inputs := rfl
@[simp] theorem abandon_cfg (s : State) : (abandon s).cfg = s.cfg := rfl
@[simp] theorem abandon_btOldPids (s : State) : (abandon s).btOldPids = [] := rfl
@[simp] theorem abandon_draws (s : State) : (abandon s).draws = s.draws := rfl
@[simp] theorem abandon_agenda (s : State) : (abandon s).agenda = s.agenda := rfl
@[simp] theorem abandon_points (s : State) : (abandon s).points = s.points := rfl

/-! ## `flushBtac` -/

@[simp] theorem flushBtac_regs (late : Bool) (s : State) : (flushBtac late s).regs = s.regs := rfl
@[simp] theorem flushBtac_pc (late : Bool) (s : State) : (flushBtac late s).pc = s.pc := rfl
@[simp] theorem flushBtac_cpsr (late : Bool) (s : State) : (flushBtac late s).cpsr = s.cpsr := rfl
@[simp] theorem flushBtac_spsr (late : Bool) (s : State) : (flushBtac late s).spsr = s.spsr := rfl
@[simp] theorem flushBtac_cdsrC (late : Bool) (s : State) : (flushBtac late s).cdsrC = s.cdsrC := rfl
@[simp] theorem flushBtac_cdsrClearing (late : Bool) (s : State) : (flushBtac late s).cdsrClearing = s.cdsrClearing := rfl
@[simp] theorem flushBtac_dc (late : Bool) (s : State) : (flushBtac late s).dc = s.dc := rfl
@[simp] theorem flushBtac_ic (late : Bool) (s : State) : (flushBtac late s).ic = s.ic := rfl
@[simp] theorem flushBtac_tcmD (late : Bool) (s : State) : (flushBtac late s).tcmD = s.tcmD := rfl
@[simp] theorem flushBtac_tcmI (late : Bool) (s : State) : (flushBtac late s).tcmI = s.tcmI := rfl
@[simp] theorem flushBtac_btac (late : Bool) (s : State) : (flushBtac late s).btac = if late then s.btac.map Branch.fade else [] := rfl
@[simp] theorem flushBtac_pfb (late : Bool) (s : State) : (flushBtac late s).pfb = s.pfb := rfl
@[simp] theorem flushBtac_writeBuffer (late : Bool) (s : State) : (flushBtac late s).writeBuffer = s.writeBuffer := rfl
@[simp] theorem flushBtac_bt (late : Bool) (s : State) : (flushBtac late s).bt = s.bt := rfl
@[simp] theorem flushBtac_standby (late : Bool) (s : State) : (flushBtac late s).standby = s.standby := rfl
@[simp] theorem flushBtac_mem (late : Bool) (s : State) : (flushBtac late s).mem = s.mem := rfl
@[simp] theorem flushBtac_cacheType (late : Bool) (s : State) : (flushBtac late s).cacheType = s.cacheType := rfl
@[simp] theorem flushBtac_ctrl (late : Bool) (s : State) : (flushBtac late s).ctrl = s.ctrl := rfl
@[simp] theorem flushBtac_aux (late : Bool) (s : State) : (flushBtac late s).aux = s.aux := rfl
@[simp] theorem flushBtac_far (late : Bool) (s : State) : (flushBtac late s).far = s.far := rfl
@[simp] theorem flushBtac_dfsr (late : Bool) (s : State) : (flushBtac late s).dfsr = s.dfsr := rfl
@[simp] theorem flushBtac_fcsePid (late : Bool) (s : State) : (flushBtac late s).fcsePid = s.fcsePid := rfl
@[simp] theorem flushBtac_mmu (late : Bool) (s : State) : (flushBtac late s).mmu = s.mmu := rfl
@[simp] theorem flushBtac_lockdown (late : Bool) (s : State) : (flushBtac late s).lockdown = s.lockdown := rfl
@[simp] theorem flushBtac_debugState (late : Bool) (s : State) : (flushBtac late s).debugState = s.debugState := rfl
@[simp] theorem flushBtac_inputs (late : Bool) (s : State) : (flushBtac late s).inputs = s.inputs := rfl
@[simp] theorem flushBtac_cfg (late : Bool) (s : State) : (flushBtac late s).cfg = s.cfg := rfl
@[simp] theorem flushBtac_btOldPids (late : Bool) (s : State) : (flushBtac late s).btOldPids = s.btOldPids := rfl
@[simp] theorem flushBtac_draws (late : Bool) (s : State) : (flushBtac late s).draws = s.draws := rfl
@[simp] theorem flushBtac_agenda (late : Bool) (s : State) : (flushBtac late s).agenda = s.agenda := rfl
@[simp] theorem flushBtac_points (late : Bool) (s : State) : (flushBtac late s).points = s.points := rfl

/-! ## `flushPfb` -/

@[simp] theorem flushPfb_regs (s : State) : (flushPfb s).regs = s.regs := rfl
@[simp] theorem flushPfb_pc (s : State) : (flushPfb s).pc = s.pc := rfl
@[simp] theorem flushPfb_cpsr (s : State) : (flushPfb s).cpsr = s.cpsr := rfl
@[simp] theorem flushPfb_spsr (s : State) : (flushPfb s).spsr = s.spsr := rfl
@[simp] theorem flushPfb_cdsrC (s : State) : (flushPfb s).cdsrC = s.cdsrC := rfl
@[simp] theorem flushPfb_cdsrClearing (s : State) : (flushPfb s).cdsrClearing = s.cdsrClearing := rfl
@[simp] theorem flushPfb_dc (s : State) : (flushPfb s).dc = s.dc := rfl
@[simp] theorem flushPfb_ic (s : State) : (flushPfb s).ic = s.ic := rfl
@[simp] theorem flushPfb_tcmD (s : State) : (flushPfb s).tcmD = s.tcmD := rfl
@[simp] theorem flushPfb_tcmI (s : State) : (flushPfb s).tcmI = s.tcmI := rfl
@[simp] theorem flushPfb_btac (s : State) : (flushPfb s).btac = s.btac := rfl
@[simp] theorem flushPfb_pfb (s : State) : (flushPfb s).pfb = [] := rfl
@[simp] theorem flushPfb_writeBuffer (s : State) : (flushPfb s).writeBuffer = s.writeBuffer := rfl
@[simp] theorem flushPfb_bt (s : State) : (flushPfb s).bt = s.bt := rfl
@[simp] theorem flushPfb_standby (s : State) : (flushPfb s).standby = s.standby := rfl
@[simp] theorem flushPfb_mem (s : State) : (flushPfb s).mem = s.mem := rfl
@[simp] theorem flushPfb_cacheType (s : State) : (flushPfb s).cacheType = s.cacheType := rfl
@[simp] theorem flushPfb_ctrl (s : State) : (flushPfb s).ctrl = s.ctrl := rfl
@[simp] theorem flushPfb_aux (s : State) : (flushPfb s).aux = s.aux := rfl
@[simp] theorem flushPfb_far (s : State) : (flushPfb s).far = s.far := rfl
@[simp] theorem flushPfb_dfsr (s : State) : (flushPfb s).dfsr = s.dfsr := rfl
@[simp] theorem flushPfb_fcsePid (s : State) : (flushPfb s).fcsePid = s.fcsePid := rfl
@[simp] theorem flushPfb_mmu (s : State) : (flushPfb s).mmu = s.mmu := rfl
@[simp] theorem flushPfb_lockdown (s : State) : (flushPfb s).lockdown = s.lockdown := rfl
@[simp] theorem flushPfb_debugState (s : State) : (flushPfb s).debugState = s.debugState := rfl
@[simp] theorem flushPfb_inputs (s : State) : (flushPfb s).inputs = s.inputs := rfl
@[simp] theorem flushPfb_cfg (s : State) : (flushPfb s).cfg = s.cfg := rfl
@[simp] theorem flushPfb_btOldPids (s : State) : (flushPfb s).btOldPids = s.btOldPids := rfl
@[simp] theorem flushPfb_draws (s : State) : (flushPfb s).draws = s.draws := rfl
@[simp] theorem flushPfb_agenda (s : State) : (flushPfb s).agenda = s.agenda := rfl
@[simp] theorem flushPfb_points (s : State) : (flushPfb s).points = s.points := rfl

/-! ## `flushBtacEntry` -/

@[simp] theorem flushBtacEntry_regs (late : Bool) (s : State) (a : Word) : (flushBtacEntry late s a).regs = s.regs := rfl
@[simp] theorem flushBtacEntry_pc (late : Bool) (s : State) (a : Word) : (flushBtacEntry late s a).pc = s.pc := rfl
@[simp] theorem flushBtacEntry_cpsr (late : Bool) (s : State) (a : Word) : (flushBtacEntry late s a).cpsr = s.cpsr := rfl
@[simp] theorem flushBtacEntry_spsr (late : Bool) (s : State) (a : Word) : (flushBtacEntry late s a).spsr = s.spsr := rfl
@[simp] theorem flushBtacEntry_cdsrC (late : Bool) (s : State) (a : Word) : (flushBtacEntry late s a).cdsrC = s.cdsrC := rfl
@[simp] theorem flushBtacEntry_cdsrClearing (late : Bool) (s : State) (a : Word) : (flushBtacEntry late s a).cdsrClearing = s.cdsrClearing := rfl
@[simp] theorem flushBtacEntry_dc (late : Bool) (s : State) (a : Word) : (flushBtacEntry late s a).dc = s.dc := rfl
@[simp] theorem flushBtacEntry_ic (late : Bool) (s : State) (a : Word) : (flushBtacEntry late s a).ic = s.ic := rfl
@[simp] theorem flushBtacEntry_tcmD (late : Bool) (s : State) (a : Word) : (flushBtacEntry late s a).tcmD = s.tcmD := rfl
@[simp] theorem flushBtacEntry_tcmI (late : Bool) (s : State) (a : Word) : (flushBtacEntry late s a).tcmI = s.tcmI := rfl
@[simp] theorem flushBtacEntry_btac (late : Bool) (s : State) (a : Word) :
    (flushBtacEntry late s a).btac
      = if late then s.btac.map fun x => if x.near a then x.fade else x else s.btac.filter fun x => !x.near a := rfl
@[simp] theorem flushBtacEntry_pfb (late : Bool) (s : State) (a : Word) : (flushBtacEntry late s a).pfb = s.pfb := rfl
@[simp] theorem flushBtacEntry_writeBuffer (late : Bool) (s : State) (a : Word) :
    (flushBtacEntry late s a).writeBuffer = s.writeBuffer := rfl
@[simp] theorem flushBtacEntry_bt (late : Bool) (s : State) (a : Word) : (flushBtacEntry late s a).bt = s.bt := rfl
@[simp] theorem flushBtacEntry_standby (late : Bool) (s : State) (a : Word) : (flushBtacEntry late s a).standby = s.standby := rfl
@[simp] theorem flushBtacEntry_mem (late : Bool) (s : State) (a : Word) : (flushBtacEntry late s a).mem = s.mem := rfl
@[simp] theorem flushBtacEntry_cacheType (late : Bool) (s : State) (a : Word) : (flushBtacEntry late s a).cacheType = s.cacheType := rfl
@[simp] theorem flushBtacEntry_ctrl (late : Bool) (s : State) (a : Word) : (flushBtacEntry late s a).ctrl = s.ctrl := rfl
@[simp] theorem flushBtacEntry_aux (late : Bool) (s : State) (a : Word) : (flushBtacEntry late s a).aux = s.aux := rfl
@[simp] theorem flushBtacEntry_far (late : Bool) (s : State) (a : Word) : (flushBtacEntry late s a).far = s.far := rfl
@[simp] theorem flushBtacEntry_dfsr (late : Bool) (s : State) (a : Word) : (flushBtacEntry late s a).dfsr = s.dfsr := rfl
@[simp] theorem flushBtacEntry_fcsePid (late : Bool) (s : State) (a : Word) : (flushBtacEntry late s a).fcsePid = s.fcsePid := rfl
@[simp] theorem flushBtacEntry_mmu (late : Bool) (s : State) (a : Word) : (flushBtacEntry late s a).mmu = s.mmu := rfl
@[simp] theorem flushBtacEntry_lockdown (late : Bool) (s : State) (a : Word) : (flushBtacEntry late s a).lockdown = s.lockdown := rfl
@[simp] theorem flushBtacEntry_debugState (late : Bool) (s : State) (a : Word) :
    (flushBtacEntry late s a).debugState = s.debugState := rfl
@[simp] theorem flushBtacEntry_inputs (late : Bool) (s : State) (a : Word) : (flushBtacEntry late s a).inputs = s.inputs := rfl
@[simp] theorem flushBtacEntry_cfg (late : Bool) (s : State) (a : Word) : (flushBtacEntry late s a).cfg = s.cfg := rfl
@[simp] theorem flushBtacEntry_btOldPids (late : Bool) (s : State) (a : Word) : (flushBtacEntry late s a).btOldPids = s.btOldPids := rfl
@[simp] theorem flushBtacEntry_draws (late : Bool) (s : State) (a : Word) : (flushBtacEntry late s a).draws = s.draws := rfl
@[simp] theorem flushBtacEntry_agenda (late : Bool) (s : State) (a : Word) : (flushBtacEntry late s a).agenda = s.agenda := rfl
@[simp] theorem flushBtacEntry_points (late : Bool) (s : State) (a : Word) : (flushBtacEntry late s a).points = s.points := rfl

/-! ## `clearCdsr` -/

@[simp] theorem clearCdsr_regs (late : Bool) (s : State) : (clearCdsr late s).regs = s.regs := rfl
@[simp] theorem clearCdsr_pc (late : Bool) (s : State) : (clearCdsr late s).pc = s.pc := rfl
@[simp] theorem clearCdsr_cpsr (late : Bool) (s : State) : (clearCdsr late s).cpsr = s.cpsr := rfl
@[simp] theorem clearCdsr_spsr (late : Bool) (s : State) : (clearCdsr late s).spsr = s.spsr := rfl
@[simp] theorem clearCdsr_cdsrC (late : Bool) (s : State) : (clearCdsr late s).cdsrC = (s.cdsrC && late) := rfl
@[simp] theorem clearCdsr_cdsrClearing (late : Bool) (s : State) : (clearCdsr late s).cdsrClearing = late := rfl
@[simp] theorem clearCdsr_dc (late : Bool) (s : State) : (clearCdsr late s).dc = s.dc := rfl
@[simp] theorem clearCdsr_ic (late : Bool) (s : State) : (clearCdsr late s).ic = s.ic := rfl
@[simp] theorem clearCdsr_tcmD (late : Bool) (s : State) : (clearCdsr late s).tcmD = s.tcmD := rfl
@[simp] theorem clearCdsr_tcmI (late : Bool) (s : State) : (clearCdsr late s).tcmI = s.tcmI := rfl
@[simp] theorem clearCdsr_btac (late : Bool) (s : State) : (clearCdsr late s).btac = s.btac := rfl
@[simp] theorem clearCdsr_pfb (late : Bool) (s : State) : (clearCdsr late s).pfb = s.pfb := rfl
@[simp] theorem clearCdsr_writeBuffer (late : Bool) (s : State) : (clearCdsr late s).writeBuffer = s.writeBuffer := rfl
@[simp] theorem clearCdsr_bt (late : Bool) (s : State) : (clearCdsr late s).bt = s.bt := rfl
@[simp] theorem clearCdsr_standby (late : Bool) (s : State) : (clearCdsr late s).standby = s.standby := rfl
@[simp] theorem clearCdsr_mem (late : Bool) (s : State) : (clearCdsr late s).mem = s.mem := rfl
@[simp] theorem clearCdsr_cacheType (late : Bool) (s : State) : (clearCdsr late s).cacheType = s.cacheType := rfl
@[simp] theorem clearCdsr_ctrl (late : Bool) (s : State) : (clearCdsr late s).ctrl = s.ctrl := rfl
@[simp] theorem clearCdsr_aux (late : Bool) (s : State) : (clearCdsr late s).aux = s.aux := rfl
@[simp] theorem clearCdsr_far (late : Bool) (s : State) : (clearCdsr late s).far = s.far := rfl
@[simp] theorem clearCdsr_dfsr (late : Bool) (s : State) : (clearCdsr late s).dfsr = s.dfsr := rfl
@[simp] theorem clearCdsr_fcsePid (late : Bool) (s : State) : (clearCdsr late s).fcsePid = s.fcsePid := rfl
@[simp] theorem clearCdsr_mmu (late : Bool) (s : State) : (clearCdsr late s).mmu = s.mmu := rfl
@[simp] theorem clearCdsr_lockdown (late : Bool) (s : State) : (clearCdsr late s).lockdown = s.lockdown := rfl
@[simp] theorem clearCdsr_debugState (late : Bool) (s : State) : (clearCdsr late s).debugState = s.debugState := rfl
@[simp] theorem clearCdsr_inputs (late : Bool) (s : State) : (clearCdsr late s).inputs = s.inputs := rfl
@[simp] theorem clearCdsr_cfg (late : Bool) (s : State) : (clearCdsr late s).cfg = s.cfg := rfl
@[simp] theorem clearCdsr_btOldPids (late : Bool) (s : State) : (clearCdsr late s).btOldPids = s.btOldPids := rfl
@[simp] theorem clearCdsr_draws (late : Bool) (s : State) : (clearCdsr late s).draws = s.draws := rfl
@[simp] theorem clearCdsr_agenda (late : Bool) (s : State) : (clearCdsr late s).agenda = s.agenda := rfl
@[simp] theorem clearCdsr_points (late : Bool) (s : State) : (clearCdsr late s).points = s.points := rfl

/-! ## `settleAll` -/

@[simp] theorem settleAll_regs (s : State) : (settleAll s).regs = s.regs := rfl
@[simp] theorem settleAll_pc (s : State) : (settleAll s).pc = s.pc := rfl
@[simp] theorem settleAll_cpsr (s : State) : (settleAll s).cpsr = s.cpsr := rfl
@[simp] theorem settleAll_spsr (s : State) : (settleAll s).spsr = s.spsr := rfl
@[simp] theorem settleAll_cdsrC (s : State) : (settleAll s).cdsrC = (s.cdsrC && !s.cdsrClearing) := rfl
@[simp] theorem settleAll_cdsrClearing (s : State) : (settleAll s).cdsrClearing = false := rfl
@[simp] theorem settleAll_dc (s : State) : (settleAll s).dc = s.dc.map Slot.settled := rfl
@[simp] theorem settleAll_ic (s : State) : (settleAll s).ic = s.ic.map Slot.settled := rfl
@[simp] theorem settleAll_tcmD (s : State) : (settleAll s).tcmD = s.tcmD.map (Tcm.mapSlots Slot.settled) := rfl
@[simp] theorem settleAll_tcmI (s : State) : (settleAll s).tcmI = s.tcmI.map (Tcm.mapSlots Slot.settled) := rfl
@[simp] theorem settleAll_btac (s : State) : (settleAll s).btac = s.btac.filter fun x => !x.fading := rfl
@[simp] theorem settleAll_pfb (s : State) : (settleAll s).pfb = s.pfb := rfl
@[simp] theorem settleAll_writeBuffer (s : State) : (settleAll s).writeBuffer = s.writeBuffer := rfl
@[simp] theorem settleAll_bt (s : State) : (settleAll s).bt = s.bt := rfl
@[simp] theorem settleAll_standby (s : State) : (settleAll s).standby = s.standby := rfl
@[simp] theorem settleAll_mem (s : State) : (settleAll s).mem = s.mem := rfl
@[simp] theorem settleAll_cacheType (s : State) : (settleAll s).cacheType = s.cacheType := rfl
@[simp] theorem settleAll_ctrl (s : State) : (settleAll s).ctrl = s.ctrl := rfl
@[simp] theorem settleAll_aux (s : State) : (settleAll s).aux = s.aux := rfl
@[simp] theorem settleAll_far (s : State) : (settleAll s).far = s.far := rfl
@[simp] theorem settleAll_dfsr (s : State) : (settleAll s).dfsr = s.dfsr := rfl
@[simp] theorem settleAll_fcsePid (s : State) : (settleAll s).fcsePid = s.fcsePid := rfl
@[simp] theorem settleAll_mmu (s : State) : (settleAll s).mmu = s.mmu := rfl
@[simp] theorem settleAll_lockdown (s : State) : (settleAll s).lockdown = s.lockdown := rfl
@[simp] theorem settleAll_debugState (s : State) : (settleAll s).debugState = s.debugState := rfl
@[simp] theorem settleAll_inputs (s : State) : (settleAll s).inputs = s.inputs := rfl
@[simp] theorem settleAll_cfg (s : State) : (settleAll s).cfg = s.cfg := rfl
@[simp] theorem settleAll_btOldPids (s : State) : (settleAll s).btOldPids = s.btOldPids := rfl
@[simp] theorem settleAll_draws (s : State) : (settleAll s).draws = s.draws := rfl
@[simp] theorem settleAll_agenda (s : State) : (settleAll s).agenda = s.agenda := rfl
@[simp] theorem settleAll_points (s : State) : (settleAll s).points = s.points := rfl

/-! ## `writeReg` -/

@[simp] theorem writeReg_regs (s : State) (n : RegNo) (v : Word) :
    (writeReg s n v).regs = s.regs.write (modeOf s) n v := rfl
@[simp] theorem writeReg_pc (s : State) (n : RegNo) (v : Word) : (writeReg s n v).pc = s.pc := rfl
@[simp] theorem writeReg_cpsr (s : State) (n : RegNo) (v : Word) : (writeReg s n v).cpsr = s.cpsr := rfl
@[simp] theorem writeReg_spsr (s : State) (n : RegNo) (v : Word) : (writeReg s n v).spsr = s.spsr := rfl
@[simp] theorem writeReg_cdsrC (s : State) (n : RegNo) (v : Word) : (writeReg s n v).cdsrC = s.cdsrC := rfl
@[simp] theorem writeReg_cdsrClearing (s : State) (n : RegNo) (v : Word) : (writeReg s n v).cdsrClearing = s.cdsrClearing := rfl
@[simp] theorem writeReg_dc (s : State) (n : RegNo) (v : Word) : (writeReg s n v).dc = s.dc := rfl
@[simp] theorem writeReg_ic (s : State) (n : RegNo) (v : Word) : (writeReg s n v).ic = s.ic := rfl
@[simp] theorem writeReg_tcmD (s : State) (n : RegNo) (v : Word) : (writeReg s n v).tcmD = s.tcmD := rfl
@[simp] theorem writeReg_tcmI (s : State) (n : RegNo) (v : Word) : (writeReg s n v).tcmI = s.tcmI := rfl
@[simp] theorem writeReg_btac (s : State) (n : RegNo) (v : Word) : (writeReg s n v).btac = s.btac := rfl
@[simp] theorem writeReg_pfb (s : State) (n : RegNo) (v : Word) : (writeReg s n v).pfb = s.pfb := rfl
@[simp] theorem writeReg_writeBuffer (s : State) (n : RegNo) (v : Word) :
    (writeReg s n v).writeBuffer = s.writeBuffer := rfl
@[simp] theorem writeReg_bt (s : State) (n : RegNo) (v : Word) : (writeReg s n v).bt = s.bt := rfl
@[simp] theorem writeReg_standby (s : State) (n : RegNo) (v : Word) : (writeReg s n v).standby = s.standby := rfl
@[simp] theorem writeReg_mem (s : State) (n : RegNo) (v : Word) : (writeReg s n v).mem = s.mem := rfl
@[simp] theorem writeReg_cacheType (s : State) (n : RegNo) (v : Word) :
    (writeReg s n v).cacheType = s.cacheType := rfl
@[simp] theorem writeReg_ctrl (s : State) (n : RegNo) (v : Word) : (writeReg s n v).ctrl = s.ctrl := rfl
@[simp] theorem writeReg_aux (s : State) (n : RegNo) (v : Word) : (writeReg s n v).aux = s.aux := rfl
@[simp] theorem writeReg_far (s : State) (n : RegNo) (v : Word) : (writeReg s n v).far = s.far := rfl
@[simp] theorem writeReg_dfsr (s : State) (n : RegNo) (v : Word) : (writeReg s n v).dfsr = s.dfsr := rfl
@[simp] theorem writeReg_fcsePid (s : State) (n : RegNo) (v : Word) : (writeReg s n v).fcsePid = s.fcsePid := rfl
@[simp] theorem writeReg_mmu (s : State) (n : RegNo) (v : Word) : (writeReg s n v).mmu = s.mmu := rfl
@[simp] theorem writeReg_lockdown (s : State) (n : RegNo) (v : Word) : (writeReg s n v).lockdown = s.lockdown := rfl
@[simp] theorem writeReg_debugState (s : State) (n : RegNo) (v : Word) :
    (writeReg s n v).debugState = s.debugState := rfl
@[simp] theorem writeReg_inputs (s : State) (n : RegNo) (v : Word) : (writeReg s n v).inputs = s.inputs := rfl
@[simp] theorem writeReg_cfg (s : State) (n : RegNo) (v : Word) : (writeReg s n v).cfg = s.cfg := rfl
@[simp] theorem writeReg_btOldPids (s : State) (n : RegNo) (v : Word) :
    (writeReg s n v).btOldPids = s.btOldPids := rfl
@[simp] theorem writeReg_draws (s : State) (n : RegNo) (v : Word) : (writeReg s n v).draws = s.draws := rfl
@[simp] theorem writeReg_agenda (s : State) (n : RegNo) (v : Word) : (writeReg s n v).agenda = s.agenda := rfl
@[simp] theorem writeReg_points (s : State) (n : RegNo) (v : Word) : (writeReg s n v).points = s.points := rfl

/-! ## `takeException` -/

@[simp] theorem takeException_regs (e : Exc) (link : Word) (s : State) :
    (takeException e link s).regs = s.regs.setBank (some e.mode) { s.regs.bank (some e.mode) with lr := link } := rfl
@[simp] theorem takeException_pc (e : Exc) (link : Word) (s : State) :
    (takeException e link s).pc = s.cfg.vectors.base + e.offset s.cfg.vectors := rfl
@[simp] theorem takeException_cpsr (e : Exc) (link : Word) (s : State) :
    (takeException e link s).cpsr = entryPsr s.cpsr e.mode e.setsF e.setsA := rfl
@[simp] theorem takeException_spsr (e : Exc) (link : Word) (s : State) :
    (takeException e link s).spsr = s.spsr.set e.mode s.cpsr := rfl
@[simp] theorem takeException_cdsrC (e : Exc) (link : Word) (s : State) :
    (takeException e link s).cdsrC = s.cdsrC := rfl
@[simp] theorem takeException_cdsrClearing (e : Exc) (link : Word) (s : State) :
    (takeException e link s).cdsrClearing = s.cdsrClearing := rfl
@[simp] theorem takeException_dc (e : Exc) (link : Word) (s : State) : (takeException e link s).dc = s.dc := rfl
@[simp] theorem takeException_ic (e : Exc) (link : Word) (s : State) : (takeException e link s).ic = s.ic := rfl
@[simp] theorem takeException_tcmD (e : Exc) (link : Word) (s : State) : (takeException e link s).tcmD = s.tcmD := rfl
@[simp] theorem takeException_tcmI (e : Exc) (link : Word) (s : State) : (takeException e link s).tcmI = s.tcmI := rfl
@[simp] theorem takeException_btac (e : Exc) (link : Word) (s : State) : (takeException e link s).btac = s.btac := rfl
@[simp] theorem takeException_pfb (e : Exc) (link : Word) (s : State) : (takeException e link s).pfb = s.pfb := rfl
@[simp] theorem takeException_writeBuffer (e : Exc) (link : Word) (s : State) :
    (takeException e link s).writeBuffer = s.writeBuffer := rfl
@[simp] theorem takeException_bt (e : Exc) (link : Word) (s : State) : (takeException e link s).bt = s.bt := rfl
@[simp] theorem takeException_standby (e : Exc) (link : Word) (s : State) :
    (takeException e link s).standby = s.standby := rfl
@[simp] theorem takeException_mem (e : Exc) (link : Word) (s : State) : (takeException e link s).mem = s.mem := rfl
@[simp] theorem takeException_cacheType (e : Exc) (link : Word) (s : State) :
    (takeException e link s).cacheType = s.cacheType := rfl
@[simp] theorem takeException_ctrl (e : Exc) (link : Word) (s : State) : (takeException e link s).ctrl = s.ctrl := rfl
@[simp] theorem takeException_aux (e : Exc) (link : Word) (s : State) : (takeException e link s).aux = s.aux := rfl
@[simp] theorem takeException_far (e : Exc) (link : Word) (s : State) : (takeException e link s).far = s.far := rfl
@[simp] theorem takeException_dfsr (e : Exc) (link : Word) (s : State) : (takeException e link s).dfsr = s.dfsr := rfl
@[simp] theorem takeException_fcsePid (e : Exc) (link : Word) (s : State) :
    (takeException e link s).fcsePid = s.fcsePid := rfl
@[simp] theorem takeException_mmu (e : Exc) (link : Word) (s : State) : (takeException e link s).mmu = s.mmu := rfl
@[simp] theorem takeException_lockdown (e : Exc) (link : Word) (s : State) :
    (takeException e link s).lockdown = s.lockdown := rfl
@[simp] theorem takeException_debugState (e : Exc) (link : Word) (s : State) :
    (takeException e link s).debugState = s.debugState := rfl
@[simp] theorem takeException_inputs (e : Exc) (link : Word) (s : State) :
    (takeException e link s).inputs = s.inputs := rfl
@[simp] theorem takeException_cfg (e : Exc) (link : Word) (s : State) : (takeException e link s).cfg = s.cfg := rfl
@[simp] theorem takeException_btOldPids (e : Exc) (link : Word) (s : State) :
    (takeException e link s).btOldPids = s.btOldPids := rfl
@[simp] theorem takeException_draws (e : Exc) (link : Word) (s : State) :
    (takeException e link s).draws = s.draws := rfl
@[simp] theorem takeException_agenda (e : Exc) (link : Word) (s : State) :
    (takeException e link s).agenda = s.agenda := rfl
@[simp] theorem takeException_points (e : Exc) (link : Word) (s : State) :
    (takeException e link s).points = s.points := rfl

/-! ## `completeOutstanding` -/

@[simp] theorem completeOutstanding_regs (s : State) : (completeOutstanding s).regs = s.regs := rfl
@[simp] theorem completeOutstanding_pc (s : State) : (completeOutstanding s).pc = s.pc := rfl
@[simp] theorem completeOutstanding_cpsr (s : State) : (completeOutstanding s).cpsr = s.cpsr := rfl
@[simp] theorem completeOutstanding_spsr (s : State) : (completeOutstanding s).spsr = s.spsr := rfl
@[simp] theorem completeOutstanding_cdsrC (s : State) : (completeOutstanding s).cdsrC = s.cdsrC := rfl
@[simp] theorem completeOutstanding_cdsrClearing (s : State) : (completeOutstanding s).cdsrClearing = s.cdsrClearing := rfl
@[simp] theorem completeOutstanding_dc (s : State) : (completeOutstanding s).dc = s.dc := rfl
@[simp] theorem completeOutstanding_ic (s : State) : (completeOutstanding s).ic = s.ic := rfl
@[simp] theorem completeOutstanding_tcmD (s : State) : (completeOutstanding s).tcmD = s.tcmD := rfl
@[simp] theorem completeOutstanding_tcmI (s : State) : (completeOutstanding s).tcmI = s.tcmI := rfl
@[simp] theorem completeOutstanding_btac (s : State) : (completeOutstanding s).btac = s.btac := rfl
@[simp] theorem completeOutstanding_pfb (s : State) : (completeOutstanding s).pfb = s.pfb := rfl
@[simp] theorem completeOutstanding_writeBuffer (s : State) : (completeOutstanding s).writeBuffer = [] := rfl
@[simp] theorem completeOutstanding_bt (s : State) : (completeOutstanding s).bt = s.bt := rfl
@[simp] theorem completeOutstanding_standby (s : State) : (completeOutstanding s).standby = s.standby := rfl
@[simp] theorem completeOutstanding_mem (s : State) :
    (completeOutstanding s).mem = s.mem.writePending s.writeBuffer := rfl
@[simp] theorem completeOutstanding_cacheType (s : State) : (completeOutstanding s).cacheType = s.cacheType := rfl
@[simp] theorem completeOutstanding_ctrl (s : State) : (completeOutstanding s).ctrl = s.ctrl := rfl
@[simp] theorem completeOutstanding_aux (s : State) : (completeOutstanding s).aux = s.aux := rfl
@[simp] theorem completeOutstanding_far (s : State) : (completeOutstanding s).far = s.far := rfl
@[simp] theorem completeOutstanding_dfsr (s : State) : (completeOutstanding s).dfsr = s.dfsr := rfl
@[simp] theorem completeOutstanding_fcsePid (s : State) : (completeOutstanding s).fcsePid = s.fcsePid := rfl
@[simp] theorem completeOutstanding_mmu (s : State) : (completeOutstanding s).mmu = s.mmu := rfl
@[simp] theorem completeOutstanding_lockdown (s : State) : (completeOutstanding s).lockdown = s.lockdown := rfl
@[simp] theorem completeOutstanding_debugState (s : State) : (completeOutstanding s).debugState = s.debugState := rfl
@[simp] theorem completeOutstanding_inputs (s : State) : (completeOutstanding s).inputs = s.inputs := rfl
@[simp] theorem completeOutstanding_cfg (s : State) : (completeOutstanding s).cfg = s.cfg := rfl
@[simp] theorem completeOutstanding_btOldPids (s : State) : (completeOutstanding s).btOldPids = s.btOldPids := rfl
@[simp] theorem completeOutstanding_draws (s : State) : (completeOutstanding s).draws = s.draws := rfl
@[simp] theorem completeOutstanding_agenda (s : State) : (completeOutstanding s).agenda = s.agenda := rfl
@[simp] theorem completeOutstanding_points (s : State) : (completeOutstanding s).points = s.points := rfl

/-! ## `completeExplicit` -/

@[simp] theorem completeExplicit_regs (s : State) : (completeExplicit s).regs = s.regs := rfl
@[simp] theorem completeExplicit_pc (s : State) : (completeExplicit s).pc = s.pc := rfl
@[simp] theorem completeExplicit_cpsr (s : State) : (completeExplicit s).cpsr = s.cpsr := rfl
@[simp] theorem completeExplicit_spsr (s : State) : (completeExplicit s).spsr = s.spsr := rfl
@[simp] theorem completeExplicit_cdsrC (s : State) : (completeExplicit s).cdsrC = s.cdsrC := rfl
@[simp] theorem completeExplicit_cdsrClearing (s : State) : (completeExplicit s).cdsrClearing = s.cdsrClearing := rfl
@[simp] theorem completeExplicit_dc (s : State) : (completeExplicit s).dc = s.dc := rfl
@[simp] theorem completeExplicit_ic (s : State) : (completeExplicit s).ic = s.ic := rfl
@[simp] theorem completeExplicit_tcmD (s : State) : (completeExplicit s).tcmD = s.tcmD := rfl
@[simp] theorem completeExplicit_tcmI (s : State) : (completeExplicit s).tcmI = s.tcmI := rfl
@[simp] theorem completeExplicit_btac (s : State) : (completeExplicit s).btac = s.btac := rfl
@[simp] theorem completeExplicit_pfb (s : State) : (completeExplicit s).pfb = s.pfb := rfl
@[simp] theorem completeExplicit_writeBuffer (s : State) :
    (completeExplicit s).writeBuffer = dmbLeaves s.writeBuffer := rfl
@[simp] theorem completeExplicit_bt (s : State) : (completeExplicit s).bt = s.bt := rfl
@[simp] theorem completeExplicit_standby (s : State) : (completeExplicit s).standby = s.standby := rfl
@[simp] theorem completeExplicit_mem (s : State) :
    (completeExplicit s).mem = s.mem.writePending (dmbWaits s.writeBuffer) := rfl
@[simp] theorem completeExplicit_cacheType (s : State) : (completeExplicit s).cacheType = s.cacheType := rfl
@[simp] theorem completeExplicit_ctrl (s : State) : (completeExplicit s).ctrl = s.ctrl := rfl
@[simp] theorem completeExplicit_aux (s : State) : (completeExplicit s).aux = s.aux := rfl
@[simp] theorem completeExplicit_far (s : State) : (completeExplicit s).far = s.far := rfl
@[simp] theorem completeExplicit_dfsr (s : State) : (completeExplicit s).dfsr = s.dfsr := rfl
@[simp] theorem completeExplicit_fcsePid (s : State) : (completeExplicit s).fcsePid = s.fcsePid := rfl
@[simp] theorem completeExplicit_mmu (s : State) : (completeExplicit s).mmu = s.mmu := rfl
@[simp] theorem completeExplicit_lockdown (s : State) : (completeExplicit s).lockdown = s.lockdown := rfl
@[simp] theorem completeExplicit_debugState (s : State) : (completeExplicit s).debugState = s.debugState := rfl
@[simp] theorem completeExplicit_inputs (s : State) : (completeExplicit s).inputs = s.inputs := rfl
@[simp] theorem completeExplicit_cfg (s : State) : (completeExplicit s).cfg = s.cfg := rfl
@[simp] theorem completeExplicit_btOldPids (s : State) : (completeExplicit s).btOldPids = s.btOldPids := rfl
@[simp] theorem completeExplicit_draws (s : State) : (completeExplicit s).draws = s.draws := rfl
@[simp] theorem completeExplicit_agenda (s : State) : (completeExplicit s).agenda = s.agenda := rfl
@[simp] theorem completeExplicit_points (s : State) : (completeExplicit s).points = s.points := rfl

/-! ## `post` -/

@[simp] theorem post_regs (s : State) (x : Bool) (ws : List (Word × Byte)) : (post s x ws).regs = s.regs := rfl
@[simp] theorem post_pc (s : State) (x : Bool) (ws : List (Word × Byte)) : (post s x ws).pc = s.pc := rfl
@[simp] theorem post_cpsr (s : State) (x : Bool) (ws : List (Word × Byte)) : (post s x ws).cpsr = s.cpsr := rfl
@[simp] theorem post_spsr (s : State) (x : Bool) (ws : List (Word × Byte)) : (post s x ws).spsr = s.spsr := rfl
@[simp] theorem post_cdsrC (s : State) (x : Bool) (ws : List (Word × Byte)) : (post s x ws).cdsrC = s.cdsrC := rfl
@[simp] theorem post_cdsrClearing (s : State) (x : Bool) (ws : List (Word × Byte)) : (post s x ws).cdsrClearing = s.cdsrClearing := rfl
@[simp] theorem post_dc (s : State) (x : Bool) (ws : List (Word × Byte)) : (post s x ws).dc = s.dc := rfl
@[simp] theorem post_ic (s : State) (x : Bool) (ws : List (Word × Byte)) : (post s x ws).ic = s.ic := rfl
@[simp] theorem post_tcmD (s : State) (x : Bool) (ws : List (Word × Byte)) : (post s x ws).tcmD = s.tcmD := rfl
@[simp] theorem post_tcmI (s : State) (x : Bool) (ws : List (Word × Byte)) : (post s x ws).tcmI = s.tcmI := rfl
@[simp] theorem post_btac (s : State) (x : Bool) (ws : List (Word × Byte)) : (post s x ws).btac = s.btac := rfl
@[simp] theorem post_pfb (s : State) (x : Bool) (ws : List (Word × Byte)) : (post s x ws).pfb = s.pfb := rfl
@[simp] theorem post_writeBuffer (s : State) (x : Bool) (ws : List (Word × Byte)) :
    (post s x ws).writeBuffer = s.writeBuffer ++ ws.map fun w => { addr := w.1, byte := w.2, explicit := x } := rfl
@[simp] theorem post_bt (s : State) (x : Bool) (ws : List (Word × Byte)) : (post s x ws).bt = s.bt := rfl
@[simp] theorem post_standby (s : State) (x : Bool) (ws : List (Word × Byte)) :
    (post s x ws).standby = s.standby := rfl
@[simp] theorem post_mem (s : State) (x : Bool) (ws : List (Word × Byte)) : (post s x ws).mem = s.mem := rfl
@[simp] theorem post_cacheType (s : State) (x : Bool) (ws : List (Word × Byte)) :
    (post s x ws).cacheType = s.cacheType := rfl
@[simp] theorem post_ctrl (s : State) (x : Bool) (ws : List (Word × Byte)) : (post s x ws).ctrl = s.ctrl := rfl
@[simp] theorem post_aux (s : State) (x : Bool) (ws : List (Word × Byte)) : (post s x ws).aux = s.aux := rfl
@[simp] theorem post_far (s : State) (x : Bool) (ws : List (Word × Byte)) : (post s x ws).far = s.far := rfl
@[simp] theorem post_dfsr (s : State) (x : Bool) (ws : List (Word × Byte)) : (post s x ws).dfsr = s.dfsr := rfl
@[simp] theorem post_fcsePid (s : State) (x : Bool) (ws : List (Word × Byte)) :
    (post s x ws).fcsePid = s.fcsePid := rfl
@[simp] theorem post_mmu (s : State) (x : Bool) (ws : List (Word × Byte)) : (post s x ws).mmu = s.mmu := rfl
@[simp] theorem post_lockdown (s : State) (x : Bool) (ws : List (Word × Byte)) :
    (post s x ws).lockdown = s.lockdown := rfl
@[simp] theorem post_debugState (s : State) (x : Bool) (ws : List (Word × Byte)) :
    (post s x ws).debugState = s.debugState := rfl
@[simp] theorem post_inputs (s : State) (x : Bool) (ws : List (Word × Byte)) : (post s x ws).inputs = s.inputs := rfl
@[simp] theorem post_cfg (s : State) (x : Bool) (ws : List (Word × Byte)) : (post s x ws).cfg = s.cfg := rfl
@[simp] theorem post_btOldPids (s : State) (x : Bool) (ws : List (Word × Byte)) :
    (post s x ws).btOldPids = s.btOldPids := rfl
@[simp] theorem post_draws (s : State) (x : Bool) (ws : List (Word × Byte)) : (post s x ws).draws = s.draws := rfl
@[simp] theorem post_agenda (s : State) (x : Bool) (ws : List (Word × Byte)) : (post s x ws).agenda = s.agenda := rfl
@[simp] theorem post_points (s : State) (x : Bool) (ws : List (Word × Byte)) : (post s x ws).points = s.points := rfl

/-! ## `commitByte` -/

@[simp] theorem commitByte_regs (s : State) (w : Word × Byte) : (commitByte s w).regs = s.regs := rfl
@[simp] theorem commitByte_pc (s : State) (w : Word × Byte) : (commitByte s w).pc = s.pc := rfl
@[simp] theorem commitByte_cpsr (s : State) (w : Word × Byte) : (commitByte s w).cpsr = s.cpsr := rfl
@[simp] theorem commitByte_spsr (s : State) (w : Word × Byte) : (commitByte s w).spsr = s.spsr := rfl
@[simp] theorem commitByte_cdsrC (s : State) (w : Word × Byte) : (commitByte s w).cdsrC = s.cdsrC := rfl
@[simp] theorem commitByte_cdsrClearing (s : State) (w : Word × Byte) : (commitByte s w).cdsrClearing = s.cdsrClearing := rfl
@[simp] theorem commitByte_dc (s : State) (w : Word × Byte) : (commitByte s w).dc = s.dc := rfl
@[simp] theorem commitByte_ic (s : State) (w : Word × Byte) : (commitByte s w).ic = s.ic := rfl
@[simp] theorem commitByte_tcmD (s : State) (w : Word × Byte) : (commitByte s w).tcmD = s.tcmD := rfl
@[simp] theorem commitByte_tcmI (s : State) (w : Word × Byte) : (commitByte s w).tcmI = s.tcmI := rfl
@[simp] theorem commitByte_btac (s : State) (w : Word × Byte) : (commitByte s w).btac = s.btac := rfl
@[simp] theorem commitByte_pfb (s : State) (w : Word × Byte) : (commitByte s w).pfb = s.pfb := rfl
@[simp] theorem commitByte_writeBuffer (s : State) (w : Word × Byte) :
    (commitByte s w).writeBuffer = s.writeBuffer.filter (fun p => p.addr != w.1) := rfl
@[simp] theorem commitByte_bt (s : State) (w : Word × Byte) : (commitByte s w).bt = s.bt := rfl
@[simp] theorem commitByte_standby (s : State) (w : Word × Byte) : (commitByte s w).standby = s.standby := rfl
@[simp] theorem commitByte_mem (s : State) (w : Word × Byte) : (commitByte s w).mem = s.mem.write w.1 w.2 := rfl
@[simp] theorem commitByte_cacheType (s : State) (w : Word × Byte) : (commitByte s w).cacheType = s.cacheType := rfl
@[simp] theorem commitByte_ctrl (s : State) (w : Word × Byte) : (commitByte s w).ctrl = s.ctrl := rfl
@[simp] theorem commitByte_aux (s : State) (w : Word × Byte) : (commitByte s w).aux = s.aux := rfl
@[simp] theorem commitByte_far (s : State) (w : Word × Byte) : (commitByte s w).far = s.far := rfl
@[simp] theorem commitByte_dfsr (s : State) (w : Word × Byte) : (commitByte s w).dfsr = s.dfsr := rfl
@[simp] theorem commitByte_fcsePid (s : State) (w : Word × Byte) : (commitByte s w).fcsePid = s.fcsePid := rfl
@[simp] theorem commitByte_mmu (s : State) (w : Word × Byte) : (commitByte s w).mmu = s.mmu := rfl
@[simp] theorem commitByte_lockdown (s : State) (w : Word × Byte) : (commitByte s w).lockdown = s.lockdown := rfl
@[simp] theorem commitByte_debugState (s : State) (w : Word × Byte) :
    (commitByte s w).debugState = s.debugState := rfl
@[simp] theorem commitByte_inputs (s : State) (w : Word × Byte) : (commitByte s w).inputs = s.inputs := rfl
@[simp] theorem commitByte_cfg (s : State) (w : Word × Byte) : (commitByte s w).cfg = s.cfg := rfl
@[simp] theorem commitByte_btOldPids (s : State) (w : Word × Byte) : (commitByte s w).btOldPids = s.btOldPids := rfl
@[simp] theorem commitByte_draws (s : State) (w : Word × Byte) : (commitByte s w).draws = s.draws := rfl
@[simp] theorem commitByte_agenda (s : State) (w : Word × Byte) : (commitByte s w).agenda = s.agenda := rfl
@[simp] theorem commitByte_points (s : State) (w : Word × Byte) : (commitByte s w).points = s.points := rfl

end Sys2Proof.Machine
end

