-- ==== Sys2Proof/Laws/Memory.lean ====
section
/-! SUPPORT. Memory and the write buffer: read after write, the canonical form, what bytes on their way to memory leave
settled. -/

namespace Sys2Proof.Machine

/-! ## Cells -/

theorem lookupCell_putCell_ne (cs : List Host.Cell) {a x : Nat} (b : Byte) (h : x ≠ a) :
    lookupCell (putCell cs a b) x = lookupCell cs x := by
  induction cs with
  | nil => simp only [putCell]; split <;> simp [lookupCell, h.symm]
  | cons c t ih =>
    obtain ⟨k, v⟩ := c
    simp only [putCell]
    split
    · split <;> simp [lookupCell, h.symm]
    · split
      · rename_i hk; subst hk
        split <;> simp [lookupCell, h.symm]
      · simp only [lookupCell, ih]

/-- No listed address is below `a` or equal to it, so `a` reads as unlisted. -/
theorem lookupCell_of_lt (cs : List Host.Cell) (a : Nat) (h : ∀ c ∈ cs, a < c.1) : lookupCell cs a = unlistedByte := by
  induction cs with
  | nil => rfl
  | cons c t ih =>
    have h1 := h c (by simp)
    simp only [lookupCell]
    rw [if_neg (by omega), ih fun c hc => h c (by simp [hc])]

theorem lookupCell_putCell_self (cs : List Host.Cell) (a : Nat) (b : Byte) (h : cs.Pairwise fun x y => x.1 < y.1) :
    lookupCell (putCell cs a b) a = b := by
  induction cs with
  | nil => simp only [putCell]; split <;> simp_all [lookupCell]
  | cons c t ih =>
    obtain ⟨k, v⟩ := c
    rw [List.pairwise_cons] at h
    simp only [putCell]
    split
    · split
      · rename_i hk hb
        subst hb
        exact lookupCell_of_lt _ _ fun c hc => by
          rcases List.mem_cons.1 hc with rfl | hc
          · exact hk
          · exact Nat.lt_trans hk (h.1 c hc)
      · simp [lookupCell]
    · split
      · rename_i hk; subst hk
        split
        · rename_i hb
          subst hb
          exact lookupCell_of_lt _ _ fun c hc => h.1 c hc
        · simp [lookupCell]
      · rename_i hk
        simp only [lookupCell]
        rw [if_neg fun e => hk e.symm, ih h.2]

theorem mem_putCell {cs : List Host.Cell} {a : Nat} {b : Byte} {c : Host.Cell} (h : c ∈ putCell cs a b) :
    c ∈ cs ∨ c = (a, b) ∧ b ≠ unlistedByte := by
  induction cs with
  | nil => simp only [putCell] at h; split at h <;> simp_all
  | cons d t ih =>
    obtain ⟨k, v⟩ := d
    simp only [putCell] at h
    split at h
    · split at h
      · exact .inl h
      · rcases List.mem_cons.1 h with rfl | h
        · exact .inr ⟨rfl, ‹_›⟩
        · exact .inl h
    · split at h
      · split at h
        · exact .inl (by simp [h])
        · rcases List.mem_cons.1 h with rfl | h
          · exact .inr ⟨rfl, ‹_›⟩
          · exact .inl (by simp [h])
      · rcases List.mem_cons.1 h with rfl | h
        · exact .inl (by simp)
        · rcases ih h with h | h
          · exact .inl (by simp [h])
          · exact .inr h

theorem pairwise_putCell {cs : List Host.Cell} (a : Nat) (b : Byte) (h : cs.Pairwise fun x y => x.1 < y.1) :
    (putCell cs a b).Pairwise fun x y => x.1 < y.1 := by
  induction cs with
  | nil => simp only [putCell]; split <;> simp
  | cons d t ih =>
    obtain ⟨k, v⟩ := d
    have h' := List.pairwise_cons.1 h
    simp only [putCell]
    split
    · split
      · exact h
      · refine List.pairwise_cons.2 ⟨fun c hc => ?_, h⟩
        rcases List.mem_cons.1 hc with rfl | hc
        · assumption
        · exact Nat.lt_trans ‹_› (h'.1 c hc)
    · split
      · split
        · exact h'.2
        · rename_i hk _
          exact List.pairwise_cons.2 ⟨fun c hc => hk ▸ h'.1 c hc, h'.2⟩
      · refine List.pairwise_cons.2 ⟨fun c hc => ?_, ih h'.2⟩
        rcases mem_putCell hc with hc | ⟨rfl, _⟩
        · exact h'.1 c hc
        · simp only; omega

/-! ## Memory -/

/-- Read after write at the same address. -/
theorem Memory.read_write_self {m : Memory} (a : Word) (b : Byte) (h : m.wf) : (m.write a b).read a = b :=
  lookupCell_putCell_self _ _ _ h.1

/-- A write leaves every other address alone. -/
theorem Memory.read_write_ne (m : Memory) {a x : Word} (b : Byte) (h : x ≠ a) : (m.write a b).read x = m.read x :=
  lookupCell_putCell_ne _ _ fun e => h (BitVec.eq_of_toNat_eq e)

/-- A write keeps the canonical form. -/
theorem Memory.wf_write {m : Memory} (a : Word) (b : Byte) (h : m.wf) : (m.write a b).wf :=
  ⟨pairwise_putCell _ _ h.1, fun c hc => by
    rcases mem_putCell hc with hc | ⟨rfl, hb⟩
    · exact h.2 c hc
    · exact ⟨a.isLt, hb⟩⟩

@[simp] theorem Memory.writePending_nil (m : Memory) : m.writePending [] = m := rfl

@[simp] theorem Memory.writePending_cons (m : Memory) (p : PendingByte) (ps : List PendingByte) :
    m.writePending (p :: ps) = (m.write p.addr p.byte).writePending ps := rfl

theorem Memory.writePending_append (m : Memory) (ps qs : List PendingByte) :
    m.writePending (ps ++ qs) = (m.writePending ps).writePending qs := by
  simp [Memory.writePending, List.foldl_append]

/-- Bytes written in order keep the canonical form. -/
theorem Memory.wf_writePending {m : Memory} (ps : List PendingByte) (h : m.wf) : (m.writePending ps).wf := by
  induction ps generalizing m with
  | nil => exact h
  | cons p ps ih => exact ih (Memory.wf_write _ _ h)

/-- The last of a list of bytes that goes to an address. -/
def lastTo (ps : List PendingByte) (a : Word) : Option Byte :=
  ((ps.filter fun p => p.addr == a).getLast?).map PendingByte.byte

theorem lastTo_nil (a : Word) : lastTo [] a = none := rfl

theorem lastTo_cons (p : PendingByte) (ps : List PendingByte) (a : Word) :
    lastTo (p :: ps) a = (lastTo ps a).or (if p.addr = a then some p.byte else none) := by
  by_cases h : p.addr = a
  · simp only [lastTo, List.filter_cons, h, beq_self_eq_true, if_true, List.getLast?_cons]
    cases (ps.filter fun p => p.addr == a).getLast? <;> simp
  · simp [lastTo, h]

/-- What writing bytes in order leaves at an address: the last byte that goes there, else what was there. -/
theorem Memory.read_writePending {m : Memory} (ps : List PendingByte) (a : Word) (h : m.wf) :
    (m.writePending ps).read a = (lastTo ps a).getD (m.read a) := by
  induction ps generalizing m with
  | nil => simp [lastTo_nil]
  | cons p ps ih =>
    rw [Memory.writePending_cons, ih (Memory.wf_write _ _ h), lastTo_cons]
    by_cases e : p.addr = a
    · subst e
      simp only [if_true, Memory.read_write_self _ _ h]
      cases lastTo ps p.addr <;> simp
    · simp [e, Memory.read_write_ne _ _ (Ne.symm e)]

/-- Bytes that do not go to an address leave it alone, in any memory. -/
theorem Memory.read_writePending_ne (m : Memory) {ps : List PendingByte} {a : Word} (h : ∀ p ∈ ps, p.addr ≠ a) :
    (m.writePending ps).read a = m.read a := by
  induction ps generalizing m with
  | nil => rfl
  | cons p ps ih =>
    rw [Memory.writePending_cons, ih _ fun q hq => h q (by simp [hq]),
      Memory.read_write_ne _ _ (h p (by simp)).symm]

/-- Reading an address through writes depends on those that go there only, in any memory. -/
theorem Memory.read_writePending_filter (m : Memory) (ps : List PendingByte) (f : PendingByte → Bool) {a : Word}
    (h : ∀ p ∈ ps, p.addr = a → f p = true) (hm : m.wf) :
    (m.writePending (ps.filter f)).read a = (m.writePending ps).read a := by
  rw [Memory.read_writePending _ _ hm, Memory.read_writePending _ _ hm]
  congr 1
  simp only [lastTo, List.filter_filter]
  congr 2
  refine List.filter_congr fun p hp => ?_
  by_cases e : p.addr = a
  · simp [e, h p hp e]
  · simp [e]

/-! ## Bytes on their way to memory -/

/-- The frame of a direct write: memory and write buffer only. -/
theorem commit_frame (s : State) (ws : List (Word × Byte)) :
    commit s ws = { s with mem := (commit s ws).mem, writeBuffer := (commit s ws).writeBuffer } := by
  induction ws generalizing s with
  | nil => rfl
  | cons w ws ih => rw [show commit s (w :: ws) = commit (commitByte s w) ws from rfl, ih (commitByte s w)]; rfl

@[simp] theorem commit_nil (s : State) : commit s [] = s := rfl

theorem commit_cons (s : State) (w : Word × Byte) (ws : List (Word × Byte)) :
    commit s (w :: ws) = commit (commitByte s w) ws := rfl

theorem commit_append (s : State) (xs ys : List (Word × Byte)) : commit s (xs ++ ys) = commit (commit s xs) ys := by
  simp [commit, List.foldl_append]

theorem commit_wf {s : State} (ws : List (Word × Byte)) (h : s.mem.wf) : (commit s ws).mem.wf := by
  induction ws generalizing s with
  | nil => exact h
  | cons w ws ih => exact ih (Memory.wf_write _ _ h)

theorem commit_mem (s : State) (ws : List (Word × Byte)) :
    (commit s ws).mem = ws.foldl (fun m w => m.write w.1 w.2) s.mem := by
  induction ws generalizing s with
  | nil => rfl
  | cons w ws ih => rw [commit_cons, ih]; rfl

theorem commit_writeBuffer (s : State) (ws : List (Word × Byte)) :
    (commit s ws).writeBuffer = s.writeBuffer.filter fun p => ws.all fun w => p.addr != w.1 := by
  induction ws generalizing s with
  | nil => simp
  | cons w ws ih =>
    rw [commit_cons, ih, commitByte_writeBuffer, List.filter_filter]
    exact List.filter_congr fun p _ => by simp [Bool.and_comm]

/-- A direct write of bytes that do not go to an address leaves it, now and settled. -/
theorem commit_read_ne {s : State} {ws : List (Word × Byte)} {a : Word} (h : ∀ w ∈ ws, w.1 ≠ a) :
    (commit s ws).mem.read a = s.mem.read a := by
  induction ws generalizing s with
  | nil => rfl
  | cons w ws ih =>
    rw [commit_cons, ih fun x hx => h x (by simp [hx]), commitByte_mem, Memory.read_write_ne _ _ (h w (by simp)).symm]

/-- A direct write leaves at each address it goes to a byte it wrote there. -/
theorem commit_read_mem {s : State} {ws : List (Word × Byte)} {a : Word} {b : Byte} (hm : s.mem.wf)
    (h1 : (a, b) ∈ ws) (h2 : ∀ w ∈ ws, w.1 = a → w.2 = b) : (commit s ws).mem.read a = b := by
  induction ws generalizing s with
  | nil => simp at h1
  | cons w ws ih =>
    rw [commit_cons]
    by_cases hin : (a, b) ∈ ws
    · exact ih (Memory.wf_write _ _ hm) hin fun x hx => h2 x (by simp [hx])
    · have hw : w = (a, b) := by
        rcases List.mem_cons.1 h1 with h | h
        · exact h.symm
        · exact absurd h hin
      subst hw
      rw [commit_read_ne, commitByte_mem, Memory.read_write_self _ _ hm]
      intro x hx e
      exact hin (by have := h2 x (by simp [hx]) e; simpa [← e, ← this] using hx)

/-- With no byte of the write buffer to an address, it is settled. -/
theorem settledByte_of_forall_ne {s : State} {a : Word} (h : ∀ p ∈ s.writeBuffer, p.addr ≠ a) :
    settledByte s a = s.mem.read a := Memory.read_writePending_ne _ h

theorem settledByte_eq {s : State} (a : Word) (hm : s.mem.wf) :
    settledByte s a = (lastTo s.writeBuffer a).getD (s.mem.read a) := Memory.read_writePending _ _ hm

theorem lastTo_filter {ps : List PendingByte} {f : PendingByte → Bool} {a : Word}
    (h : ∀ p ∈ ps, p.addr = a → f p = true) : lastTo (ps.filter f) a = lastTo ps a := by
  simp only [lastTo, List.filter_filter]
  congr 2
  refine List.filter_congr fun p hp => ?_
  by_cases e : p.addr = a
  · simp [e, h p hp e]
  · simp [e]

theorem lastTo_append (ps qs : List PendingByte) (a : Word) : lastTo (ps ++ qs) a = (lastTo qs a).or (lastTo ps a) := by
  simp only [lastTo, List.filter_append, List.getLast?_append]
  cases (qs.filter fun p => p.addr == a).getLast? <;> simp

/-- A direct write settles each address it goes to. -/
theorem commit_settled_mem {s : State} {ws : List (Word × Byte)} {a : Word} {b : Byte} (hm : s.mem.wf)
    (h1 : (a, b) ∈ ws) (h2 : ∀ w ∈ ws, w.1 = a → w.2 = b) : settledByte (commit s ws) a = b := by
  rw [settledByte_of_forall_ne, commit_read_mem hm h1 h2]
  intro p hp e
  rw [commit_writeBuffer, List.mem_filter, List.all_eq_true] at hp
  simpa [e] using hp.2 _ h1

/-- A direct write leaves what any other address settles to. -/
theorem commit_settled_ne {s : State} {ws : List (Word × Byte)} {a : Word} (hm : s.mem.wf) (h : ∀ w ∈ ws, w.1 ≠ a) :
    settledByte (commit s ws) a = settledByte s a := by
  rw [settledByte_eq _ (commit_wf _ hm), settledByte_eq _ hm, commit_read_ne h, commit_writeBuffer, lastTo_filter]
  intro p _ e
  simp only [List.all_eq_true]
  intro w hw
  simpa [e] using (h w hw).symm

theorem post_settled_ne {s : State} {x : Bool} {ws : List (Word × Byte)} {a : Word} (hm : s.mem.wf)
    (h : ∀ w ∈ ws, w.1 ≠ a) : settledByte (post s x ws) a = settledByte s a := by
  rw [settledByte_eq _ (by exact hm), settledByte_eq _ hm, post_writeBuffer, lastTo_append, post_mem]
  rw [show lastTo (ws.map fun w => ({ addr := w.1, byte := w.2, explicit := x } : PendingByte)) a = none from ?_]
  · simp
  · simp only [lastTo, Option.map_eq_none_iff, List.getLast?_eq_none_iff, List.filter_eq_nil_iff, List.mem_map]
    rintro p ⟨w, hw, rfl⟩
    simpa using h w hw

theorem post_settled_mem {s : State} {x : Bool} {ws : List (Word × Byte)} {a : Word} {b : Byte} (hm : s.mem.wf)
    (h1 : (a, b) ∈ ws) (h2 : ∀ w ∈ ws, w.1 = a → w.2 = b) : settledByte (post s x ws) a = b := by
  rw [settledByte_eq _ (by exact hm), post_writeBuffer, lastTo_append]
  have : lastTo (ws.map fun w => ({ addr := w.1, byte := w.2, explicit := x } : PendingByte)) a = some b := by
    unfold lastTo
    cases hl : ((ws.map fun w => ({ addr := w.1, byte := w.2, explicit := x } : PendingByte)).filter
        fun p => p.addr == a).getLast? with
    | none =>
      rw [List.getLast?_eq_none_iff, List.filter_eq_nil_iff] at hl
      exact absurd (hl _ (List.mem_map.2 ⟨_, h1, rfl⟩)) (by simp)
    | some p =>
      have hp := List.mem_filter.1 (List.mem_of_getLast? hl)
      obtain ⟨w, hw, rfl⟩ := List.mem_map.1 hp.1
      simp only [beq_iff_eq] at hp
      simp [h2 w hw hp.2]
  simp [this]

/-- The frame of `writeOut`: memory, write buffer and free values only. -/
theorem writeOut_frame (s : State) (ws : List (Word × Byte)) :
    writeOut s ws = { s with
      mem := (writeOut s ws).mem, writeBuffer := (writeOut s ws).writeBuffer, draws := (writeOut s ws).draws } := by
  unfold writeOut
  split
  · rfl
  · split
    · conv_lhs => rw [commit_frame]
      conv_rhs => rw [commit_frame]
      rfl
    · rfl

@[simp] theorem writeOut_nil (s : State) : writeOut s [] = s := rfl

theorem writeOut_wf {s : State} (ws : List (Word × Byte)) (h : s.mem.wf) : (writeOut s ws).mem.wf := by
  unfold writeOut
  split
  · exact h
  · split
    · exact commit_wf _ h
    · exact h

theorem writeOut_read_ne {s : State} {ws : List (Word × Byte)} {a : Word} (h : ∀ w ∈ ws, w.1 ≠ a) :
    (writeOut s ws).mem.read a = s.mem.read a := by
  unfold writeOut
  split
  · rfl
  · split
    · exact commit_read_ne h
    · rfl

theorem writeOut_settled_ne {s : State} {ws : List (Word × Byte)} {a : Word} (hm : s.mem.wf) (h : ∀ w ∈ ws, w.1 ≠ a) :
    settledByte (writeOut s ws) a = settledByte s a := by
  unfold writeOut
  split
  · rfl
  · split
    · exact commit_settled_ne (s := afterDraw s) hm h
    · exact post_settled_ne (s := afterDraw s) hm h

theorem writeOut_settled_mem {s : State} {ws : List (Word × Byte)} {a : Word} {b : Byte} (hm : s.mem.wf)
    (h1 : (a, b) ∈ ws) (h2 : ∀ w ∈ ws, w.1 = a → w.2 = b) : settledByte (writeOut s ws) a = b := by
  unfold writeOut
  split
  · simp_all
  · split
    · exact commit_settled_mem (s := afterDraw s) hm h1 h2
    · exact post_settled_mem (s := afterDraw s) hm h1 h2

/-! ## The other operations on the write buffer keep the canonical form -/

theorem completeOutstanding_wf {s : State} (h : s.mem.wf) : (completeOutstanding s).mem.wf := Memory.wf_writePending _ h

theorem completeExplicit_wf {s : State} (h : s.mem.wf) : (completeExplicit s).mem.wf := Memory.wf_writePending _ h

theorem settleBlock_wf {s : State} (b : Block) (h : s.mem.wf) : (settleBlock s b).mem.wf := Memory.wf_writePending _ h

/-- A byte of the settled block is final; any other byte of memory is as it was. -/
theorem settleBlock_read {s : State} (b : Block) (a : Word) (h : s.mem.wf) :
    (settleBlock s b).mem.read a = if a.extractLsb' 5 27 = b then settledByte s a else s.mem.read a := by
  show (s.mem.writePending (s.writeBuffer.filter _)).read a = _
  split
  · rename_i e
    exact Memory.read_writePending_filter _ _ _ (fun p _ hp => by simpa [hp] using e) h
  · rename_i e
    refine Memory.read_writePending_ne _ fun p hp hpa => e ?_
    have := (List.mem_filter.1 hp).2
    rwa [beq_iff_eq, hpa] at this

/-- Settling a block changes no byte's final value. -/
theorem settleBlock_settled {s : State} (b : Block) (a : Word) (h : s.mem.wf) :
    settledByte (settleBlock s b) a = settledByte s a := by
  by_cases e : a.extractLsb' 5 27 = b
  · rw [settledByte_of_forall_ne, settleBlock_read b a h, if_pos e]
    intro p hp hpa
    have := (List.mem_filter.1 hp).2
    rw [bne_iff_ne, hpa] at this
    exact this e
  · rw [settledByte_eq _ (settleBlock_wf b h), settledByte_eq _ h, settleBlock_read b a h, if_neg e]
    congr 1
    refine lastTo_filter fun p _ hpa => ?_
    rw [bne_iff_ne, hpa]
    exact e

theorem drainByte_wf {s : State} (k : Nat) (h : s.mem.wf) : (drainByte s k).mem.wf := by
  unfold drainByte
  split
  · exact h
  · split
    · exact h
    · exact Memory.wf_write _ _ h

/-- What draining can do: there is no such byte and nothing happens; nor while an older byte goes to its address; else the byte
is written and gone from the buffer. -/
theorem drainByte_cases (s : State) (k : Nat) :
    s.writeBuffer[k]? = none ∧ drainByte s k = s
      ∨ ∃ p, s.writeBuffer[k]? = some p
        ∧ ((∃ q ∈ s.writeBuffer.take k, q.addr = p.addr) ∧ drainByte s k = s
          ∨ (∀ q ∈ s.writeBuffer.take k, q.addr ≠ p.addr)
            ∧ drainByte s k = { s with mem := s.mem.write p.addr p.byte, writeBuffer := s.writeBuffer.eraseIdx k }) := by
  unfold drainByte
  split
  · exact .inl ⟨‹_›, rfl⟩
  · rename_i p hp
    refine .inr ⟨p, hp, ?_⟩
    split
    · rename_i h
      exact .inl ⟨by simpa using h, rfl⟩
    · rename_i h
      exact .inr ⟨by simpa using h, rfl⟩

/-- Draining changes no byte's final value. -/
theorem drainByte_settled {s : State} (k : Nat) (a : Word) (h : s.mem.wf) : settledByte (drainByte s k) a = settledByte s a := by
  rcases drainByte_cases s k with ⟨-, e⟩ | ⟨p, hp, ⟨-, e⟩ | ⟨hn, e⟩⟩
  · rw [e]
  · rw [e]
  · obtain ⟨hk, rfl⟩ := List.getElem?_eq_some_iff.1 hp
    have hs : s.writeBuffer = s.writeBuffer.take k ++ s.writeBuffer[k] :: s.writeBuffer.drop (k + 1) := by simp
    rw [e, settledByte_eq _ (Memory.wf_write _ _ h), settledByte_eq _ h]
    simp only [List.eraseIdx_eq_take_drop_succ]
    conv_rhs => rw [hs]
    rw [lastTo_append, lastTo_append, lastTo_cons]
    by_cases ha : s.writeBuffer[k].addr = a
    · subst ha
      have hl : lastTo (s.writeBuffer.take k) s.writeBuffer[k].addr = none := by
        simp only [lastTo, Option.map_eq_none_iff, List.getLast?_eq_none_iff, List.filter_eq_nil_iff, beq_iff_eq]
        exact hn
      rw [hl, Memory.read_write_self _ _ h]
      cases lastTo (s.writeBuffer.drop (k + 1)) s.writeBuffer[k].addr <;> simp
    · simp [ha, Memory.read_write_ne _ _ (Ne.symm ha)]

/-! ## What a Data Memory Barrier leaves -/

/-- No explicit byte is left. -/
theorem dmbLeaves_explicit (ps : List PendingByte) : ∀ p ∈ dmbLeaves ps, p.explicit = false := by
  induction ps with
  | nil => exact fun p hp => absurd hp List.not_mem_nil
  | cons q ps ih =>
    unfold dmbLeaves
    split
    · exact ih
    · rename_i h
      intro p hp
      rcases List.mem_cons.1 hp with rfl | hp
      · simp only [Bool.or_eq_true, not_or, Bool.not_eq_true] at h; exact h.1
      · exact ih p hp

/-- What is left keeps its order. -/
theorem dmbLeaves_sublist (ps : List PendingByte) : (dmbLeaves ps).Sublist ps := by
  induction ps with
  | nil => exact .slnil
  | cons q ps ih =>
    unfold dmbLeaves
    split
    · exact ih.cons q
    · exact ih.cons_cons q

/-- Without an explicit byte to an address the barrier completes none to it. -/
theorem lastTo_dmbWaits_none {ps : List PendingByte} {a : Word} (h : ∀ q ∈ ps, q.explicit = true → q.addr ≠ a) :
    lastTo (dmbWaits ps) a = none := by
  induction ps with
  | nil => rfl
  | cons p ps ih =>
    have ht := ih fun q hq => h q (List.mem_cons_of_mem _ hq)
    unfold dmbWaits
    split
    · rename_i hc
      rw [lastTo_cons, ht]
      have hp : p.addr ≠ a := by
        rintro rfl
        simp only [Bool.or_eq_true, List.any_eq_true, Bool.and_eq_true, beq_iff_eq] at hc
        rcases hc with hc | ⟨q, hq, hqe, hqa⟩
        · exact h p (List.mem_cons_self) hc rfl
        · exact h q (List.mem_cons_of_mem _ hq) hqe hqa
      simp [hp]
    · exact ht

/-- The last byte to an address is among those left, or else among those completed. -/
theorem lastTo_dmb (ps : List PendingByte) (a : Word) : lastTo ps a = (lastTo (dmbLeaves ps) a).or (lastTo (dmbWaits ps) a) := by
  induction ps with
  | nil => rfl
  | cons p ps ih =>
    unfold dmbLeaves dmbWaits
    split
    · rw [lastTo_cons, ih, lastTo_cons, Option.or_assoc]
    · rename_i hc
      rw [lastTo_cons, lastTo_cons, ih]
      by_cases hp : p.addr = a
      · have hn : lastTo (dmbWaits ps) a = none := lastTo_dmbWaits_none fun q hq hqe hqa => hc (by
          simp only [Bool.or_eq_true, List.any_eq_true, Bool.and_eq_true, beq_iff_eq]
          exact .inr ⟨q, hq, hqe, hqa.trans hp.symm⟩)
        simp [hn]
      · simp [hp]

/-- A byte with no explicit byte to its address after it, in front of which an explicit one stands, is completed. -/
theorem lastTo_dmbLeaves_none {l r : List PendingByte} {p : PendingByte} (hp : p.explicit = true)
    (hr : ∀ q ∈ r, q.addr ≠ p.addr) : lastTo (dmbLeaves (l ++ p :: r)) p.addr = none := by
  induction l with
  | nil =>
    simp only [List.nil_append, dmbLeaves, hp, Bool.true_or, if_true]
    have hn : ∀ q ∈ dmbLeaves r, q.addr ≠ p.addr := fun q hq => hr q ((dmbLeaves_sublist r).subset hq)
    simp only [lastTo, Option.map_eq_none_iff, List.getLast?_eq_none_iff, List.filter_eq_nil_iff, beq_iff_eq]
    exact hn
  | cons q l ih =>
    rw [List.cons_append, dmbLeaves]
    split
    · exact ih
    · rename_i hc
      have hq : q.addr ≠ p.addr := fun e => hc (by
        simp only [Bool.or_eq_true, List.any_eq_true, Bool.and_eq_true, beq_iff_eq]
        exact .inr ⟨p, by simp, hp, e.symm⟩)
      rw [lastTo_cons, ih]
      simp [hq]

/-- A Data Memory Barrier changes no byte's final value. -/
theorem completeExplicit_settled {s : State} (a : Word) (h : s.mem.wf) : settledByte (completeExplicit s) a = settledByte s a := by
  rw [settledByte_eq _ (completeExplicit_wf h), settledByte_eq _ h]
  show (lastTo (dmbLeaves s.writeBuffer) a).getD ((s.mem.writePending (dmbWaits s.writeBuffer)).read a) = _
  rw [Memory.read_writePending _ _ h, lastTo_dmb s.writeBuffer]
  cases lastTo (dmbLeaves s.writeBuffer) a <;> cases lastTo (dmbWaits s.writeBuffer) a <;> rfl

/-- The last explicit byte to an address, with nothing after it, is in memory after a Data Memory Barrier. -/
theorem completeExplicit_read {s : State} {l r : List PendingByte} {p : PendingByte} (h : s.mem.wf)
    (hs : s.writeBuffer = l ++ p :: r) (hp : p.explicit = true) (hr : ∀ q ∈ r, q.addr ≠ p.addr) :
    (completeExplicit s).mem.read p.addr = p.byte := by
  show (s.mem.writePending (dmbWaits s.writeBuffer)).read p.addr = _
  have hr0 : lastTo r p.addr = none := by
    simp only [lastTo, Option.map_eq_none_iff, List.getLast?_eq_none_iff, List.filter_eq_nil_iff, beq_iff_eq]
    exact hr
  have h1 : lastTo s.writeBuffer p.addr = some p.byte := by
    rw [hs, lastTo_append, lastTo_cons, hr0]; simp
  rw [lastTo_dmb, hs, lastTo_dmbLeaves_none hp hr, ← hs] at h1
  rw [Memory.read_writePending _ _ h, show lastTo (dmbWaits s.writeBuffer) p.addr = some p.byte by simpa using h1]
  rfl

end Sys2Proof.Machine
end

