-- ==== Sys2Proof/Laws/Cache.lean ====
section
/-! SUPPORT. The caches: slots, the three actions on them, the slots a side has, what a treated block, range or entire
cache leaves, and what of it goes to memory. -/

namespace Sys2Proof.Machine

open Sys2Proof.Config

/-! ## Lines and addresses -/

theorem blockBase_toNat (b : Block) : (blockBase b).toNat = b.toNat * 32 := by
  have h : (blockBase b).toNat = b.toNat <<< 5 ||| (0#5).toNat := BitVec.toNat_append b 0#5
  simpa [Nat.shiftLeft_eq] using h

theorem byteOfBlock_toNat (b : Block) {k : Nat} (h : k < 32) : (byteOfBlock b k).toNat = b.toNat * 32 + k := by
  have hb := b.isLt
  simp only [byteOfBlock, BitVec.toNat_add, blockBase_toNat, BitVec.toNat_ofNat]
  omega

theorem lineOf_toNat (a : Word) : (lineOf a).toNat = a.toNat / 32 := by
  have ha := a.isLt
  simp only [lineOf, BitVec.extractLsb'_toNat, Nat.shiftRight_eq_div_pow]
  omega

theorem lineOf_byteOfBlock (b : Block) {k : Nat} (h : k < 32) : lineOf (byteOfBlock b k) = b := by
  apply BitVec.eq_of_toNat_eq
  rw [lineOf_toNat, byteOfBlock_toNat b h]
  omega

theorem lineOf_blockBase (b : Block) : lineOf (blockBase b) = b := by
  apply BitVec.eq_of_toNat_eq
  rw [lineOf_toNat, blockBase_toNat]
  omega

theorem byteOfBlock_inj {b c : Block} {j k : Nat} (hj : j < 32) (hk : k < 32) (h : byteOfBlock b j = byteOfBlock c k) :
    b = c ∧ j = k := by
  have hb : b = c := by rw [← lineOf_byteOfBlock b hj, h, lineOf_byteOfBlock c hk]
  refine ⟨hb, ?_⟩
  have := congrArg BitVec.toNat h
  rw [byteOfBlock_toNat b hj, byteOfBlock_toNat c hk, hb] at this
  omega

/-! ## One slot -/

@[simp] theorem Slot.invalidated_valid (sl : Slot) : sl.invalidated.valid = false := rfl
@[simp] theorem Slot.invalidated_block (sl : Slot) : sl.invalidated.block = sl.block := rfl
@[simp] theorem Slot.invalidated_isDirty (sl : Slot) : sl.invalidated.isDirty = false := rfl
@[simp] theorem Slot.invalidated_holds (b : Block) (sl : Slot) : sl.invalidated.holds b = false := rfl
@[simp] theorem Slot.invalidated_invalidated (sl : Slot) : sl.invalidated.invalidated = sl.invalidated := rfl

@[simp] theorem Slot.fade_valid (sl : Slot) : sl.fade.valid = sl.valid := rfl
@[simp] theorem Slot.fade_fading (sl : Slot) : sl.fade.fading = true := rfl
@[simp] theorem Slot.fade_isDirty (sl : Slot) : sl.fade.isDirty = sl.isDirty := rfl
@[simp] theorem Slot.fade_holds (b : Block) (sl : Slot) : sl.fade.holds b = sl.holds b := rfl
@[simp] theorem Slot.fade_settled (sl : Slot) : sl.fade.settled.valid = false := rfl
@[simp] theorem Slot.invalidated_settled (sl : Slot) : sl.invalidated.settled = sl.invalidated := rfl

theorem Slot.settled_of_fading {sl : Slot} (h : sl.fading = true) : sl.settled = sl.invalidated := if_pos h

theorem Slot.settled_of_not_fading {sl : Slot} (h : sl.fading = false) : sl.settled = sl := by simp [Slot.settled, h]

/-- A settled slot is not fading. -/
@[simp] theorem Slot.settled_fading (sl : Slot) : sl.settled.fading = false := by
  unfold Slot.settled; split
  · rfl
  · simp_all

theorem Slot.settled_isDirty {sl : Slot} (h : sl.isDirty = false) : sl.settled.isDirty = false := by
  unfold Slot.settled; split
  · rfl
  · exact h

/-- Settling never makes a slot hold a line. -/
theorem Slot.settled_holds {sl : Slot} {b : Block} (h : sl.settled.holds b = true) : sl.holds b = true := by
  unfold Slot.settled at h; split at h
  · simp at h
  · exact h

@[simp] theorem Slot.cleaned_block (sl : Slot) : sl.cleaned.block = sl.block := by unfold Slot.cleaned; split <;> rfl
@[simp] theorem Slot.cleaned_valid (sl : Slot) : sl.cleaned.valid = sl.valid := by unfold Slot.cleaned; split <;> rfl
@[simp] theorem Slot.cleaned_holds (b : Block) (sl : Slot) : sl.cleaned.holds b = sl.holds b := by simp [Slot.holds]

@[simp] theorem Slot.cleaned_isDirty (sl : Slot) : sl.cleaned.isDirty = false := by
  unfold Slot.cleaned; split
  · rfl
  · rename_i h; simpa using h

theorem Slot.cleaned_of_clean {sl : Slot} (h : sl.isDirty = false) : sl.cleaned = sl := by simp [Slot.cleaned, h]

/-- After any of the three actions a slot is not dirty. -/
@[simp] theorem LineOp.slot_isDirty (op : LineOp) (sl : Slot) : (op.slot sl).isDirty = false := by cases op <;> simp [LineOp.slot]

@[simp] theorem LineOp.slot_block (op : LineOp) (sl : Slot) : (op.slot sl).block = sl.block := by cases op <;> simp [LineOp.slot]

/-- An action never makes a slot hold a line it did not hold. -/
theorem LineOp.slot_holds {op : LineOp} {sl : Slot} {b : Block} (h : (op.slot sl).holds b = true) : sl.holds b = true := by
  cases op <;> simp_all [LineOp.slot]

/-- A second treatment changes nothing more. -/
@[simp] theorem LineOp.slot_slot (op : LineOp) (sl : Slot) : op.slot (op.slot sl) = op.slot sl := by
  cases op <;> simp only [LineOp.slot]
  · rfl
  · exact Slot.cleaned_of_clean (by simp)
  · rw [Slot.cleaned_of_clean (by simp)]; rfl

/-- After an action that is complete, or one that cleans, a slot is not dirty. -/
theorem LineOp.effect_isDirty {op : LineOp} {late : Bool} (h : op ≠ .invalidate ∨ late = false) (sl : Slot) :
    (op.effect late sl).isDirty = false := by
  cases op <;> cases late <;> simp_all [LineOp.effect]

/-- A slot that an action left dirty was dirty, and its invalidation is under way. -/
theorem LineOp.effect_dirty {op : LineOp} {late : Bool} {sl : Slot} (h : (op.effect late sl).isDirty = true) :
    sl.isDirty = true ∧ (op.effect late sl).fading = true := by
  cases op <;> cases late <;> simp_all [LineOp.effect]

@[simp] theorem LineOp.effect_false (op : LineOp) : op.effect false = op.slot := by funext sl; cases op <;> rfl

/-- An action, complete or under way, never makes a slot hold a line it did not hold. -/
theorem LineOp.effect_holds {op : LineOp} {late : Bool} {sl : Slot} {b : Block} (h : (op.effect late sl).holds b = true) :
    sl.holds b = true := by
  cases op <;> cases late <;> simp_all [LineOp.effect]

/-- An invalidation, complete or under way, is complete once settled. -/
@[simp] theorem LineOp.effect_invalidate_settled (late : Bool) (sl : Slot) :
    (LineOp.effect late .invalidate sl).settled.valid = false := by cases late <;> simp [LineOp.effect]

@[simp] theorem LineOp.effect_cleanInvalidate_settled (late : Bool) (sl : Slot) :
    (LineOp.effect late .cleanInvalidate sl).settled.valid = false := by cases late <;> simp [LineOp.effect]

theorem LineOp.writes_of_clean {op : LineOp} {sl : Slot} (h : sl.isDirty = false) : op.writes sl = [] := by
  cases op <;> simp [LineOp.writes, Slot.writeBack, h]

/-- What a clean of a slot writes: for a dirty slot its 32 bytes, each at its place; for any other nothing. -/
theorem Slot.mem_writeBack {sl : Slot} {w : Word × Byte} :
    w ∈ sl.writeBack ↔ sl.isDirty = true ∧ ∃ k : Fin 32, w = (byteOfBlock sl.addr k, sl.data[k]) := by
  unfold Slot.writeBack
  split
  · rename_i h
    simp only [h, List.mem_map, List.mem_range, true_and]
    constructor
    · rintro ⟨k, hk, rfl⟩
      exact ⟨⟨k, hk⟩, by simp [hk]⟩
    · rintro ⟨⟨k, hk⟩, rfl⟩
      exact ⟨k, hk, by simp [hk]⟩
  · simp_all

/-! ## Writing back a list of slots -/

/-- The writes are those of a clean of each slot of a list. -/
def WritesOf (l : List Slot) (ws : List (Word × Byte)) : Prop := ∀ w, w ∈ ws ↔ ∃ sl ∈ l, w ∈ sl.writeBack

theorem writesOf_flatMap (l : List Slot) : WritesOf l (l.flatMap Slot.writeBack) := fun w => by simp [List.mem_flatMap]

theorem WritesOf.mem {l : List Slot} {ws : List (Word × Byte)} (h : WritesOf l ws) {sl : Slot} (hs : sl ∈ dirtyOf l)
    (k : Fin 32) : (byteOfBlock sl.addr k, sl.data[k]) ∈ ws :=
  (h _).2 ⟨sl, (List.mem_filter.1 hs).1, Slot.mem_writeBack.2 ⟨(List.mem_filter.1 hs).2, k, rfl⟩⟩

theorem WritesOf.unique {l : List Slot} {ws : List (Word × Byte)} (h : WritesOf l ws) (ho : OneDataPerLine (dirtyOf l))
    {sl : Slot} (hs : sl ∈ dirtyOf l) (k : Fin 32) : ∀ w ∈ ws, w.1 = byteOfBlock sl.addr k → w.2 = sl.data[k] := by
  intro w hw e
  obtain ⟨x, hx, hwx⟩ := (h w).1 hw
  obtain ⟨hd, j, rfl⟩ := Slot.mem_writeBack.1 hwx
  obtain ⟨ha, hj⟩ := byteOfBlock_inj j.isLt k.isLt e
  obtain rfl : j = k := Fin.ext hj
  rw [ho x (List.mem_filter.2 ⟨hx, hd⟩) sl hs ha]

theorem WritesOf.outside {l : List Slot} {ws : List (Word × Byte)} (h : WritesOf l ws) {a : Word}
    (ha : ∀ sl ∈ dirtyOf l, lineOf a ≠ sl.addr) : ∀ w ∈ ws, w.1 ≠ a := by
  intro w hw e
  obtain ⟨x, hx, hwx⟩ := (h w).1 hw
  obtain ⟨hd, j, rfl⟩ := Slot.mem_writeBack.1 hwx
  exact ha x (List.mem_filter.2 ⟨hx, hd⟩) (by rw [← e]; exact lineOf_byteOfBlock _ j.isLt)

/-- Writing slots back directly: memory holds their data and nothing else changes in memory. -/
theorem WritesOf.commit {l : List Slot} {ws : List (Word × Byte)} (h : WritesOf l ws) (ho : OneDataPerLine (dirtyOf l))
    {s : State} (hm : s.mem.wf) : InMemory (dirtyOf l) (commit s ws) ∧ WroteBack (dirtyOf l) s (commit s ws) :=
  ⟨fun _ hs k => commit_read_mem hm (h.mem hs k) (h.unique ho hs k),
    fun _ hs k => commit_settled_mem hm (h.mem hs k) (h.unique ho hs k),
    fun _ ha => ⟨commit_read_ne (h.outside ha), commit_settled_ne hm (h.outside ha)⟩⟩

/-- Writing slots back, directly or through the write buffer. -/
theorem WritesOf.writeOut {l : List Slot} {ws : List (Word × Byte)} (h : WritesOf l ws) (ho : OneDataPerLine (dirtyOf l))
    {s : State} (hm : s.mem.wf) : WroteBack (dirtyOf l) s (writeOut s ws) :=
  ⟨fun _ hs k => writeOut_settled_mem hm (h.mem hs k) (h.unique ho hs k),
    fun _ ha => ⟨writeOut_read_ne (h.outside ha), writeOut_settled_ne hm (h.outside ha)⟩⟩

/-! ## The sides -/

@[simp] theorem setCache_instr (s : State) (c : List Slot) : setCache s .instr c = { s with ic := c } := rfl
@[simp] theorem setCache_data (s : State) (c : List Slot) : setCache s .data c = { s with dc := c } := rfl
@[simp] theorem setTcms_instr (s : State) (t : List Tcm) : setTcms s .instr t = { s with tcmI := t } := rfl
@[simp] theorem setTcms_data (s : State) (t : List Tcm) : setTcms s .data t = { s with tcmD := t } := rfl
@[simp] theorem cacheOf_instr (s : State) : cacheOf s .instr = s.ic := rfl
@[simp] theorem cacheOf_data (s : State) : cacheOf s .data = s.dc := rfl
@[simp] theorem tcmsOf_instr (s : State) : tcmsOf s .instr = s.tcmI := rfl
@[simp] theorem tcmsOf_data (s : State) : tcmsOf s .data = s.tcmD := rfl

theorem mapSide_instr (f : Slot → Slot) (s : State) :
    mapSide f s .instr = { s with ic := s.ic.map f, tcmI := s.tcmI.map (Tcm.mapSlots f) } := rfl

theorem mapSide_data (f : Slot → Slot) (s : State) :
    mapSide f s .data = { s with dc := s.dc.map f, tcmD := s.tcmD.map (Tcm.mapSlots f) } := rfl

theorem Tcm.mapSlots_mapSlots (f g : Slot → Slot) (t : Tcm) : (t.mapSlots f).mapSlots g = t.mapSlots (g ∘ f) := by
  unfold Tcm.mapSlots
  by_cases h : t.smartCache = true <;> simp [h]

theorem Tcm.mapSlots_id (t : Tcm) : t.mapSlots (fun sl => sl) = t := by unfold Tcm.mapSlots; split <;> simp

/-- Changing every slot of a side twice is changing it once. -/
theorem mapSide_mapSide (f g : Slot → Slot) (s : State) (side : Side) : mapSide g (mapSide f s side) side = mapSide (g ∘ f) s side := by
  cases side <;> simp [mapSide, Function.comp_def, Tcm.mapSlots_mapSlots]

theorem mapSide_id (s : State) (side : Side) : mapSide (fun sl => sl) s side = s := by
  cases side
  · rw [mapSide_instr, List.map_id', (List.map_congr_left fun t _ => Tcm.mapSlots_id t).trans (List.map_id' _)]
  · rw [mapSide_data, List.map_id', (List.map_congr_left fun t _ => Tcm.mapSlots_id t).trans (List.map_id' _)]

theorem mapSide_frame (f : Slot → Slot) (s : State) (side : Side) :
    mapSide f s side = { s with
      ic := (mapSide f s side).ic, tcmI := (mapSide f s side).tcmI, dc := (mapSide f s side).dc, tcmD := (mapSide f s side).tcmD } := by
  cases side <;> rfl

/-- The SmartCache slots after every slot is changed. -/
theorem smartSlots_map (f : Slot → Slot) (ts : List Tcm) : smartSlots (ts.map (Tcm.mapSlots f)) = (smartSlots ts).map f := by
  induction ts with
  | nil => rfl
  | cons t ts ih =>
    simp only [smartSlots, List.map_cons, List.flatMap_cons, List.map_append] at ih ⊢
    rw [ih]
    congr 1
    unfold Tcm.mapSlots
    by_cases h : t.smartCache = true <;> simp [h]

/-- A byte stored in a TCM changes no slot. -/
theorem smartSlots_put (a : Word) (b : Byte) (ts : List Tcm) : smartSlots (ts.map (Tcm.put a b)) = smartSlots ts := by
  have h : ∀ t : Tcm, (t.put a b).smartCache = t.smartCache ∧ (t.put a b).slots = t.slots := fun t => by
    unfold Tcm.put; split <;> exact ⟨rfl, rfl⟩
  simp only [smartSlots, List.flatMap_map, h]

/-- The slots `Holding` looks in, after every one is changed. -/
theorem sideSlots_mapSide (f : Slot → Slot) (s : State) (side : Side) : sideSlots (mapSide f s side) side = (sideSlots s side).map f := by
  cases side <;> simp [sideSlots, mapSide, smartSlots_map]

theorem cacheOf_mapSide (f : Slot → Slot) (s : State) (side : Side) : cacheOf (mapSide f s side) side = (cacheOf s side).map f := by
  cases side <;> rfl

theorem tcmsOf_mapSide (f : Slot → Slot) (s : State) (side : Side) :
    tcmsOf (mapSide f s side) side = (tcmsOf s side).map (Tcm.mapSlots f) := by
  cases side <;> rfl

/-! ## Direct writes beside changed slots -/

/-- A direct write in one expression. -/
theorem commit_eq (s : State) (ws : List (Word × Byte)) :
    commit s ws = { s with
      mem := ws.foldl (fun m w => m.write w.1 w.2) s.mem
      writeBuffer := s.writeBuffer.filter fun p => ws.all fun w => p.addr != w.1 } := by
  rw [commit_frame, commit_mem, commit_writeBuffer]

/-- Changing slots and writing bytes do not meet. -/
theorem mapSide_commit (f : Slot → Slot) (s : State) (side : Side) (ws : List (Word × Byte)) :
    mapSide f (commit s ws) side = commit (mapSide f s side) ws := by
  cases side <;> simp [commit_eq, mapSide]

theorem sideSlots_commit (s : State) (side : Side) (ws : List (Word × Byte)) : sideSlots (commit s ws) side = sideSlots s side := by
  cases side <;> simp [commit_eq, sideSlots]

theorem fcse_commit (s : State) (ws : List (Word × Byte)) (va : Word) : fcse (commit s ws) va = fcse s va := by
  simp [commit_eq, fcse]

theorem fcse_mapSide (f : Slot → Slot) (s : State) (side : Side) (va : Word) : fcse (mapSide f s side) va = fcse s va := by
  cases side <;> rfl

theorem sideSlots_writeOut (s : State) (side : Side) (ws : List (Word × Byte)) : sideSlots (writeOut s ws) side = sideSlots s side := by
  rw [writeOut_frame]; cases side <;> rfl

/-! ## The slots of one line -/

theorem treatedBy_nil (op : LineOp) (s : State) : treatedBy op s [] = fun sl => sl := by funext sl; simp [treatedBy]

/-- Treating the slots of one block, then those of the others, treats the slots of all. -/
theorem treatedBy_cons (op : LineOp) (s : State) (b : Block) (bs : List Block) :
    (treatedBy op s bs) ∘ (fun sl => if sl.holds (lineOf (fcse s (blockBase b))) then op.slot sl else sl) = treatedBy op s (b :: bs) := by
  funext sl
  simp only [Function.comp_apply, treatedBy, List.any_cons]
  by_cases h : sl.holds (lineOf (fcse s (blockBase b))) = true
  · simp only [h, if_true, Bool.true_or]
    split
    · exact LineOp.slot_slot op sl
    · rfl
  · simp [h]

theorem treatedBy_congr {op : LineOp} {s u : State} {bs : List Block}
    (h : ∀ b ∈ bs, fcse u (blockBase b) = fcse s (blockBase b)) : treatedBy op u bs = treatedBy op s bs := by
  funext sl
  simp only [treatedBy]
  rw [Bool.eq_iff_iff.2 (by simp only [List.any_eq_true]; constructor <;> rintro ⟨b, hb, hh⟩ <;> exact ⟨b, hb, by simpa [h b hb] using hh⟩ : (bs.any fun b => sl.holds (lineOf (fcse u (blockBase b)))) = true ↔ (bs.any fun b => sl.holds (lineOf (fcse s (blockBase b)))) = true)]

theorem treatedBy_isDirty {op : LineOp} {s : State} {bs : List Block} {sl : Slot} (h : (treatedBy op s bs sl).isDirty = true) :
    sl.isDirty = true ∧ treatedBy op s bs sl = sl := by
  unfold treatedBy at h ⊢
  split at h
  · simp at h
  · simp_all

/-- The loop of a blocking range operation: the slots hit are treated, and what goes to memory is what a clean of each of
them writes (nothing for an invalidate). -/
theorem treatBlocks_eq (op : LineOp) (side : Side) (bs : List Block) (s : State) :
    ∃ ws, treatBlocks op side bs s = commit (mapSide (treatedBy op s bs) s side) ws
      ∧ ∀ w, w ∈ ws ↔ ∃ sl ∈ hitBy s side bs, w ∈ op.writes sl := by
  induction bs generalizing s with
  | nil => exact ⟨[], by simp [treatBlocks, treatedBy_nil, mapSide_id], by simp [hitBy]⟩
  | cons b bs ih =>
    obtain ⟨ws, h1, h2⟩ := ih (treatBlock op side s (lineOf (fcse s (blockBase b))))
    refine ⟨heldWrites op side (lineOf (fcse s (blockBase b))) s ++ ws, ?_, ?_⟩
    · have hf : ∀ c, fcse (treatBlock op side s (lineOf (fcse s (blockBase b)))) (blockBase c) = fcse s (blockBase c) := fun c => by
        rw [treatBlock, fcse_commit, treatHeld, changeHeld, fcse_mapSide]
      rw [treatedBy_congr fun c _ => hf c] at h1
      rw [show treatBlocks op side (b :: bs) s = treatBlocks op side bs (treatBlock op side s (lineOf (fcse s (blockBase b)))) from rfl, h1,
        commit_append, treatBlock, mapSide_commit, treatHeld, changeHeld, mapSide_mapSide, treatedBy_cons]
    · intro w
      simp only [List.mem_append, h2 w, heldWrites, holding, List.mem_flatMap, List.mem_filter, hitBy]
      have hs : sideSlots (treatBlock op side s (lineOf (fcse s (blockBase b)))) side
          = (sideSlots s side).map fun sl => if sl.holds (lineOf (fcse s (blockBase b))) then op.slot sl else sl := by
        rw [treatBlock, sideSlots_commit, treatHeld, changeHeld, sideSlots_mapSide]
      have hf : ∀ c, fcse (treatBlock op side s (lineOf (fcse s (blockBase b)))) (blockBase c) = fcse s (blockBase c) := fun c => by
        rw [treatBlock, fcse_commit, treatHeld, changeHeld, fcse_mapSide]
      simp only [hs, hf, List.mem_map, List.any_cons, Bool.or_eq_true]
      constructor
      · rintro (⟨sl, ⟨h3, h4⟩, h5⟩ | ⟨_, ⟨⟨sl, h3, rfl⟩, h4⟩, h5⟩)
        · exact ⟨sl, ⟨h3, .inl h4⟩, h5⟩
        · by_cases hh : sl.holds (lineOf (fcse s (blockBase b))) = true
          · simp [hh, LineOp.writes_of_clean] at h5
          · simp only [hh] at h4 h5
            exact ⟨sl, ⟨h3, .inr h4⟩, h5⟩
      · rintro ⟨sl, ⟨h3, h4⟩, h5⟩
        by_cases hh : sl.holds (lineOf (fcse s (blockBase b))) = true
        · exact .inl ⟨sl, ⟨h3, hh⟩, h5⟩
        · refine .inr ⟨sl, ⟨⟨sl, h3, by simp [hh]⟩, ?_⟩, h5⟩
          simpa [hh] using h4

/-- What that loop leaves: the slots hit are treated, and memory is as `MemoryAfter` says; the rest of `v` stays. `v` is the
state before, but for what no part of the loop reads. -/
theorem treatBlocks_after (op : LineOp) (side : Side) (bs : List Block) {s v : State}
    (hv : v = { s with inputs := v.inputs, points := v.points, draws := v.draws, bt := v.bt, btOldPids := v.btOldPids }) :
    treatBlocks op side bs v = { mapSide (treatedBy op s bs) v side with
        mem := (treatBlocks op side bs v).mem, writeBuffer := (treatBlocks op side bs v).writeBuffer }
      ∧ MemoryAfter op (hitBy s side bs) s (treatBlocks op side bs v) := by
  obtain ⟨ws, h1, h2⟩ := treatBlocks_eq op side bs v
  have hf : ∀ va, fcse v va = fcse s va := fun va => by rw [hv]; rfl
  have hh : hitBy v side bs = hitBy s side bs := by
    have hs : sideSlots v side = sideSlots s side := by rw [hv]; cases side <;> rfl
    simp only [hitBy, hs, hf]
  have ht : treatedBy op v bs = treatedBy op s bs := treatedBy_congr fun b _ => hf _
  rw [ht] at h1
  refine ⟨by rw [h1, commit_frame], ?_⟩
  have hm0 : (mapSide (treatedBy op s bs) v side).mem = s.mem := by rw [mapSide_frame, hv]
  have hw0 : (mapSide (treatedBy op s bs) v side).writeBuffer = s.writeBuffer := by rw [mapSide_frame, hv]
  have clean : op.writes = Slot.writeBack → s.mem.wf → OneDataPerLine (dirtyOf (hitBy s side bs)) →
      InMemory (dirtyOf (hitBy s side bs)) (treatBlocks op side bs v)
        ∧ WroteBack (dirtyOf (hitBy s side bs)) s (treatBlocks op side bs v) := fun hop hm ho => by
    have hw : WritesOf (hitBy s side bs) ws := fun w => by rw [h2, hop, hh]
    obtain ⟨g1, g2, g3⟩ := hw.commit ho (s := mapSide (treatedBy op s bs) v side) (by rw [hm0]; exact hm)
    rw [h1]
    refine ⟨g1, g2, fun a h => ?_⟩
    have := g3 a h
    simp only [settledByte, hm0, hw0] at this ⊢
    exact this
  cases op with
  | invalidate =>
    have : ws = [] := List.eq_nil_iff_forall_not_mem.2 fun w hw => by
      obtain ⟨sl, -, h⟩ := (h2 w).1 hw
      simp [LineOp.writes] at h
    rw [h1, this]
    exact ⟨hm0, hw0⟩
  | clean => exact clean rfl
  | cleanInvalidate => exact clean rfl

/-! ## One slot of a side -/

/-- Reading a list after one place of it changed. -/
theorem getElem?_modify_eq {α : Type} (l : List α) (i j : Nat) (f : α → α) :
    (l.modify i f)[j]? = if j = i then (l[j]?).map f else l[j]? := by
  rw [List.getElem?_modify]
  by_cases h : i = j
  · subst h; cases l[i]? <;> simp
  · have : ¬ j = i := fun e => h e.symm
    cases l[j]? <;> simp [h, this]

theorem Tcm.getElem?_modifySlot (t : Tcm) (n : Nat) (f : Slot → Slot) (h : t.smartCache = true) (k : Nat) :
    (t.modifySlot n f).slots[k]? = if k = n then (t.slots[k]?).map f else t.slots[k]? := by
  simp only [Tcm.modifySlot, h, if_true, getElem?_modify_eq]

@[simp] theorem Tcm.modifySlot_smartCache (t : Tcm) (n : Nat) (f : Slot → Slot) : (t.modifySlot n f).smartCache = t.smartCache := by
  unfold Tcm.modifySlot; split <;> rfl

@[simp] theorem Tcm.mapSlots_smartCache (t : Tcm) (f : Slot → Slot) : (t.mapSlots f).smartCache = t.smartCache := by
  unfold Tcm.mapSlots; split <;> rfl

/-- The slot numbered `n` of TCM number `k` of a list, if that operates as SmartCache. -/
def tcmSlot (l : List Tcm) (k n : Nat) : Option Slot := (l[k]?).bind fun t => if t.smartCache then t.slots[n]? else none

theorem getSlot_tcm (s : State) (side : Side) (k n : Nat) : getSlot s side (.tcm k n) = tcmSlot (tcmsOf s side) k n := rfl

theorem getSlot_cache (s : State) (side : Side) (i : Nat) : getSlot s side (.cache i) = (cacheOf s side)[i]? := rfl

theorem tcmSlot_modify (l : List Tcm) (k n j m : Nat) (f : Slot → Slot) :
    tcmSlot (l.modify k (Tcm.modifySlot n f)) j m = if j = k ∧ m = n then (tcmSlot l j m).map f else tcmSlot l j m := by
  simp only [tcmSlot, getElem?_modify_eq]
  by_cases hk : j = k
  · subst hk
    cases l[j]? with
    | none => simp
    | some t =>
      by_cases hs : t.smartCache = true
      · simp [hs, Tcm.getElem?_modifySlot]
      · simp [hs]
  · simp [hk]

/-- The named slot takes the change, every other slot stays. -/
theorem getSlot_updateSlot (s : State) (side : Side) (r q : SlotRef) (f : Slot → Slot) :
    getSlot (updateSlot s side r f) side q = if q = r then (getSlot s side q).map f else getSlot s side q := by
  cases side <;> cases r <;> cases q <;>
    simp only [getSlot_tcm, getSlot_cache, updateSlot, setCache_instr, setCache_data, setTcms_instr, setTcms_data, cacheOf_instr,
      cacheOf_data, tcmsOf_instr, tcmsOf_data, getElem?_modify_eq, tcmSlot_modify, SlotRef.cache.injEq, SlotRef.tcm.injEq,
      reduceCtorEq, if_false]

/-- Changing one slot twice is changing it once. -/
theorem updateSlot_updateSlot (s : State) (side : Side) (r : SlotRef) (f g : Slot → Slot) :
    updateSlot (updateSlot s side r f) side r g = updateSlot s side r (g ∘ f) := by
  have key : ∀ {α : Type} (l : List α) (i : Nat) (f g : α → α), (l.modify i f).modify i g = l.modify i (g ∘ f) := fun l i f g => by
    refine List.ext_getElem? fun j => ?_
    simp only [getElem?_modify_eq]
    split <;> simp
  have tcm : ∀ n, Tcm.modifySlot n g ∘ Tcm.modifySlot n f = Tcm.modifySlot n (g ∘ f) := fun n => by
    funext t
    unfold Tcm.modifySlot
    by_cases h : t.smartCache = true <;> simp [h, key]
  cases side <;> cases r <;> simp [updateSlot, key, tcm]

theorem updateSlot_frame (s : State) (side : Side) (r : SlotRef) (f : Slot → Slot) :
    updateSlot s side r f = { s with
      ic := (updateSlot s side r f).ic, tcmI := (updateSlot s side r f).tcmI, dc := (updateSlot s side r f).dc
      tcmD := (updateSlot s side r f).tcmD } := by
  cases side <;> cases r <;> rfl

/-- A change of one slot leaves every slot of the side as it was, or changed. -/
theorem mem_sideSlots_updateSlot {s : State} {side : Side} {r : SlotRef} {f : Slot → Slot} {sl : Slot}
    (h : sl ∈ sideSlots (updateSlot s side r f) side) : sl ∈ sideSlots s side ∨ ∃ x ∈ sideSlots s side, sl = f x := by
  have key : ∀ (l : List Slot) (i : Nat), sl ∈ l.modify i f → sl ∈ l ∨ ∃ x ∈ l, sl = f x := fun l i hm => by
    obtain ⟨j, hj, rfl⟩ := List.mem_iff_getElem.1 hm
    simp only [List.length_modify] at hj
    rw [List.getElem_modify]
    split
    · exact .inr ⟨_, List.getElem_mem hj, rfl⟩
    · exact .inl (List.getElem_mem hj)
  have keyT : ∀ (l : List Tcm) (k n : Nat), sl ∈ smartSlots (l.modify k (Tcm.modifySlot n f)) →
      sl ∈ smartSlots l ∨ ∃ x ∈ smartSlots l, sl = f x := fun l k n hm => by
    simp only [smartSlots, List.mem_flatMap] at hm ⊢
    obtain ⟨t, ht, hm⟩ := hm
    obtain ⟨j, hj, rfl⟩ := List.mem_iff_getElem.1 ht
    simp only [List.length_modify] at hj
    rw [List.getElem_modify] at hm
    split at hm
    · by_cases hs : l[j].smartCache = true
      · simp only [Tcm.modifySlot_smartCache, hs, if_true] at hm
        simp only [Tcm.modifySlot, hs, if_true] at hm
        rcases key _ _ hm with hm | ⟨x, hx, rfl⟩
        · exact .inl ⟨_, List.getElem_mem hj, by simpa [hs] using hm⟩
        · exact .inr ⟨x, ⟨_, List.getElem_mem hj, by simpa [hs] using hx⟩, rfl⟩
      · simp [hs] at hm
    · exact .inl ⟨_, List.getElem_mem hj, hm⟩
  cases side <;> cases r <;> simp only [sideSlots, updateSlot, setCache_instr, setCache_data, setTcms_instr, setTcms_data,
    cacheOf_instr, cacheOf_data, tcmsOf_instr, tcmsOf_data, List.mem_append] at h ⊢ <;> rcases h with h | h
  · exact (key _ _ h).imp .inl fun ⟨x, hx, e⟩ => ⟨x, .inl hx, e⟩
  · exact .inl (.inr h)
  · exact .inl (.inl h)
  · exact (keyT _ _ _ h).imp .inr fun ⟨x, hx, e⟩ => ⟨x, .inr hx, e⟩
  · exact (key _ _ h).imp .inl fun ⟨x, hx, e⟩ => ⟨x, .inl hx, e⟩
  · exact .inl (.inr h)
  · exact .inl (.inl h)
  · exact (keyT _ _ _ h).imp .inr fun ⟨x, hx, e⟩ => ⟨x, .inr hx, e⟩

theorem length_updateSlot (s : State) (side : Side) (r : SlotRef) (f : Slot → Slot) :
    (updateSlot s side r f).dc.length = s.dc.length ∧ (updateSlot s side r f).ic.length = s.ic.length := by
  cases side <;> cases r <;> simp [updateSlot]

/-- A slot that a reference names is one of the slots of its side. -/
theorem mem_sideSlots_of_getSlot {s : State} {side : Side} {r : SlotRef} {sl : Slot} (h : getSlot s side r = some sl) :
    sl ∈ sideSlots s side := by
  cases r with
  | cache i => exact List.mem_append.2 (.inl (List.mem_of_getElem? h))
  | tcm k n =>
    refine List.mem_append.2 (.inr ?_)
    simp only [getSlot, Option.bind_eq_some_iff] at h
    obtain ⟨t, ht, h⟩ := h
    by_cases hs : t.smartCache = true
    · simp only [hs, if_true] at h
      exact List.mem_flatMap.2 ⟨t, List.mem_of_getElem? ht, by simpa [hs] using List.mem_of_getElem? h⟩
    · simp [hs] at h

/-- Cleaning one slot, and changing it in the same move: its dirty data is in memory or on its way, nothing else changes there. -/
theorem wroteBack_slot (s : State) {v : State} (side : Side) (r : SlotRef) (f : Slot → Slot) {op : LineOp}
    (hop : op.writes = Slot.writeBack) (hm : v.mem = s.mem) (hb : v.writeBuffer = s.writeBuffer) (hwf : s.mem.wf) :
    WroteBack (dirtyOf (getSlot s side r).toList) s (writeOut (updateSlot v side r f) (slotWrites op s side r)) := by
  have hw : WritesOf (getSlot s side r).toList (slotWrites op s side r) := fun w => by
    unfold slotWrites
    cases getSlot s side r <;> simp [hop]
  have ho : OneDataPerLine (dirtyOf (getSlot s side r).toList) := fun x hx y hy _ => by
    have hx := (List.mem_filter.1 hx).1
    have hy := (List.mem_filter.1 hy).1
    rw [Option.mem_toList] at hx hy
    rw [hx] at hy
    cases hy
    rfl
  have h1 : (updateSlot v side r f).mem = s.mem := by rw [updateSlot_frame, hm]
  have h2 : (updateSlot v side r f).writeBuffer = s.writeBuffer := by rw [updateSlot_frame, hb]
  obtain ⟨g1, g2⟩ := hw.writeOut ho (s := updateSlot v side r f) (by rw [h1]; exact hwf)
  refine ⟨g1, fun a h => ?_⟩
  have := g2 a h
  simp only [settledByte, h1, h2] at this ⊢
  exact this

/-! ## Everything under way completed -/

/-- The slots of a side once every invalidation under way is complete. -/
theorem sideSlots_settleAll (s : State) (side : Side) : sideSlots (settleAll s) side = (sideSlots s side).map Slot.settled := by
  cases side <;> simp [sideSlots, smartSlots_map]

theorem tcmSlot_map (l : List Tcm) (k n : Nat) (f : Slot → Slot) :
    tcmSlot (l.map (Tcm.mapSlots f)) k n = (tcmSlot l k n).map f := by
  simp only [tcmSlot, List.getElem?_map]
  cases l[k]? with
  | none => rfl
  | some t => by_cases h : t.smartCache = true <;> simp [Tcm.mapSlots, h]

/-- A named slot once every invalidation under way is complete. -/
theorem getSlot_settleAll (s : State) (side : Side) (r : SlotRef) : getSlot (settleAll s) side r = (getSlot s side r).map Slot.settled := by
  cases side <;> cases r <;> simp [getSlot_cache, getSlot_tcm, tcmSlot_map]

/-! ## A whole cache invalidated -/

theorem invalidateAll_data (late : Bool) (s : State) :
    invalidateAll late s .data = { s with dc := s.dc.map (LineOp.effect late .invalidate) } := rfl

theorem flush_invalidateAll_instr (late : Bool) (s : State) :
    flushBtac late (invalidateAll late s .instr) = { s with
      ic := s.ic.map (LineOp.effect late .invalidate), btac := if late then s.btac.map Branch.fade else [] } := rfl

/-- Both caches invalidated, each complete or under way, and C with the data cache. -/
theorem invalidateBoth_eq (i d : Bool) (s : State) :
    clearCdsr d (invalidateAll d (flushBtac i (invalidateAll i s .instr)) .data) = { s with
      ic := s.ic.map (LineOp.effect i .invalidate), dc := s.dc.map (LineOp.effect d .invalidate)
      btac := if i then s.btac.map Branch.fade else [], cdsrC := s.cdsrC && d, cdsrClearing := d } := by
  rw [flush_invalidateAll_instr, invalidateAll_data, clearCdsr]

/-! ## The whole data cache, in any order -/

/-- The slots treated at the numbers of a list. -/
def mapAt (f : Slot → Slot) (order : List Nat) (l : List Slot) : List Slot := l.mapIdx fun n sl => if n ∈ order then f sl else sl

theorem getElem?_mapAt (f : Slot → Slot) (order : List Nat) (l : List Slot) (n : Nat) :
    (mapAt f order l)[n]? = if n ∈ order then (l[n]?).map f else l[n]? := by
  simp only [mapAt, List.getElem?_mapIdx]
  split <;> cases l[n]? <;> simp

theorem length_mapAt (f : Slot → Slot) (order : List Nat) (l : List Slot) : (mapAt f order l).length = l.length := by simp [mapAt]

/-- If the order covers every slot, every slot is treated. -/
theorem mapAt_of_forall {f : Slot → Slot} {order : List Nat} {l : List Slot} (h : ∀ n < l.length, n ∈ order) : mapAt f order l = l.map f := by
  refine List.ext_getElem? fun n => ?_
  rw [getElem?_mapAt, List.getElem?_map]
  split
  · rfl
  · rename_i hn
    rw [List.getElem?_eq_none (Nat.le_of_not_lt fun hl => hn (h n hl))]
    rfl

/-- The slots treated by an entire clean, in whatever order, and what goes to memory. -/
theorem treatEntire_eq (op : LineOp) (order : List Nat) (s : State) :
    ∃ ws, treatEntire op order s = commit { s with dc := mapAt op.slot order s.dc } ws
      ∧ ∀ w, w ∈ ws ↔ ∃ n ∈ order, ∃ sl, s.dc[n]? = some sl ∧ w ∈ op.writes sl := by
  induction order generalizing s with
  | nil =>
    have : mapAt op.slot [] s.dc = s.dc := List.ext_getElem? fun n => by rw [getElem?_mapAt]; simp
    exact ⟨[], by simp [treatEntire, this], by simp⟩
  | cons i order ih =>
    obtain ⟨ws, h1, h2⟩ := ih (treatIndex op s i)
    have hdc : (treatIndex op s i).dc = s.dc.modify i op.slot := by
      rw [treatIndex, commit_frame]; rfl
    refine ⟨slotWrites op s .data (.cache i) ++ ws, ?_, ?_⟩
    · have hcat : mapAt op.slot order (s.dc.modify i op.slot) = mapAt op.slot (i :: order) s.dc := by
        refine List.ext_getElem? fun n => ?_
        rw [getElem?_mapAt, getElem?_mapAt, getElem?_modify_eq]
        by_cases hn : n = i
        · subst hn
          cases s.dc[n]? <;> simp
        · simp [hn]
      rw [show treatEntire op (i :: order) s = treatEntire op order (treatIndex op s i) from rfl, h1, hdc, hcat, commit_append]
      simp only [treatIndex, commit_eq, updateSlot, setCache_data]
    · intro w
      simp only [List.mem_append, h2 w, hdc, slotWrites, getSlot, cacheOf_data, List.mem_cons]
      constructor
      · rintro (h | ⟨n, hn, sl, hsl, hw⟩)
        · split at h
          · exact ⟨i, .inl rfl, _, ‹_›, h⟩
          · simp at h
        · rw [getElem?_modify_eq] at hsl
          by_cases hi : n = i
          · subst hi
            rw [if_pos rfl, Option.map_eq_some_iff] at hsl
            obtain ⟨x, -, rfl⟩ := hsl
            simp [LineOp.writes_of_clean] at hw
          · rw [if_neg hi] at hsl
            exact ⟨n, .inr hn, sl, hsl, hw⟩
      · rintro ⟨n, hn, sl, hsl, hw⟩
        by_cases hi : n = i
        · subst hi
          left; rw [hsl]; exact hw
        · exact .inr ⟨n, hn.resolve_left hi, sl, by rw [getElem?_modify_eq, if_neg hi, hsl], hw⟩

/-- What that loop leaves in memory. `v` is the state before, but for what no part of the loop reads. -/
theorem treatEntire_after {op : LineOp} (hop : op.writes = Slot.writeBack) (order : List Nat) {s v : State}
    (hd : v.dc = s.dc) (hm : v.mem = s.mem) (hb : v.writeBuffer = s.writeBuffer) (hwf : s.mem.wf)
    (ho : OneDataPerLine (dirtyOf (order.filterMap fun n => s.dc[n]?))) :
    InMemory (dirtyOf (order.filterMap fun n => s.dc[n]?)) (treatEntire op order v)
      ∧ WroteBack (dirtyOf (order.filterMap fun n => s.dc[n]?)) s (treatEntire op order v) := by
  obtain ⟨ws, h1, h2⟩ := treatEntire_eq op order v
  have hw : WritesOf (order.filterMap fun n => s.dc[n]?) ws := fun w => by
    rw [h2]
    simp only [List.mem_filterMap, hop, hd]
    constructor
    · rintro ⟨n, hn, sl, hs, h⟩; exact ⟨sl, ⟨n, hn, hs⟩, h⟩
    · rintro ⟨sl, ⟨n, hn, hs⟩, h⟩; exact ⟨n, hn, sl, hs, h⟩
  obtain ⟨g1, g2, g3⟩ := hw.commit ho (s := { v with dc := mapAt op.slot order v.dc }) (by simp only [hm]; exact hwf)
  rw [h1]
  refine ⟨g1, g2, fun a h => ?_⟩
  have := g3 a h
  simp only [settledByte, hm, hb] at this ⊢
  exact this

/-- A shuffle of a list visits every element of it. -/
theorem mem_shuffle {n : Nat} {l : List Nat} {d : Draws} (hn : l.length = n) {x : Nat} (hx : x ∈ l) : x ∈ shuffle n l d := by
  induction n generalizing l d with
  | zero => simp_all [List.length_eq_zero_iff]
  | succ n ih =>
    have hlt : d.head % l.length < l.length := Nat.mod_lt _ (by omega)
    simp only [shuffle, List.getElem?_eq_getElem hlt, Option.getD_some]
    by_cases e : x = l[d.head % l.length]
    · exact List.mem_cons.2 (.inl e)
    · refine List.mem_cons.2 (.inr (ih (by rw [List.length_eraseIdx, if_pos hlt, hn]; rfl) ?_))
      obtain ⟨j, hj, rfl⟩ := List.mem_iff_getElem.1 hx
      rw [List.mem_eraseIdx_iff_getElem]
      exact ⟨j, hj, fun h => e (by simp [h]), rfl⟩

/-- The order an entire clean draws covers the whole data cache. -/
theorem mem_visitOrder (s : State) {n : Nat} (h : n < s.dc.length) : n ∈ visitOrder s :=
  mem_shuffle (by simp) (List.mem_range.2 h)

theorem length_shuffle (n : Nat) (l : List Nat) (d : Draws) : (shuffle n l d).length = n := by
  induction n generalizing l d with
  | zero => rfl
  | succ n ih => simp [shuffle, ih]

@[simp] theorem length_visitOrder (s : State) : (visitOrder s).length = s.dc.length := length_shuffle ..

/-- A shuffle of a list without repetition has none, and takes from the list. -/
theorem nodup_shuffle {n : Nat} {l : List Nat} (d : Draws) (hn : n ≤ l.length) (hl : l.Nodup) :
    (shuffle n l d).Nodup ∧ ∀ x ∈ shuffle n l d, x ∈ l := by
  induction n generalizing l d with
  | zero => simp [shuffle]
  | succ n ih =>
    have hlt : d.head % l.length < l.length := Nat.mod_lt _ (by omega)
    have h := ih (l := l.eraseIdx (d.head % l.length)) d.tail (by rw [List.length_eraseIdx]; split <;> omega) (hl.eraseIdx _)
    simp only [shuffle, List.getElem?_eq_getElem hlt, Option.getD_some, List.nodup_cons]
    refine ⟨⟨fun hm => ?_, h.1⟩, fun x hx => ?_⟩
    · obtain ⟨j, hj, hne, he⟩ := List.mem_eraseIdx_iff_getElem.1 (h.2 _ hm)
      exact hne (hl.getElem_inj_iff.1 he)
    · rcases List.mem_cons.1 hx with rfl | hx
      · exact List.getElem_mem _
      · exact List.mem_of_mem_eraseIdx (h.2 x hx)

/-- Each slot of the data cache is visited once. -/
theorem nodup_visitOrder (s : State) : (visitOrder s).Nodup ∧ ∀ n ∈ visitOrder s, n < s.dc.length :=
  have h := nodup_shuffle (l := List.range s.dc.length) s.draws (by simp) List.nodup_range
  ⟨h.1, fun n hn => List.mem_range.1 (h.2 n hn)⟩

end Sys2Proof.Machine
end

