-- ==== Sys2Proof/Laws/Access.lean ====
section
/-! SUPPORT. The checks of every access, each said once: what a check answers when it passes and when it does not; and what
the loops along interrupt points can do. -/

namespace Sys2Proof.Machine

open Sys2Proof.Config

/-! ## The checks -/

theorem c7Access_admitted {c : Cond} {u : Bool} {ops : List RegNo} {s : State} (h : Admitted c u ops s) (body : Result) :
    c7Access c u ops s body = body := by
  obtain ⟨h1, h2, h3⟩ := h
  simp only [c7Access, h1, if_true, Bool.or_eq_true, h2, List.contains_iff_mem, h3, if_false]

theorem c7Access_failed {c : Cond} {s : State} (h : condHolds c s.cpsr = false) (u : Bool) (ops : List RegNo) (body : Result) :
    c7Access c u ops s body = .next (advance s) := by simp [c7Access, h]

theorem c7Access_undefined {c : Cond} {u : Bool} {s : State} (h : condHolds c s.cpsr = true) (hp : privileged s = false)
    (hu : u = false) (ops : List RegNo) (body : Result) : c7Access c u ops s body = .next (raiseUndefined s) := by
  simp [c7Access, h, hp, hu]

theorem c7Access_r15 {c : Cond} {u : Bool} {ops : List RegNo} {s : State} (h : condHolds c s.cpsr = true)
    (hu : privileged s = true ∨ u = true) (hm : 15#4 ∈ ops) (body : Result) : c7Access c u ops s body = .refused .r15Operand := by
  simp only [c7Access, h, if_true, Bool.or_eq_true, hu, List.contains_iff_mem, hm]

/-- Everything an access can end in: its body, the advance of a failed condition, the exception, the refusal of r15. -/
theorem c7Access_cases (c : Cond) (u : Bool) (ops : List RegNo) (s : State) (body : Result) :
    c7Access c u ops s body = body ∧ Admitted c u ops s
      ∨ c7Access c u ops s body = .next (advance s) ∧ condHolds c s.cpsr = false
      ∨ c7Access c u ops s body = .next (raiseUndefined s) ∧ condHolds c s.cpsr = true ∧ privileged s = false ∧ u = false
      ∨ c7Access c u ops s body = .refused .r15Operand ∧ 15#4 ∈ ops := by
  by_cases h1 : condHolds c s.cpsr = true
  · by_cases h2 : privileged s = true ∨ u = true
    · by_cases h3 : 15#4 ∈ ops
      · exact .inr (.inr (.inr ⟨c7Access_r15 h1 h2 h3 _, h3⟩))
      · exact .inl ⟨c7Access_admitted ⟨h1, h2, h3⟩ _, h1, h2, h3⟩
    · rw [not_or, Bool.not_eq_true, Bool.not_eq_true] at h2
      exact .inr (.inr (.inl ⟨c7Access_undefined h1 h2.1 h2.2 _ _, h1, h2.1, h2.2⟩))
  · rw [Bool.not_eq_true] at h1
    exact .inr (.inl ⟨c7Access_failed h1 _ _ _, h1⟩)

/-- A next state of an access is one of its body's, or the advance, or the exception. -/
theorem c7Access_next {c : Cond} {u : Bool} {ops : List RegNo} {s t : State} {body : Result}
    (h : c7Access c u ops s body = .next t) :
    body = .next t ∧ Admitted c u ops s ∨ t = advance s
      ∨ t = raiseUndefined s ∧ condHolds c s.cpsr = true ∧ privileged s = false ∧ u = false := by
  rcases c7Access_cases c u ops s body with ⟨e, ha⟩ | ⟨e, ha⟩ | ⟨e, ha⟩ | ⟨e, ha⟩ <;> rw [e] at h
  · exact .inl ⟨h, ha⟩
  · cases h; exact .inr (.inl rfl)
  · cases h; exact .inr (.inr ⟨rfl, ha⟩)
  · cases h

theorem requireSbz_zero {rd : RegNo} {s : State} (h : readReg s rd = 0) (body : Result) : requireSbz rd s body = body := if_pos h

theorem requireSbz_nonzero {rd : RegNo} {s : State} (h : readReg s rd ≠ 0) (body : Result) :
    requireSbz rd s body = .refused .nonzeroSbz := if_neg h

theorem requireUnlocked_of {s : State} (h : s.lockdown = false) (body : Result) : requireUnlocked s body = body := by
  simp [requireUnlocked, h]

theorem requireRa_of {s : State} (h : s.aux.ra = false) (body : Result) : requireRa s body = body := by simp [requireRa, h]

theorem requireRv_of {s : State} (h : s.aux.rv = false) (body : Result) : requireRv s body = body := by simp [requireRv, h]

theorem requireTranslates_of {mva : Word} {acc : Access} {s : State} (h : translates s mva acc = true) (body : Result) :
    requireTranslates mva acc s body = body := if_pos h

/-- A check that answers a next state answered with its body. -/
theorem requireSbz_next {rd : RegNo} {s t : State} {body : Result} (h : requireSbz rd s body = .next t) : body = .next t := by
  unfold requireSbz at h; split at h
  · exact h
  · cases h

theorem requireUnlocked_next {s t : State} {body : Result} (h : requireUnlocked s body = .next t) : body = .next t := by
  unfold requireUnlocked at h; split at h
  · cases h
  · exact h

theorem requireRa_next {s t : State} {body : Result} (h : requireRa s body = .next t) : body = .next t := by
  unfold requireRa at h; split at h
  · cases h
  · exact h

theorem requireRv_next {s t : State} {body : Result} (h : requireRv s body = .next t) : body = .next t := by
  unfold requireRv at h; split at h
  · cases h
  · exact h

theorem requireTranslates_next {mva : Word} {acc : Access} {s t : State} {body : Result}
    (h : requireTranslates mva acc s body = .next t) : body = .next t := by
  unfold requireTranslates at h; split at h
  · exact h
  · cases h

/-! ## Interrupt points -/

theorem samplePoint_frame (s : State) : samplePoint s = { s with inputs := (samplePoint s).inputs, points := (samplePoint s).points } := by
  unfold samplePoint; split <;> rfl

theorem afterPoint_frame (s : State) : afterPoint s = { s with draws := (afterPoint s).draws } := by
  unfold afterPoint; split <;> rfl

/-- What a walk uses up: inputs, points and free values, nothing else. -/
theorem walkPoints_frame (l : List Slot) (s : State) :
    (walkPoints l s).after = { s with
      inputs := (walkPoints l s).after.inputs, points := (walkPoints l s).after.points, draws := (walkPoints l s).after.draws } := by
  induction l generalizing s with
  | nil => rfl
  | cons x l ih =>
    unfold walkPoints
    split
    · rfl
    · split
      · simp only; rw [afterPoint_frame, samplePoint_frame]
      · simp only; rw [ih, afterPoint_frame, samplePoint_frame]

/-- A walk that takes nothing passes every item. -/
theorem walkPoints_treated {l : List Slot} {s : State} (h : (walkPoints l s).taken = none) : (walkPoints l s).treated = l.length := by
  induction l generalizing s with
  | nil => rfl
  | cons x l ih =>
    unfold walkPoints at h ⊢
    split
    · rfl
    · rename_i hq
      rw [if_neg hq] at h
      split at h
      · cases h
      · simp only at h ⊢
        simp [ih h]

/-- A walk passes no more than there is. -/
theorem walkPoints_treated_le (l : List Slot) (s : State) : (walkPoints l s).treated ≤ l.length := by
  induction l generalizing s with
  | nil => simp [walkPoints]
  | cons x l ih =>
    unfold walkPoints
    split
    · simp
    · split
      · simp
      · simpa using ih _

theorem walkPoints_quiet {s : State} (h : quiet s = true) (l : List Slot) :
    walkPoints l s = { treated := l.length, taken := none, after := s } := by
  cases l <;> simp [walkPoints, h]

/-- What a point takes is asserted there and unmasked. -/
theorem pointChoice_pending {s : State} {e : Event} (h : pointChoice s = some e) : Pending e s.inputs s.cpsr := by
  have hm : ∀ x ∈ enabledInterrupts s, Pending x s.inputs s.cpsr := fun x hx => by
    simp only [enabledInterrupts, List.mem_append] at hx
    rcases hx with hx | hx <;> split at hx <;> simp_all [Pending]
  unfold pointChoice at h
  split at h
  · cases h
  · rename_i x xs hl
    rw [hl] at hm
    exact hm e (List.mem_of_getElem? h)

/-- The levels a point samples are those of before or the next ones presented, of which the rest is left. -/
theorem samplePoint_levels (s : State) :
    (samplePoint s).inputs :: (samplePoint s).points <:+ s.inputs :: s.points := by
  unfold samplePoint
  split
  · exact List.suffix_refl _
  · rename_i i rest h
    rw [h]; exact List.suffix_cons _ _

/-- A point uses up a level and a free value; the status is as before. -/
theorem point_after (s : State) :
    (samplePoint s).cpsr = s.cpsr ∧ (afterPoint (samplePoint s)).cpsr = s.cpsr
      ∧ (afterPoint (samplePoint s)).inputs = (samplePoint s).inputs
      ∧ (afterPoint (samplePoint s)).inputs :: (afterPoint (samplePoint s)).points <:+ s.inputs :: s.points := by
  have h := samplePoint_levels s
  rw [afterPoint_frame]
  exact ⟨by rw [samplePoint_frame], by rw [samplePoint_frame], rfl, h⟩

/-- The interrupt taken on the way is asserted by the levels sampled last, and unmasked. -/
theorem walkPoints_taken {l : List Slot} {s : State} {e : Event} (h : (walkPoints l s).taken = some e) :
    Pending e (walkPoints l s).after.inputs s.cpsr ∧ (walkPoints l s).after.inputs ∈ s.inputs :: s.points := by
  induction l generalizing s with
  | nil => cases h
  | cons x l ih =>
    obtain ⟨hs, hc, hi, hp⟩ := point_after s
    unfold walkPoints at h ⊢
    split at h
    · cases h
    · rename_i hq
      rw [if_neg hq]
      split at h
      · rename_i he
        cases h
        simp only [hi]
        exact ⟨hs ▸ pointChoice_pending he, hp.subset (by simp [hi])⟩
      · exact ⟨hc ▸ (ih h).1, hp.subset (ih h).2⟩

theorem pointChoice_quiet {s : State} (h : quiet s = true) : samplePoint s = s ∧ pointChoice s = none ∧ afterPoint s = s := by
  simp only [quiet, Bool.and_eq_true, List.isEmpty_iff] at h
  exact ⟨by simp [samplePoint, h.1], by simp [pointChoice, h.2], by simp [afterPoint, h.2]⟩

theorem walkRange_frame (acc : Access) (bs : List Block) (s : State) :
    (walkRange acc bs s).after = { s with
      inputs := (walkRange acc bs s).after.inputs, points := (walkRange acc bs s).after.points
      draws := (walkRange acc bs s).after.draws } := by
  induction bs generalizing s with
  | nil => rfl
  | cons b bs ih =>
    unfold walkRange
    simp only
    split
    · simp only; rw [afterPoint_frame, samplePoint_frame]
    · split
      · simp only; rw [afterPoint_frame, samplePoint_frame]
      · simp only; rw [ih, afterPoint_frame, samplePoint_frame]

/-- The interrupt a range ends with is asserted by the levels sampled last, and unmasked. -/
theorem walkRange_interrupted {acc : Access} {bs : List Block} {s : State} {e : Event}
    (h : (walkRange acc bs s).ended = .interrupted e) :
    Pending e (walkRange acc bs s).after.inputs s.cpsr ∧ (walkRange acc bs s).after.inputs ∈ s.inputs :: s.points := by
  induction bs generalizing s with
  | nil => cases h
  | cons b bs ih =>
    obtain ⟨hs, hc, hi, hp⟩ := point_after s
    unfold walkRange at h ⊢
    simp only at h ⊢
    split at h
    · rename_i he
      cases h
      simp only [hi]
      exact ⟨hs ▸ pointChoice_pending he, hp.subset (by simp [hi])⟩
    · split at h
      · cases h
      · exact ⟨hc ▸ (ih h).1, hp.subset (ih h).2⟩

/-- With no interrupt point in use and every block translating, the walk passes every block. -/
theorem walkRange_completes {acc : Access} {bs : List Block} {s : State} (hq : quiet s = true)
    (h : ∀ b ∈ bs, translates s (fcse s (blockBase b)) acc = true) :
    walkRange acc bs s = { treated := bs.length, ended := .completed, after := s } := by
  induction bs with
  | nil => rfl
  | cons b bs ih =>
    obtain ⟨h1, h2, h3⟩ := pointChoice_quiet hq
    have hb := h b (by simp)
    unfold translates at hb
    unfold walkRange
    simp only [h1, h2, h3]
    split at hb
    · rename_i ht
      simp only [ht, ih fun c hc => h c (by simp [hc]), List.length_cons]
    · cases hb

/-- With no interrupt point in use the walk ends at the first block that does not translate. -/
theorem walkRange_aborts {acc : Access} {pre post : List Block} {b : Block} {r : Word} {s : State} (hq : quiet s = true)
    (h : ∀ x ∈ pre, translates s (fcse s (blockBase x)) acc = true) (hb : translate s (fcse s (blockBase b)) acc = .faults r) :
    walkRange acc (pre ++ b :: post) s = {
      treated := pre.length, after := s
      ended := .aborted { va := blockBase b, mva := fcse s (blockBase b), access := acc, reason := r } } := by
  obtain ⟨h1, h2, h3⟩ := pointChoice_quiet hq
  induction pre with
  | nil =>
    simp only [List.nil_append]
    unfold walkRange
    simp only [h1, h2, h3, hb, List.length_nil]
  | cons x pre ih =>
    have hx := h x (by simp)
    unfold translates at hx
    simp only [List.cons_append]
    unfold walkRange
    simp only [h1, h2, h3]
    split at hx
    · rename_i ht
      simp only [ht, ih fun c hc => h c (by simp [hc]), List.length_cons]
    · cases hx

/-- A walk that completes passes every block. -/
theorem walkRange_treated {acc : Access} {bs : List Block} {s : State} (h : (walkRange acc bs s).ended = .completed) :
    (walkRange acc bs s).treated = bs.length := by
  induction bs generalizing s with
  | nil => rfl
  | cons b bs ih =>
    unfold walkRange at h ⊢
    simp only at h ⊢
    split at h
    · cases h
    · split at h
      · cases h
      · simp only at h ⊢; simp [ih h]

/-- The points a walk passes change neither `fcse` nor `translate`. -/
theorem afterPoint_sample (s : State) (mva : Word) (acc : Access) :
    fcse (afterPoint (samplePoint s)) mva = fcse s mva ∧ translate (afterPoint (samplePoint s)) mva acc = translate s mva acc := by
  rw [afterPoint_frame, samplePoint_frame]; exact ⟨rfl, rfl⟩

/-- A walk that is not interrupted ends at the first block that does not translate. -/
theorem walkRange_aborted {acc : Access} {pre post : List Block} {b : Block} {r : Word} {s : State}
    (hi : ∀ e, (walkRange acc (pre ++ b :: post) s).ended ≠ .interrupted e)
    (h : ∀ x ∈ pre, translates s (fcse s (blockBase x)) acc = true) (hb : translate s (fcse s (blockBase b)) acc = .faults r) :
    (walkRange acc (pre ++ b :: post) s).treated = pre.length ∧ (walkRange acc (pre ++ b :: post) s).ended
      = .aborted { va := blockBase b, mva := fcse s (blockBase b), access := acc, reason := r } := by
  induction pre generalizing s with
  | nil =>
    simp only [List.nil_append] at hi ⊢
    unfold walkRange at hi ⊢
    simp only at hi ⊢
    split at hi
    · exact absurd rfl (hi _)
    · simp [hb]
  | cons x pre ih =>
    have hx := h x (by simp)
    simp only [List.cons_append] at hi ⊢
    unfold walkRange at hi ⊢
    simp only at hi ⊢
    split at hi
    · exact absurd rfl (hi _)
    · unfold translates at hx
      split at hx
      · rename_i ht
        simp only [ht] at hi ⊢
        have h1 := fun va => (afterPoint_sample s va acc).1
        have h2 := fun va => (afterPoint_sample s va acc).2
        have := ih (s := afterPoint (samplePoint s)) hi (fun y hy => by unfold translates; rw [h1, h2]; exact h y (by simp [hy]))
          (by rw [h1, h2]; exact hb)
        simp [this.1, this.2, h1]
      · cases hx

/-! ## The comparison of Start and End -/

theorem startAboveEnd_of_runs {s : State} {start stop : Word} (h : RangeRuns start stop) :
    startAboveEnd s start stop = false ∧ afterCompare s start stop = s := by
  rcases h with h | ⟨h1, h2⟩
  · have hne : lineOf start ≠ lineOf stop := fun e => by rw [e] at h; omega
    simp [startAboveEnd, afterCompare, hne, Nat.le_of_lt h]
  · unfold startAboveEnd afterCompare
    rw [if_neg (by rw [h1]; omega), if_neg (by omega), if_neg (by omega)]
    exact ⟨rfl, rfl⟩

theorem startAboveEnd_of_line {s : State} {start stop : Word} (h : (lineOf stop).toNat < (lineOf start).toNat) :
    startAboveEnd s start stop = true ∧ afterCompare s start stop = s := by
  have hne : lineOf start ≠ lineOf stop := fun e => by rw [e] at h; omega
  simp [startAboveEnd, afterCompare, hne, h]

/-- When the range runs, the Start Address's line is not above the End Address's. -/
theorem line_le_of_startAboveEnd {s : State} {start stop : Word} (h : startAboveEnd s start stop = false) :
    (lineOf start).toNat ≤ (lineOf stop).toNat := by
  unfold startAboveEnd at h
  split at h
  · cases h
  · omega

end Sys2Proof.Machine
end

