-- ==== Sys2Proof/Laws/Decode.lean ====
section
/-! SUPPORT. The fields of an encoded word, and what decoding a word built from fields gives. -/

namespace Sys2Proof

theorem toNat_append_mul {n m : Nat} (x : BitVec n) (y : BitVec m) : (x ++ y).toNat = x.toNat * 2 ^ m + y.toNat := by
  rw [BitVec.toNat_append, Nat.shiftLeft_eq, Nat.mul_comm, Nat.two_pow_add_eq_or_of_lt y.isLt]

/-- A word of format CPRT as a number. -/
theorem cprt_toNat (c : Cond) (opcode1 : BitVec 3) (read : BitVec 1) (rd : RegNo) (opcode2 : BitVec 3) (crm : BitVec 4) :
    (cprt c opcode1 read rd opcode2 crm).toNat
      = c.bits.toNat * 2 ^ 28 + 14 * 2 ^ 24 + opcode1.toNat * 2 ^ 21 + read.toNat * 2 ^ 20 + 7 * 2 ^ 16 + rd.toNat * 2 ^ 12
        + 15 * 2 ^ 8 + opcode2.toNat * 2 ^ 5 + 2 ^ 4 + crm.toNat := by
  unfold cprt
  simp only [toNat_append_mul, BitVec.toNat_ofNat]
  omega

/-- A word of format CPRRT as a number. -/
theorem cprrt_toNat (c : Cond) (rn rd : RegNo) (opcode1 crm : BitVec 4) :
    (cprrt c rn rd opcode1 crm).toNat
      = c.bits.toNat * 2 ^ 28 + 0xC4 * 2 ^ 20 + rn.toNat * 2 ^ 16 + rd.toNat * 2 ^ 12 + 15 * 2 ^ 8 + opcode1.toNat * 2 ^ 4 + crm.toNat := by
  unfold cprrt
  simp only [toNat_append_mul, BitVec.toNat_ofNat]
  omega

theorem Cond.ofBits_bits (c : Cond) : Cond.ofBits c.bits = some c := by cases c <;> rfl

theorem Cond.bits_of_ofBits {b : BitVec 4} {c : Cond} (h : Cond.ofBits b = some c) : c.bits = b := by
  revert h; revert b; cases c <;> decide

theorem Cond.ofBits_none {b : BitVec 4} : Cond.ofBits b = none ↔ b = 15#4 := by revert b; decide

/-- A field of a word whose number is known. -/
theorem extractLsb'_of_toNat {w : Word} {lo len : Nat} {x : BitVec len} (h : w.toNat / 2 ^ lo % 2 ^ len = x.toNat) :
    w.extractLsb' lo len = x := by
  apply BitVec.eq_of_toNat_eq
  rw [BitVec.extractLsb'_toNat, Nat.shiftRight_eq_div_pow, h]

/-- Every word of format CPRT decodes by its selector. -/
theorem decode_cprt (c : Cond) (opcode1 : BitVec 3) (read : BitVec 1) (rd : RegNo) (opcode2 : BitVec 3) (crm : BitVec 4) :
    decode (cprt c opcode1 read rd opcode2 crm) = .ok (decodeCprt c read opcode1 crm opcode2 rd) := by
  have h := cprt_toNat c opcode1 read rd opcode2 crm
  have h1 := c.bits.isLt; have h2 := opcode1.isLt; have h3 := read.isLt; have h4 := rd.isLt; have h5 := opcode2.isLt
  have h6 := crm.isLt
  have e1 : (cprt c opcode1 read rd opcode2 crm).extractLsb' 28 4 = c.bits := extractLsb'_of_toNat (by rw [h]; omega)
  have e2 : (cprt c opcode1 read rd opcode2 crm).extractLsb' 24 4 = 0b1110#4 := extractLsb'_of_toNat (by rw [h]; simp; omega)
  have e3 : (cprt c opcode1 read rd opcode2 crm).extractLsb' 16 4 = 7#4 := extractLsb'_of_toNat (by rw [h]; simp; omega)
  have e4 : (cprt c opcode1 read rd opcode2 crm).extractLsb' 8 4 = 15#4 := extractLsb'_of_toNat (by rw [h]; simp; omega)
  have e5 : (cprt c opcode1 read rd opcode2 crm).extractLsb' 4 1 = 1#1 := extractLsb'_of_toNat (by rw [h]; simp; omega)
  have e6 : (cprt c opcode1 read rd opcode2 crm).extractLsb' 20 1 = read := extractLsb'_of_toNat (by rw [h]; omega)
  have e7 : (cprt c opcode1 read rd opcode2 crm).extractLsb' 21 3 = opcode1 := extractLsb'_of_toNat (by rw [h]; omega)
  have e8 : (cprt c opcode1 read rd opcode2 crm).extractLsb' 0 4 = crm := extractLsb'_of_toNat (by rw [h]; omega)
  have e9 : (cprt c opcode1 read rd opcode2 crm).extractLsb' 5 3 = opcode2 := extractLsb'_of_toNat (by rw [h]; omega)
  have e10 : (cprt c opcode1 read rd opcode2 crm).extractLsb' 12 4 = rd := extractLsb'_of_toNat (by rw [h]; omega)
  simp only [decode, e1, e2, e3, e4, e5, e6, e7, e8, e9, e10, Cond.ofBits_bits, and_self, if_true]

/-- Every word of format CPRRT decodes by its selector. -/
theorem decode_cprrt (c : Cond) (rn rd : RegNo) (opcode1 crm : BitVec 4) :
    decode (cprrt c rn rd opcode1 crm) = .ok (decodeCprrt c opcode1 crm rd rn) := by
  have h := cprrt_toNat c rn rd opcode1 crm
  have h1 := c.bits.isLt; have h2 := rn.isLt; have h3 := rd.isLt; have h4 := opcode1.isLt; have h5 := crm.isLt
  have e1 : (cprrt c rn rd opcode1 crm).extractLsb' 28 4 = c.bits := extractLsb'_of_toNat (by rw [h]; omega)
  have e2 : (cprrt c rn rd opcode1 crm).extractLsb' 24 4 = 0b1100#4 := extractLsb'_of_toNat (by rw [h]; simp; omega)
  have e3 : (cprrt c rn rd opcode1 crm).extractLsb' 20 8 = 0b11000100#8 := extractLsb'_of_toNat (by rw [h]; simp; omega)
  have e4 : (cprrt c rn rd opcode1 crm).extractLsb' 8 4 = 15#4 := extractLsb'_of_toNat (by rw [h]; simp; omega)
  have e5 : (cprrt c rn rd opcode1 crm).extractLsb' 4 4 = opcode1 := extractLsb'_of_toNat (by rw [h]; omega)
  have e6 : (cprrt c rn rd opcode1 crm).extractLsb' 0 4 = crm := extractLsb'_of_toNat (by rw [h]; omega)
  have e7 : (cprrt c rn rd opcode1 crm).extractLsb' 12 4 = rd := extractLsb'_of_toNat (by rw [h]; omega)
  have e8 : (cprrt c rn rd opcode1 crm).extractLsb' 16 4 = rn := extractLsb'_of_toNat (by rw [h]; omega)
  simp only [decode, e1, e2, e3, e4, e5, e6, e7, e8, Cond.ofBits_bits, and_self, if_true]
  rfl

/-- A word of format CPRT to CP15 c7 is the word of its fields. -/
theorem eq_cprt {w : Word} {c : Cond} (hc : c.bits = w.extractLsb' 28 4) (h1 : w.extractLsb' 24 4 = 0b1110#4)
    (h2 : w.extractLsb' 16 4 = 7#4) (h3 : w.extractLsb' 8 4 = 15#4) (h4 : w.extractLsb' 4 1 = 1#1) :
    w = cprt c (w.extractLsb' 21 3) (w.extractLsb' 20 1) (w.extractLsb' 12 4) (w.extractLsb' 5 3) (w.extractLsb' 0 4) := by
  apply BitVec.eq_of_toNat_eq
  have e0 := congrArg BitVec.toNat hc; have e1 := congrArg BitVec.toNat h1; have e2 := congrArg BitVec.toNat h2
  have e3 := congrArg BitVec.toNat h3; have e4 := congrArg BitVec.toNat h4; have hw := w.isLt
  simp only [BitVec.extractLsb'_toNat, Nat.shiftRight_eq_div_pow, BitVec.toNat_ofNat] at e0 e1 e2 e3 e4
  rw [cprt_toNat, e0]
  simp only [BitVec.extractLsb'_toNat, Nat.shiftRight_eq_div_pow]
  omega

/-- A word of format CPRRT to CP15 is the word of its fields. -/
theorem eq_cprrt {w : Word} {c : Cond} (hc : c.bits = w.extractLsb' 28 4) (h1 : w.extractLsb' 20 8 = 0b11000100#8)
    (h2 : w.extractLsb' 8 4 = 15#4) :
    w = cprrt c (w.extractLsb' 16 4) (w.extractLsb' 12 4) (w.extractLsb' 4 4) (w.extractLsb' 0 4) := by
  apply BitVec.eq_of_toNat_eq
  have e0 := congrArg BitVec.toNat hc; have e1 := congrArg BitVec.toNat h1; have e2 := congrArg BitVec.toNat h2
  have hw := w.isLt
  simp only [BitVec.extractLsb'_toNat, Nat.shiftRight_eq_div_pow, BitVec.toNat_ofNat] at e0 e1 e2
  rw [cprrt_toNat, e0]
  simp only [BitVec.extractLsb'_toNat, Nat.shiftRight_eq_div_pow]
  omega

/-- The two ways a word decodes. -/
theorem decode_ok {w : Word} {i : Instr} (h : decode w = .ok i) :
    (∃ c rd read opcode1 crm opcode2, w = cprt c opcode1 read rd opcode2 crm ∧ i = decodeCprt c read opcode1 crm opcode2 rd)
      ∨ ∃ c rd rn opcode1 crm, w = cprrt c rn rd opcode1 crm ∧ i = decodeCprrt c opcode1 crm rd rn := by
  unfold decode at h
  split at h
  · split at h <;> cases h
  · rename_i c hc
    have hc' := Cond.bits_of_ofBits hc
    split at h
    · rename_i hm
      cases h
      exact .inl ⟨c, _, _, _, _, _, eq_cprt hc' hm.1 hm.2.1 hm.2.2.1 hm.2.2.2, rfl⟩
    · split at h
      · rename_i hm
        cases h
        exact .inr ⟨c, _, _, _, _, eq_cprrt hc' hm.1 hm.2, rfl⟩
      · split at h <;> cases h

theorem bitVec1_cases : ∀ m : BitVec 1, m = 0 ∨ m = 1 := by decide

theorem bitVec3_mem : ∀ m : BitVec 3, m ∈ (List.range 8).map (BitVec.ofNat 3) := by decide

theorem bitVec4_mem : ∀ m : BitVec 4, m ∈ (List.range 16).map (BitVec.ofNat 4) := by decide

/-- A selector that no function and no unified-cache encoding has decodes to the fallback of MCR and MRC. -/
theorem decodeCprt_other {read : BitVec 1} {opcode1 : BitVec 3} {crm : BitVec 4} {opcode2 : BitVec 3}
    (h : isDefinedCprt read opcode1 crm opcode2 = false) (c : Cond) (rd : RegNo) :
    decodeCprt c read opcode1 crm opcode2 rd = .c7OtherCprt c rd read opcode1 crm opcode2 := by
  by_cases ho : opcode1 = 0
  · subst ho
    have hm := bitVec4_mem crm
    have hp := bitVec3_mem opcode2
    simp only [List.range, List.range.loop, List.map, List.mem_cons, List.not_mem_nil, or_false] at hm hp
    revert h
    rcases bitVec1_cases read with rfl | rfl <;>
      rcases hm with rfl | rfl | rfl | rfl | rfl | rfl | rfl | rfl | rfl | rfl | rfl | rfl | rfl | rfl | rfl | rfl <;>
      rcases hp with rfl | rfl | rfl | rfl | rfl | rfl | rfl | rfl <;>
      first
        | (intro _; rfl)
        | (intro h; exact absurd h (by decide))
  · have : opcode1.toNat ≠ 0 := fun e => ho (BitVec.eq_of_toNat_eq e)
    unfold decodeCprt
    split <;> first
      | rfl
      | contradiction

/-- A selector that no range operation has decodes to the fallback of MCRR. -/
theorem decodeCprrt_other {opcode1 crm : BitVec 4} (h : isDefinedMcrr opcode1 crm = false) (c : Cond) (rd rn : RegNo) :
    decodeCprrt c opcode1 crm rd rn = .cp15OtherMcrr c rd rn opcode1 crm := by
  unfold decodeCprrt
  split <;> first
    | rfl
    | (exfalso; simp_all [isDefinedMcrr])

end Sys2Proof
end

