-- ==== Sys2Proof/Laws/Exec.lean ====
section
/-! SUPPORT. What each shared meaning can answer, said once: the next states, and what they leave alone. -/

namespace Sys2Proof.Machine

open Sys2Proof.Config

/-- The two outcomes of an access that are not its own effect: the advance of a failed condition, and the Undefined
Instruction exception, taken in User mode or for an encoding that is always Undefined. -/
def TurnedAway (s t : State) : Prop := t = advance s ∨ t = raiseUndefined s

theorem c7Access_effect {c : Cond} {u : Bool} {ops : List RegNo} {s t : State} {body : Result}
    (h : c7Access c u ops s body = .next t) : TurnedAway s t ∨ body = .next t ∧ Admitted c u ops s := by
  rcases c7Access_next h with h | h | h
  · exact .inr h
  · exact .inl (.inl h)
  · exact .inl (.inr h.1)

theorem alwaysUndefined_next {c : Cond} {s t : State} (h : alwaysUndefined c s = .next t) : TurnedAway s t := by
  unfold alwaysUndefined at h
  split at h <;> cases h
  · exact .inr rfl
  · exact .inl rfl

theorem unifiedNop_next {c : Cond} {rd : RegNo} {s t : State} (h : unifiedNop c rd s = .next t) : TurnedAway s t := by
  rcases c7Access_effect h with h | ⟨h, -⟩
  · exact h
  · cases h; exact .inl rfl

theorem lineByMva_next {op : LineOp} {side : Side} {c : Cond} {rd : RegNo} {s t : State}
    (h : lineByMva op side c rd s = .next t) :
    TurnedAway s t ∨ Admitted c false [rd] s ∧ t = advance (writeOut (changeHeld (op.effect (delayed s)) side (lineOf (readReg s rd)) (afterDraw s))
      (heldWrites op side (lineOf (readReg s rd)) s)) := by
  rcases c7Access_effect h with h | ⟨h, ha⟩
  · exact .inl h
  · have := requireTranslates_next (requireUnlocked_next h)
    cases this
    exact .inr ⟨ha, rfl⟩

theorem lineBySetWay_next {op : LineOp} {side : Side} {c : Cond} {rd : RegNo} {s t : State}
    (h : lineBySetWay op side c rd s = .next t) :
    TurnedAway s t ∨ Admitted c false [rd] s ∧ ∃ r, slotOf s side (readReg s rd) = .ok r
      ∧ t = advance (writeOut (updateSlot (afterDraw s) side r (op.effect (delayed s))) (slotWrites op s side r)) := by
  rcases c7Access_effect h with h | ⟨h, ha⟩
  · exact .inl h
  · have := requireUnlocked_next h
    split at this
    · cases this
    · rename_i r hr
      cases this
      exact .inr ⟨ha, r, hr, rfl⟩

/-- Taking a pending interrupt is the exception entry of its name. -/
theorem takeInterrupt_of {e : Event} {levels : Inputs} {psr : Word} (h : Pending e levels psr) (link : Word) (s : State) :
    ∃ x, (e, x) ∈ [(Event.irq, Exc.irq), (.fiq, .fiq)] ∧ takeInterrupt e link s = takeException x link s := by
  rcases h with ⟨rfl, -⟩ | ⟨rfl, -⟩
  · exact ⟨.irq, by simp, rfl⟩
  · exact ⟨.fiq, by simp, rfl⟩

theorem cleanEntire_next {op : LineOp} {s t : State} (h : cleanEntire op s = .next t) :
    (walkPoints s.dc s).taken = none
        ∧ t = advance { treatEntire op ((visitOrder (walkPoints s.dc s).after).take (walkPoints s.dc s).treated)
            (afterOrder (walkPoints s.dc s).after) with cdsrC := false }
      ∨ ∃ e x, (e, x) ∈ [(Event.irq, Exc.irq), (.fiq, .fiq)] ∧ (walkPoints s.dc s).taken = some e
        ∧ t = takeException x (s.pc + 4) (treatEntire op
          ((visitOrder (walkPoints s.dc s).after).take (walkPoints s.dc s).treated) (afterOrder (walkPoints s.dc s).after)) := by
  unfold cleanEntire at h
  simp only at h
  split at h
  · rename_i e he
    obtain ⟨x, hx, hxe⟩ := takeInterrupt_of (walkPoints_taken he).1 (s.pc + 4) (treatEntire op
      ((visitOrder (walkPoints s.dc s).after).take (walkPoints s.dc s).treated) (afterOrder (walkPoints s.dc s).after))
    cases h
    exact .inr ⟨e, x, hx, he, hxe⟩
  · rename_i he
    cases h
    exact .inl ⟨he, rfl⟩

theorem blockingRun_next {op : LineOp} {side : Side} {acc : Access} {bs : List Block} {s t : State}
    (h : blockingRun op side acc bs s = .next t) :
    t = advance (treatBlocks op side (bs.take (walkRange acc bs s).treated) (walkRange acc bs s).after)
      ∨ (∃ e x, (e, x) ∈ [(Event.irq, Exc.irq), (.fiq, .fiq)] ∧ (walkRange acc bs s).ended = .interrupted e
        ∧ t = takeException x (s.pc + 4)
        (treatBlocks op side (bs.take (walkRange acc bs s).treated) (walkRange acc bs s).after))
      ∨ ∃ f, (walkRange acc bs s).ended = .aborted f
        ∧ t = raiseDataAbort f (treatBlocks op side (bs.take (walkRange acc bs s).treated) (walkRange acc bs s).after) := by
  unfold blockingRun at h
  simp only at h
  split at h
  · cases h; exact .inl rfl
  · rename_i e he
    obtain ⟨x, hx, hxe⟩ := takeInterrupt_of (walkRange_interrupted he).1 (s.pc + 4)
      (treatBlocks op side (bs.take (walkRange acc bs s).treated) (walkRange acc bs s).after)
    cases h
    exact .inr (.inl ⟨e, x, hx, he, hxe⟩)
  · rename_i f hf
    cases h
    exact .inr (.inr ⟨f, hf, rfl⟩)

theorem blockingRange_next {op : LineOp} {side : Side} {acc : Access} {u : Bool} {c : Cond} {rd rn : RegNo} {s t : State}
    (h : blockingRange op side acc u c rd rn s = .next t) :
    TurnedAway s t ∨ Admitted c u [rd, rn] s
      ∧ (t = advance (noRange (afterCompare s (readReg s rn) (readReg s rd)))
        ∨ blockingRun op side acc (rangeBlocks (readReg s rn) (readReg s rd))
            (abandon (afterCompare s (readReg s rn) (readReg s rd))) = .next t) := by
  rcases c7Access_effect h with h | ⟨h, ha⟩
  · exact .inl h
  · have := requireRv_next (requireUnlocked_next h)
    split at this
    · cases this; exact .inr ⟨ha, .inl rfl⟩
    · exact .inr ⟨ha, .inr this⟩

theorem prefetchRange_next {side : Side} {c : Cond} {rd rn : RegNo} {s t : State} (h : prefetchRange side c rd rn s = .next t) :
    TurnedAway s t ∨ Admitted c true [rd, rn] s
      ∧ (t = advance (noRange (afterCompare s (readReg s rn) (readReg s rd)))
        ∨ (lineOf (readReg s rn)).toNat ≤ (lineOf (readReg s rd)).toNat
          ∧ t = advance { abandon (afterCompare s (readReg s rn) (readReg s rd)) with
            bt := some { side := side, cur := lineOf (readReg s rn), last := lineOf (readReg s rd) } }) := by
  rcases c7Access_effect h with h | ⟨h, ha⟩
  · exact .inl h
  · have := requireRv_next (requireUnlocked_next h)
    split at this
    · cases this; exact .inr ⟨ha, .inl rfl⟩
    · rename_i hn
      rw [Bool.not_eq_true] at hn
      cases this; exact .inr ⟨ha, .inr ⟨line_le_of_startAboveEnd hn, rfl⟩⟩

theorem afterCompare_frame (s : State) (start stop : Word) :
    afterCompare s start stop = { s with draws := (afterCompare s start stop).draws } := by
  unfold afterCompare; split <;> rfl

/-- The instruction that ends without operating: the transfer unchanged or abandoned, a free value used up or not. -/
theorem noRange_frame (s : State) :
    noRange s = { s with bt := (noRange s).bt, btOldPids := (noRange s).btOldPids, draws := (noRange s).draws }
      ∧ ((noRange s).bt = s.bt ∧ (noRange s).btOldPids = s.btOldPids ∨ (noRange s).bt = none ∧ (noRange s).btOldPids = []) := by
  unfold noRange
  split
  · exact ⟨rfl, .inl ⟨rfl, rfl⟩⟩
  · split
    · exact ⟨rfl, .inr ⟨rfl, rfl⟩⟩
    · exact ⟨rfl, .inl ⟨rfl, rfl⟩⟩

theorem treatEntire_frame (op : LineOp) (order : List Nat) (s : State) :
    treatEntire op order s = { s with
      dc := (treatEntire op order s).dc, mem := (treatEntire op order s).mem, writeBuffer := (treatEntire op order s).writeBuffer } := by
  obtain ⟨ws, h, -⟩ := treatEntire_eq op order s
  rw [h, commit_frame]

theorem treatBlocks_frame (op : LineOp) (side : Side) (bs : List Block) (s : State) :
    treatBlocks op side bs s = { s with
      dc := (treatBlocks op side bs s).dc, ic := (treatBlocks op side bs s).ic, tcmD := (treatBlocks op side bs s).tcmD
      tcmI := (treatBlocks op side bs s).tcmI, mem := (treatBlocks op side bs s).mem
      writeBuffer := (treatBlocks op side bs s).writeBuffer } := by
  obtain ⟨ws, h, -⟩ := treatBlocks_eq op side bs s
  rw [h, commit_frame, mapSide_frame]

theorem evictSlot_frame (s : State) (side : Side) (r : SlotRef) :
    evictSlot s side r = { s with
      dc := (evictSlot s side r).dc, ic := (evictSlot s side r).ic, tcmD := (evictSlot s side r).tcmD
      tcmI := (evictSlot s side r).tcmI, mem := (evictSlot s side r).mem, writeBuffer := (evictSlot s side r).writeBuffer
      draws := (evictSlot s side r).draws } := by
  unfold evictSlot
  rw [writeOut_frame, updateSlot_frame]

theorem loadSlot_frame (s : State) (side : Side) (r : SlotRef) (mva : Word) (pb : Block) :
    loadSlot s side r mva pb = { s with
      dc := (loadSlot s side r mva pb).dc, ic := (loadSlot s side r mva pb).ic, tcmD := (loadSlot s side r mva pb).tcmD
      tcmI := (loadSlot s side r mva pb).tcmI, mem := (loadSlot s side r mva pb).mem
      writeBuffer := (loadSlot s side r mva pb).writeBuffer } := by
  unfold loadSlot
  simp only
  rw [updateSlot_frame]
  split <;> rfl

/-- What a fill touches: the slots, and what evicting one writes. -/
theorem fillSlot_frame (s : State) (side : Side) (mva : Word) :
    fillSlot s side mva = { s with
      dc := (fillSlot s side mva).dc, ic := (fillSlot s side mva).ic, tcmD := (fillSlot s side mva).tcmD
      tcmI := (fillSlot s side mva).tcmI, mem := (fillSlot s side mva).mem
      writeBuffer := (fillSlot s side mva).writeBuffer, draws := (fillSlot s side mva).draws } := by
  unfold fillSlot
  split
  · split
    · rfl
    · rfl
    · split
      · rfl
      · split
        · rfl
        · rw [loadSlot_frame, evictSlot_frame]; rfl
  · rfl

theorem changeHeld_frame (f : Slot → Slot) (side : Side) (b : Block) (s : State) :
    changeHeld f side b s = { s with
      ic := (changeHeld f side b s).ic, tcmI := (changeHeld f side b s).tcmI, dc := (changeHeld f side b s).dc
      tcmD := (changeHeld f side b s).tcmD } := mapSide_frame _ s side

/-! ## After a Data Synchronization Barrier -/

/-- What a Data Synchronization Barrier leaves of a state. -/
def barred (t : State) : State := advance (completeOutstanding (settleAll t))

theorem dsb_exec {c : Cond} {rd : RegNo} {t : State} (ha : Admitted c true [rd] t) (hz : readReg t rd = 0) :
    exec (.dsb c rd) t = .next (barred t) :=
  (c7Access_admitted ha _).trans (requireSbz_zero hz _)

/-- To show what holds after a barrier, show it of the one state the barrier leaves. -/
theorem afterDsb_of {t : State} {P : State → Prop} (h : P (barred t)) : AfterDsb t P :=
  fun _ _ ha hz => ⟨_, dsb_exec ha hz, h⟩

theorem barred_frame (t : State) : barred t = { t with
    pc := t.pc + 4, mem := t.mem.writePending t.writeBuffer, writeBuffer := [], dc := t.dc.map Slot.settled
    ic := t.ic.map Slot.settled, tcmD := t.tcmD.map (Tcm.mapSlots Slot.settled)
    tcmI := t.tcmI.map (Tcm.mapSlots Slot.settled), btac := t.btac.filter fun x => !x.fading
    cdsrC := t.cdsrC && !t.cdsrClearing, cdsrClearing := false } := rfl

/-- Memory then holds what every byte was to become. -/
theorem barred_read (t : State) (a : Word) : (barred t).mem.read a = settledByte t a := rfl

theorem sideSlots_barred (t : State) (side : Side) : sideSlots (barred t) side = (sideSlots t side).map Slot.settled := by
  rw [← sideSlots_settleAll]; cases side <;> rfl

theorem getSlot_barred (t : State) (side : Side) (r : SlotRef) : getSlot (barred t) side r = (getSlot t side r).map Slot.settled := by
  rw [← getSlot_settleAll]; cases side <;> cases r <;> rfl

/-- A line is held after the barrier by the settled slots that hold it. -/
theorem holding_barred_nil {t : State} {side : Side} {b : Block}
    (h : ∀ sl ∈ sideSlots t side, sl.holds b = true → sl.fading = true) : holding (barred t) side b = [] := by
  rw [holding, sideSlots_barred, List.filter_eq_nil_iff]
  intro sl hs
  obtain ⟨x, hx, rfl⟩ := List.mem_map.1 hs
  intro hh
  rw [Slot.settled_of_fading (h x hx (Slot.settled_holds hh))] at hh
  simp at hh

/-! ## Every instruction at once -/

/-- The eight single-line operations that treat slots, with their action and side (42_single_line R170). -/
def lineOps (c : Cond) (rd : RegNo) : List (Instr × LineOp × Side) :=
  [(.invIcacheMva c rd, .invalidate, .instr), (.invDcacheMva c rd, .invalidate, .data), (.cleanDcacheMva c rd, .clean, .data),
    (.cleaninvDcacheMva c rd, .cleanInvalidate, .data), (.invIcacheSw c rd, .invalidate, .instr),
    (.invDcacheSw c rd, .invalidate, .data), (.cleanDcacheSw c rd, .clean, .data), (.cleaninvDcacheSw c rd, .cleanInvalidate, .data)]

/-- What each instruction answers when it is not turned away: its own effect, one line per meaning. -/
def OwnEffect (i : Instr) (s t : State) : Prop :=
  match i with
  | .wfi _ _ => t = { s with standby := true }
  | .invIcacheAll _ _ => t = advance { afterDraw s with
      ic := s.ic.map (LineOp.effect (delayed s) .invalidate), btac := if delayed s then s.btac.map Branch.fade else [] }
  | .invIcacheMva c rd | .invDcacheMva c rd | .cleanDcacheMva c rd | .cleaninvDcacheMva c rd =>
    ∃ op side, (i, op, side) ∈ lineOps c rd
      ∧ t = advance (writeOut (changeHeld (op.effect (delayed s)) side (lineOf (readReg s rd)) (afterDraw s)) (heldWrites op side (lineOf (readReg s rd)) s))
  | .invIcacheSw c rd | .invDcacheSw c rd | .cleanDcacheSw c rd | .cleaninvDcacheSw c rd =>
    ∃ op side r, (i, op, side) ∈ lineOps c rd ∧ slotOf s side (readReg s rd) = .ok r
      ∧ t = advance (writeOut (updateSlot (afterDraw s) side r (op.effect (delayed s))) (slotWrites op s side r))
  | .flushPrefetchBuffer _ _ => t = advance (flushPfb s)
  | .flushBtcAll _ _ => t = advance (flushBtac (delayed s) (afterDraw s))
  | .flushBtcMva _ rd => t = advance (flushBtacEntry (delayed s) (afterDraw s) (readReg s rd))
  | .invDcacheAll _ _ => t = advance { afterDraw s with
      dc := s.dc.map (LineOp.effect (delayed s) .invalidate), cdsrC := s.cdsrC && delayed s, cdsrClearing := delayed s }
  | .invBothAll _ _ => t = advance { afterDraw (afterDraw s) with
      ic := s.ic.map (LineOp.effect (delayed s) .invalidate)
      dc := s.dc.map (LineOp.effect (delayed (afterDraw s)) .invalidate)
      btac := if delayed s then s.btac.map Branch.fade else [], cdsrC := s.cdsrC && delayed (afterDraw s)
      cdsrClearing := delayed (afterDraw s) }
  | .cleanDcacheAll _ _ => cleanEntire .clean s = .next t
  | .cleaninvDcacheAll _ _ => cleanEntire .cleanInvalidate s = .next t
  | .dsb _ _ => t = barred s
  | .dmb _ _ => t = advance (completeExplicit s)
  | .readCdsr _ rd => t = advance (writeReg s rd (statusWord s.cdsrC))
  | .readBtsr _ rd => t = advance (writeReg s rd (statusWord (btsrR s)))
  | .stopPrefetchRange _ _ => t = advance (abandon s)
  | .prefetchIcacheMva _ rd =>
    t = advance (if holding s .instr (lineOf (readReg s rd)) = [] then fillSlot s .instr (readReg s rd) else s)
  | .invIcacheRange c rd rn | .invDcacheRange c rd rn | .cleanDcacheRange c rd rn | .cleaninvDcacheRange c rd rn =>
    t = advance (noRange (afterCompare s (readReg s rn) (readReg s rd)))
      ∨ ∃ op side acc, (i, op, side, acc) ∈ blockingOps c rd rn
        ∧ blockingRun op side acc (rangeBlocks (readReg s rn) (readReg s rd))
          (abandon (afterCompare s (readReg s rn) (readReg s rd))) = .next t
  | .prefetchIcacheRange _ rd rn | .prefetchDcacheRange _ rd rn =>
    t = advance (noRange (afterCompare s (readReg s rn) (readReg s rd)))
      ∨ (lineOf (readReg s rn)).toNat ≤ (lineOf (readReg s rd)).toNat
        ∧ ∃ side, t = advance { abandon (afterCompare s (readReg s rn) (readReg s rd)) with
            bt := some { side := side, cur := lineOf (readReg s rn), last := lineOf (readReg s rd) } }
  | .unifiedNopC7k1 _ _ | .unifiedNopC7k2 _ _ | .unifiedNopC7k3 _ _ | .unifiedNopC7k4 _ _ | .unifiedNopC7k5 _ _
  | .unifiedNopC7k6 _ _ | .unifiedNopC7k7 _ _ | .unifiedNopC11 _ _ _ | .unifiedNopC15 _ _ _ | .cp15OtherMcrr _ _ _ _ _ =>
    t = advance s
  | .c7OtherCprt _ _ _ _ _ _ => False

/-- Everything `exec` can answer with a next state: a turning away, or the instruction's own effect with its checks passed. -/
theorem exec_next {i : Instr} {s t : State} (h : exec i s = .next t) :
    TurnedAway s t ∨ Admitted (Instr.cond i) (Instr.userOk s.debugState i) (Instr.operands i) s ∧ OwnEffect i s t := by
  have line : ∀ {op side c rd}, lineByMva op side c rd s = .next t → (i, op, side) ∈ lineOps c rd →
      TurnedAway s t ∨ Admitted c false [rd] s ∧ ∃ op side, (i, op, side) ∈ lineOps c rd
        ∧ t = advance (writeOut (changeHeld (op.effect (delayed s)) side (lineOf (readReg s rd)) (afterDraw s)) (heldWrites op side (lineOf (readReg s rd)) s)) :=
    fun h hm => (lineByMva_next h).imp_right fun ⟨ha, ht⟩ => ⟨ha, _, _, hm, ht⟩
  have setWay : ∀ {op side c rd}, lineBySetWay op side c rd s = .next t → (i, op, side) ∈ lineOps c rd →
      TurnedAway s t ∨ Admitted c false [rd] s ∧ ∃ op side r, (i, op, side) ∈ lineOps c rd
        ∧ slotOf s side (readReg s rd) = .ok r ∧ t = advance (writeOut (updateSlot (afterDraw s) side r (op.effect (delayed s))) (slotWrites op s side r)) :=
    fun h hm => (lineBySetWay_next h).imp_right fun ⟨ha, r, hr, ht⟩ => ⟨ha, _, _, r, hm, hr, ht⟩
  have range : ∀ {op side acc u c rd rn}, blockingRange op side acc u c rd rn s = .next t →
      (i, op, side, acc) ∈ blockingOps c rd rn → TurnedAway s t ∨ Admitted c u [rd, rn] s
        ∧ (t = advance (noRange (afterCompare s (readReg s rn) (readReg s rd)))
          ∨ ∃ op side acc, (i, op, side, acc) ∈ blockingOps c rd rn
            ∧ blockingRun op side acc (rangeBlocks (readReg s rn) (readReg s rd))
              (abandon (afterCompare s (readReg s rn) (readReg s rd))) = .next t) :=
    fun h hm => (blockingRange_next h).imp_right fun ⟨ha, ht⟩ => ⟨ha, ht.imp_right fun h => ⟨_, _, _, hm, h⟩⟩
  have prefetch : ∀ {side c rd rn}, prefetchRange side c rd rn s = .next t → TurnedAway s t ∨ Admitted c true [rd, rn] s
      ∧ (t = advance (noRange (afterCompare s (readReg s rn) (readReg s rd)))
        ∨ (lineOf (readReg s rn)).toNat ≤ (lineOf (readReg s rd)).toNat
          ∧ ∃ side, t = advance { abandon (afterCompare s (readReg s rn) (readReg s rd)) with
              bt := some { side := side, cur := lineOf (readReg s rn), last := lineOf (readReg s rd) } }) :=
    fun h => (prefetchRange_next h).imp_right fun ⟨ha, ht⟩ => ⟨ha, ht.imp_right fun ⟨hl, ht⟩ => ⟨hl, _, ht⟩⟩
  have plain : ∀ {c u ops body} {P : Prop}, c7Access c u ops s body = .next t → (body = .next t → P) →
      TurnedAway s t ∨ Admitted c u ops s ∧ P :=
    fun h hP => (c7Access_effect h).imp_right fun ⟨hb, ha⟩ => ⟨ha, hP hb⟩
  have next : ∀ {x : State}, (Host.Outcome.next x : Result) = .next t → t = x := fun h => by cases h; rfl
  cases i with
  | invIcacheMva | invDcacheMva | cleanDcacheMva | cleaninvDcacheMva => exact line h (by simp [lineOps, Instr.cond])
  | invIcacheSw | invDcacheSw | cleanDcacheSw | cleaninvDcacheSw => exact setWay h (by simp [lineOps, Instr.cond])
  | invIcacheRange | invDcacheRange | cleanDcacheRange | cleaninvDcacheRange => exact range h (by simp [blockingOps, Instr.cond])
  | prefetchIcacheRange | prefetchDcacheRange => exact prefetch h
  | unifiedNopC7k1 | unifiedNopC7k2 | unifiedNopC7k3 | unifiedNopC7k4 | unifiedNopC7k5 | unifiedNopC7k6 | unifiedNopC7k7
  | unifiedNopC11 | unifiedNopC15 | readCdsr | readBtsr | flushBtcMva => exact plain h next
  | c7OtherCprt => exact .inl (alwaysUndefined_next h)
  | cp15OtherMcrr c rd rn o m =>
    change execCp15OtherMcrr c rd rn s = _ at h
    unfold execCp15OtherMcrr at h
    split at h
    · exact .inl (alwaysUndefined_next h)
    · exact plain h next
  | invIcacheAll | invDcacheAll => exact plain h fun h => next (requireUnlocked_next (requireSbz_next h))
  | invBothAll =>
    exact plain h fun h => (next (requireUnlocked_next (requireSbz_next h))).trans (congrArg advance (invalidateBoth_eq _ _ _))
  | cleanDcacheAll | cleaninvDcacheAll => exact plain h fun h => requireRa_next (requireUnlocked_next (requireSbz_next h))
  | wfi | flushPrefetchBuffer | flushBtcAll | dsb | dmb | stopPrefetchRange => exact plain h fun h => next (requireSbz_next h)
  | prefetchIcacheMva => exact plain h fun h => next (requireTranslates_next (requireUnlocked_next h))

/-- The parameters, the agenda, and the state only software out of scope writes are as before. -/
def KeepsOutside (s t : State) : Prop :=
  t = { t with
    cacheType := s.cacheType, ctrl := s.ctrl, aux := s.aux, fcsePid := s.fcsePid, mmu := s.mmu, lockdown := s.lockdown
    debugState := s.debugState, cfg := s.cfg, agenda := s.agenda }

theorem blockingRun_outside {op : LineOp} {side : Side} {acc : Access} {bs : List Block} {s t : State}
    (h : blockingRun op side acc bs s = .next t) : KeepsOutside s t := by
  rcases blockingRun_next h with rfl | ⟨_, x, -, -, rfl⟩ | ⟨f, -, rfl⟩ <;> rw [treatBlocks_frame, walkRange_frame] <;> rfl

theorem cleanEntire_outside {op : LineOp} {s t : State} (h : cleanEntire op s = .next t) : KeepsOutside s t := by
  rcases cleanEntire_next h with ⟨-, rfl⟩ | ⟨_, x, -, -, rfl⟩ <;> rw [treatEntire_frame, afterOrder, walkPoints_frame] <;> rfl

theorem noRange_outside (s : State) (start stop : Word) : KeepsOutside s (advance (noRange (afterCompare s start stop))) := by
  rw [(noRange_frame _).1, afterCompare_frame]; rfl

theorem lineEffect_outside (s : State) (f : Slot → Slot) (side : Side) (b : Block) (ws : List (Word × Byte)) :
    KeepsOutside s (advance (writeOut (changeHeld f side b (afterDraw s)) ws)) := by
  rw [writeOut_frame, changeHeld_frame]; rfl

theorem slotEffect_outside (s : State) (f : Slot → Slot) (side : Side) (r : SlotRef) (ws : List (Word × Byte)) :
    KeepsOutside s (advance (writeOut (updateSlot (afterDraw s) side r f) ws)) := by
  rw [writeOut_frame, updateSlot_frame]; rfl

/-- What no instruction touches: the parameters, the agenda, and the state only software out of scope writes. -/
theorem exec_frame {i : Instr} {s t : State} (h : exec i s = .next t) : KeepsOutside s t := by
  rcases exec_next h with (rfl | rfl) | ⟨-, ho⟩
  · rfl
  · rfl
  · cases i <;> dsimp only [OwnEffect] at ho
    case invIcacheMva | invDcacheMva | cleanDcacheMva | cleaninvDcacheMva =>
      obtain ⟨op, side, -, rfl⟩ := ho; exact lineEffect_outside ..
    case invIcacheSw | invDcacheSw | cleanDcacheSw | cleaninvDcacheSw =>
      obtain ⟨op, side, r, -, -, rfl⟩ := ho; exact slotEffect_outside ..
    case cleanDcacheAll | cleaninvDcacheAll => exact cleanEntire_outside ho
    case invIcacheRange | invDcacheRange | cleanDcacheRange | cleaninvDcacheRange =>
      rcases ho with rfl | ⟨op, side, acc, -, hr⟩
      · exact noRange_outside ..
      · have hk := blockingRun_outside hr
        rw [afterCompare_frame] at hk
        exact hk
    case prefetchIcacheRange | prefetchDcacheRange =>
      rcases ho with rfl | ⟨-, side, rfl⟩
      · exact noRange_outside ..
      · rw [afterCompare_frame]; rfl
    case prefetchIcacheMva =>
      subst ho; split
      · rw [fillSlot_frame]; rfl
      · rfl
    all_goals subst ho; rfl

end Sys2Proof.Machine
end

