-- ==== Sys2Proof/Laws/PerInstr.lean ====
section
/-! SUPPORT. Statements made once per instruction. `RowMatch`: the word of an instruction fits its row of
spec/opcode_table.json, with that row's mask and match. -/

namespace Sys2Proof.Laws.RowMatch

/-- Mask and match of an instruction's row. -/
def row : Instr → Word × Word
  | .wfi .. => (0x0FFF0FFF, 0x0E070F90)
  | .invIcacheAll .. => (0x0FFF0FFF, 0x0E070F15)
  | .invIcacheMva .. => (0x0FFF0FFF, 0x0E070F35)
  | .invIcacheSw .. => (0x0FFF0FFF, 0x0E070F55)
  | .flushPrefetchBuffer .. => (0x0FFF0FFF, 0x0E070F95)
  | .flushBtcAll .. => (0x0FFF0FFF, 0x0E070FD5)
  | .flushBtcMva .. => (0x0FFF0FFF, 0x0E070FF5)
  | .invDcacheAll .. => (0x0FFF0FFF, 0x0E070F16)
  | .invDcacheMva .. => (0x0FFF0FFF, 0x0E070F36)
  | .invDcacheSw .. => (0x0FFF0FFF, 0x0E070F56)
  | .invBothAll .. => (0x0FFF0FFF, 0x0E070F17)
  | .cleanDcacheAll .. => (0x0FFF0FFF, 0x0E070F1A)
  | .cleanDcacheMva .. => (0x0FFF0FFF, 0x0E070F3A)
  | .cleanDcacheSw .. => (0x0FFF0FFF, 0x0E070F5A)
  | .dsb .. => (0x0FFF0FFF, 0x0E070F9A)
  | .dmb .. => (0x0FFF0FFF, 0x0E070FBA)
  | .readCdsr .. => (0x0FFF0FFF, 0x0E170FDA)
  | .readBtsr .. => (0x0FFF0FFF, 0x0E170F9C)
  | .stopPrefetchRange .. => (0x0FFF0FFF, 0x0E070FBC)
  | .prefetchIcacheMva .. => (0x0FFF0FFF, 0x0E070F3D)
  | .cleaninvDcacheAll .. => (0x0FFF0FFF, 0x0E070F1E)
  | .cleaninvDcacheMva .. => (0x0FFF0FFF, 0x0E070F3E)
  | .cleaninvDcacheSw .. => (0x0FFF0FFF, 0x0E070F5E)
  | .invIcacheRange .. => (0x0FF00FFF, 0x0C400F05)
  | .invDcacheRange .. => (0x0FF00FFF, 0x0C400F06)
  | .cleanDcacheRange .. => (0x0FF00FFF, 0x0C400F0C)
  | .cleaninvDcacheRange .. => (0x0FF00FFF, 0x0C400F0E)
  | .prefetchIcacheRange .. => (0x0FF00FFF, 0x0C400F1C)
  | .prefetchDcacheRange .. => (0x0FF00FFF, 0x0C400F2C)
  | .unifiedNopC7k1 .. => (0x0FFF0FFF, 0x0E070F37)
  | .unifiedNopC7k2 .. => (0x0FFF0FFF, 0x0E070F57)
  | .unifiedNopC7k3 .. => (0x0FFF0FFF, 0x0E070F77)
  | .unifiedNopC7k4 .. => (0x0FFF0FFF, 0x0E070F97)
  | .unifiedNopC7k5 .. => (0x0FFF0FFF, 0x0E070FB7)
  | .unifiedNopC7k6 .. => (0x0FFF0FFF, 0x0E070FD7)
  | .unifiedNopC7k7 .. => (0x0FFF0FFF, 0x0E070FF7)
  | .unifiedNopC11 .. => (0x0FFF0F1F, 0x0E070F1B)
  | .unifiedNopC15 .. => (0x0FFF0F1F, 0x0E070F1F)
  | .c7OtherCprt .. => (0x0F0F0F10, 0x0E070F10)
  | .cp15OtherMcrr .. => (0x0FF00F00, 0x0C400F00)

/-- The word of an instruction fits its row. -/
def Statement (i : Instr) : Prop := encode i &&& (row i).1 = (row i).2

/-- The fields of an MCR or MRC word, each under its part of a mask. -/
theorem cprt_fields (a b : BitVec 4) (o : BitVec 3) (r : BitVec 1) (n d x : BitVec 4) (p : BitVec 3) (y : BitVec 1) (m : BitVec 4)
    (a' b' : BitVec 4) (o' : BitVec 3) (r' : BitVec 1) (n' d' x' : BitVec 4) (p' : BitVec 3) (y' : BitVec 1) (m' : BitVec 4) :
    (a ++ b ++ o ++ r ++ n ++ d ++ x ++ p ++ y ++ m) &&& (a' ++ b' ++ o' ++ r' ++ n' ++ d' ++ x' ++ p' ++ y' ++ m')
      = (a &&& a') ++ (b &&& b') ++ (o &&& o') ++ (r &&& r') ++ (n &&& n') ++ (d &&& d') ++ (x &&& x') ++ (p &&& p')
        ++ (y &&& y') ++ (m &&& m') := by
  simp only [BitVec.and_append]

/-- The fields of an MCRR word, each under its part of a mask. -/
theorem cprrt_fields (a : BitVec 4) (b : BitVec 8) (n d x o m : BitVec 4) (a' : BitVec 4) (b' : BitVec 8) (n' d' x' o' m' : BitVec 4) :
    (a ++ b ++ n ++ d ++ x ++ o ++ m) &&& (a' ++ b' ++ n' ++ d' ++ x' ++ o' ++ m')
      = (a &&& a') ++ (b &&& b') ++ (n &&& n') ++ (d &&& d') ++ (x &&& x') ++ (o &&& o') ++ (m &&& m') := by
  simp only [BitVec.and_append]

/-- The fields a mask without operand bits leaves of an MCR or MRC. -/
theorem cprt_and (c : Cond) (o : BitVec 3) (r : BitVec 1) (rd : RegNo) (p : BitVec 3) (m : BitVec 4) :
    cprt c o r rd p m &&& 0x0FFF0FFF#32 = 0#4 ++ 0b1110#4 ++ o ++ r ++ 7#4 ++ 0#4 ++ 15#4 ++ p ++ 1#1 ++ m := by
  have h3 : ∀ x : BitVec 3, x &&& 7#3 = x := by decide
  have h1 : ∀ x : BitVec 1, x &&& 1#1 = x := by decide
  have h4 : ∀ x : BitVec 4, x &&& 15#4 = x := by decide
  have h40 : ∀ x : BitVec 4, x &&& 0#4 = 0#4 := by decide
  refine (cprt_fields c.bits 0b1110#4 o r 7#4 rd 15#4 p 1#1 m 0#4 15#4 7#3 1#1 15#4 0#4 15#4 7#3 1#1 15#4).trans ?_
  simp only [h3, h1, h4, h40]

/-- The fields the mask of the fallback row leaves. -/
theorem cprt_and_other (c : Cond) (o : BitVec 3) (r : BitVec 1) (rd : RegNo) (p : BitVec 3) (m : BitVec 4) :
    cprt c o r rd p m &&& 0x0F0F0F10#32 = 0x0E070F10#32 := by
  have h30 : ∀ x : BitVec 3, x &&& 0#3 = 0#3 := by decide
  have h10 : ∀ x : BitVec 1, x &&& 0#1 = 0#1 := by decide
  have h4 : ∀ x : BitVec 4, x &&& 15#4 = x := by decide
  have h40 : ∀ x : BitVec 4, x &&& 0#4 = 0#4 := by decide
  refine (cprt_fields c.bits 0b1110#4 o r 7#4 rd 15#4 p 1#1 m 0#4 15#4 0#3 0#1 15#4 0#4 15#4 0#3 1#1 0#4).trans ?_
  simp only [h30, h10, h4, h40]
  rfl

/-- The fields the mask of the unified-cache rows with a free Opcode_2 leaves. -/
theorem cprt_and_unified (c : Cond) (o : BitVec 3) (r : BitVec 1) (rd : RegNo) (p : BitVec 3) (m : BitVec 4) :
    cprt c o r rd p m &&& 0x0FFF0F1F#32 = 0#4 ++ 0b1110#4 ++ o ++ r ++ 7#4 ++ 0#4 ++ 15#4 ++ 0#3 ++ 1#1 ++ m := by
  have h3 : ∀ x : BitVec 3, x &&& 7#3 = x := by decide
  have h30 : ∀ x : BitVec 3, x &&& 0#3 = 0#3 := by decide
  have h1 : ∀ x : BitVec 1, x &&& 1#1 = x := by decide
  have h4 : ∀ x : BitVec 4, x &&& 15#4 = x := by decide
  have h40 : ∀ x : BitVec 4, x &&& 0#4 = 0#4 := by decide
  refine (cprt_fields c.bits 0b1110#4 o r 7#4 rd 15#4 p 1#1 m 0#4 15#4 7#3 1#1 15#4 0#4 15#4 0#3 1#1 15#4).trans ?_
  simp only [h3, h30, h1, h4, h40]

/-- The fields the mask of a range row leaves of an MCRR. -/
theorem cprrt_and (c : Cond) (rn rd : RegNo) (o m : BitVec 4) :
    cprrt c rn rd o m &&& 0x0FF00FFF#32 = 0#4 ++ 0b11000100#8 ++ 0#4 ++ 0#4 ++ 15#4 ++ o ++ m := by
  have h4 : ∀ x : BitVec 4, x &&& 15#4 = x := by decide
  have h40 : ∀ x : BitVec 4, x &&& 0#4 = 0#4 := by decide
  refine (cprrt_fields c.bits 0b11000100#8 rn rd 15#4 o m 0#4 255#8 0#4 0#4 15#4 15#4 15#4).trans ?_
  simp only [h4, h40]
  rfl

/-- The fields the mask of the MCRR fallback row leaves. -/
theorem cprrt_and_other (c : Cond) (rn rd : RegNo) (o m : BitVec 4) : cprrt c rn rd o m &&& 0x0FF00F00#32 = 0x0C400F00#32 := by
  have h40 : ∀ x : BitVec 4, x &&& 0#4 = 0#4 := by decide
  refine (cprrt_fields c.bits 0b11000100#8 rn rd 15#4 o m 0#4 255#8 0#4 0#4 15#4 0#4 0#4).trans ?_
  simp only [h40]
  rfl

theorem wfi (c : Cond) (rd : RegNo) : Statement (.wfi c rd) := (cprt_and _ _ _ _ _ _).trans rfl
theorem invIcacheAll (c : Cond) (rd : RegNo) : Statement (.invIcacheAll c rd) := (cprt_and _ _ _ _ _ _).trans rfl
theorem invIcacheMva (c : Cond) (rd : RegNo) : Statement (.invIcacheMva c rd) := (cprt_and _ _ _ _ _ _).trans rfl
theorem invIcacheSw (c : Cond) (rd : RegNo) : Statement (.invIcacheSw c rd) := (cprt_and _ _ _ _ _ _).trans rfl
theorem flushPrefetchBuffer (c : Cond) (rd : RegNo) : Statement (.flushPrefetchBuffer c rd) :=
  (cprt_and _ _ _ _ _ _).trans rfl
theorem flushBtcAll (c : Cond) (rd : RegNo) : Statement (.flushBtcAll c rd) := (cprt_and _ _ _ _ _ _).trans rfl
theorem flushBtcMva (c : Cond) (rd : RegNo) : Statement (.flushBtcMva c rd) := (cprt_and _ _ _ _ _ _).trans rfl
theorem invDcacheAll (c : Cond) (rd : RegNo) : Statement (.invDcacheAll c rd) := (cprt_and _ _ _ _ _ _).trans rfl
theorem invDcacheMva (c : Cond) (rd : RegNo) : Statement (.invDcacheMva c rd) := (cprt_and _ _ _ _ _ _).trans rfl
theorem invDcacheSw (c : Cond) (rd : RegNo) : Statement (.invDcacheSw c rd) := (cprt_and _ _ _ _ _ _).trans rfl
theorem invBothAll (c : Cond) (rd : RegNo) : Statement (.invBothAll c rd) := (cprt_and _ _ _ _ _ _).trans rfl
theorem cleanDcacheAll (c : Cond) (rd : RegNo) : Statement (.cleanDcacheAll c rd) := (cprt_and _ _ _ _ _ _).trans rfl
theorem cleanDcacheMva (c : Cond) (rd : RegNo) : Statement (.cleanDcacheMva c rd) := (cprt_and _ _ _ _ _ _).trans rfl
theorem cleanDcacheSw (c : Cond) (rd : RegNo) : Statement (.cleanDcacheSw c rd) := (cprt_and _ _ _ _ _ _).trans rfl
theorem dsb (c : Cond) (rd : RegNo) : Statement (.dsb c rd) := (cprt_and _ _ _ _ _ _).trans rfl
theorem dmb (c : Cond) (rd : RegNo) : Statement (.dmb c rd) := (cprt_and _ _ _ _ _ _).trans rfl
theorem readCdsr (c : Cond) (rd : RegNo) : Statement (.readCdsr c rd) := (cprt_and _ _ _ _ _ _).trans rfl
theorem readBtsr (c : Cond) (rd : RegNo) : Statement (.readBtsr c rd) := (cprt_and _ _ _ _ _ _).trans rfl
theorem stopPrefetchRange (c : Cond) (rd : RegNo) : Statement (.stopPrefetchRange c rd) := (cprt_and _ _ _ _ _ _).trans rfl
theorem prefetchIcacheMva (c : Cond) (rd : RegNo) : Statement (.prefetchIcacheMva c rd) := (cprt_and _ _ _ _ _ _).trans rfl
theorem cleaninvDcacheAll (c : Cond) (rd : RegNo) : Statement (.cleaninvDcacheAll c rd) := (cprt_and _ _ _ _ _ _).trans rfl
theorem cleaninvDcacheMva (c : Cond) (rd : RegNo) : Statement (.cleaninvDcacheMva c rd) := (cprt_and _ _ _ _ _ _).trans rfl
theorem cleaninvDcacheSw (c : Cond) (rd : RegNo) : Statement (.cleaninvDcacheSw c rd) := (cprt_and _ _ _ _ _ _).trans rfl
theorem invIcacheRange (c : Cond) (rd rn : RegNo) : Statement (.invIcacheRange c rd rn) := (cprrt_and _ _ _ _ _).trans rfl
theorem invDcacheRange (c : Cond) (rd rn : RegNo) : Statement (.invDcacheRange c rd rn) := (cprrt_and _ _ _ _ _).trans rfl
theorem cleanDcacheRange (c : Cond) (rd rn : RegNo) : Statement (.cleanDcacheRange c rd rn) :=
  (cprrt_and _ _ _ _ _).trans rfl
theorem cleaninvDcacheRange (c : Cond) (rd rn : RegNo) : Statement (.cleaninvDcacheRange c rd rn) :=
  (cprrt_and _ _ _ _ _).trans rfl
theorem prefetchIcacheRange (c : Cond) (rd rn : RegNo) : Statement (.prefetchIcacheRange c rd rn) :=
  (cprrt_and _ _ _ _ _).trans rfl
theorem prefetchDcacheRange (c : Cond) (rd rn : RegNo) : Statement (.prefetchDcacheRange c rd rn) :=
  (cprrt_and _ _ _ _ _).trans rfl
theorem unifiedNopC7k1 (c : Cond) (rd : RegNo) : Statement (.unifiedNopC7k1 c rd) := (cprt_and _ _ _ _ _ _).trans rfl
theorem unifiedNopC7k2 (c : Cond) (rd : RegNo) : Statement (.unifiedNopC7k2 c rd) := (cprt_and _ _ _ _ _ _).trans rfl
theorem unifiedNopC7k3 (c : Cond) (rd : RegNo) : Statement (.unifiedNopC7k3 c rd) := (cprt_and _ _ _ _ _ _).trans rfl
theorem unifiedNopC7k4 (c : Cond) (rd : RegNo) : Statement (.unifiedNopC7k4 c rd) := (cprt_and _ _ _ _ _ _).trans rfl
theorem unifiedNopC7k5 (c : Cond) (rd : RegNo) : Statement (.unifiedNopC7k5 c rd) := (cprt_and _ _ _ _ _ _).trans rfl
theorem unifiedNopC7k6 (c : Cond) (rd : RegNo) : Statement (.unifiedNopC7k6 c rd) := (cprt_and _ _ _ _ _ _).trans rfl
theorem unifiedNopC7k7 (c : Cond) (rd : RegNo) : Statement (.unifiedNopC7k7 c rd) := (cprt_and _ _ _ _ _ _).trans rfl
theorem unifiedNopC11 (c : Cond) (rd : RegNo) (opcode2 : BitVec 3) : Statement (.unifiedNopC11 c rd opcode2) :=
  (cprt_and_unified _ _ _ _ _ _).trans rfl
theorem unifiedNopC15 (c : Cond) (rd : RegNo) (opcode2 : BitVec 3) : Statement (.unifiedNopC15 c rd opcode2) :=
  (cprt_and_unified _ _ _ _ _ _).trans rfl
theorem c7OtherCprt (c : Cond) (rd : RegNo) (read : BitVec 1) (opcode1 : BitVec 3) (crm : BitVec 4) (opcode2 : BitVec 3) :
    Statement (.c7OtherCprt c rd read opcode1 crm opcode2) :=
  cprt_and_other _ _ _ _ _ _
theorem cp15OtherMcrr (c : Cond) (rd rn : RegNo) (opcode1 crm : BitVec 4) : Statement (.cp15OtherMcrr c rd rn opcode1 crm) :=
  cprrt_and_other _ _ _ _ _

end Sys2Proof.Laws.RowMatch
end

