-- ==== Sys2Proof/Laws/Registers.lean ====
section
/-! SUPPORT. The register file: a written register reads as written, every other register of the mode as before; taking
an exception is undone by the return. -/

namespace Sys2Proof.Machine

/-- A bank written is the bank read. -/
@[simp] theorem Regs.bank_setBank_self (r : Regs) (m : Option Mode) (b : Bank) : (r.setBank m b).bank m = b := by
  rcases m with _ | m <;> (try cases m) <;> rfl

/-- Writing a bank leaves r0 to r12 alone. -/
@[simp] theorem Regs.usr_setBank (r : Regs) (m : Option Mode) (b : Bank) : (r.setBank m b).usr = r.usr := by
  rcases m with _ | m <;> (try cases m) <;> rfl

/-- Writing a bank leaves r8_fiq to r12_fiq alone. -/
@[simp] theorem Regs.fiqHigh_setBank (r : Regs) (m : Option Mode) (b : Bank) : (r.setBank m b).fiqHigh = r.fiqHigh := by
  rcases m with _ | m <;> (try cases m) <;> rfl

/-- Replacing one bank of another mode is seen only by the modes that share it: here, an exception mode's bank. -/
theorem Regs.bank_setBank_ne (r : Regs) (m : Mode) (b : Bank) {k : Option Mode} (hm : m ≠ .user) (hs : m ≠ .system)
    (hk : k ≠ some m) : (r.setBank (some m) b).bank k = r.bank k := by
  cases m <;> first | contradiction | (rcases k with _ | k <;> (try cases k) <;> first | rfl | contradiction)

/-- An SPSR written is the SPSR read, in the modes that have one. -/
theorem SavedStatus.of_set_self (p : SavedStatus) (m : Mode) (v : Word) (hm : m ≠ .user) (hs : m ≠ .system) :
    (p.set m v).of (some m) = some v := by
  cases m <;> first | contradiction | rfl

/-- The other SPSRs are as before. -/
theorem SavedStatus.of_set_ne (p : SavedStatus) (m : Mode) (v : Word) {k : Option Mode} (hk : k ≠ some m) :
    (p.set m v).of k = p.of k := by
  cases m <;> (rcases k with _ | k <;> (try cases k) <;> first | rfl | contradiction)

/-- Writing a register leaves the mode alone. -/
@[simp] theorem modeOf_writeReg (s : State) (n : RegNo) (v : Word) : modeOf (writeReg s n v) = modeOf s := rfl

/-- What writing a register leaves in the register file. -/
theorem regs_writeReg (s : State) (n : RegNo) (v : Word) : (writeReg s n v).regs = s.regs.write (modeOf s) n v := rfl

/-- A register written and read back. -/
theorem readReg_writeReg_self (s : State) {n : RegNo} (v : Word) (hn : n ≠ 15#4) : readReg (writeReg s n v) n = v := by
  have h15 : n.toNat ≠ 15 := fun h => hn (BitVec.eq_of_toNat_eq h)
  have hlt := n.isLt
  simp only [readReg, modeOf_writeReg, regs_writeReg, Regs.write, hn, if_false]
  split
  · simp
  · next h14 =>
    split
    · simp
    · next h13 =>
      have h14' : n.toNat ≠ 14 := fun h => h14 (BitVec.eq_of_toNat_eq h)
      have h13' : n.toNat ≠ 13 := fun h => h13 (BitVec.eq_of_toNat_eq h)
      split
      · simp only [Vector.getElem?_setIfInBounds_self]
        rw [if_pos (by omega)]; rfl
      · simp only [Vector.getElem?_setIfInBounds_self]
        rw [if_pos (by omega)]; rfl

/-- A register written leaves the other registers of the mode alone. -/
theorem readReg_writeReg_ne (s : State) {n k : RegNo} (v : Word) (hk : k ≠ n) : readReg (writeReg s n v) k = readReg s k := by
  have hkn : k.toNat ≠ n.toNat := fun h => hk (BitVec.eq_of_toNat_eq h)
  simp only [readReg, modeOf_writeReg, regs_writeReg, Regs.write]
  by_cases h15 : k = 15#4
  · simp only [h15, if_true]; rfl
  · simp only [h15, if_false]
    by_cases n15 : n = 15#4
    · simp [n15]
    · simp only [n15, if_false]
      by_cases n14 : n = 14#4
      · subst n14; simp [hk]
      · by_cases n13 : n = 13#4
        · subst n13; simp [hk]
        · simp only [n14, n13, if_false]
          by_cases hf : modeOf s = some .fiq
          · by_cases hn8 : 8 ≤ n.toNat
            · simp only [hf, hn8, and_self, if_true, true_and, Regs.bank]
              by_cases hk8 : 8 ≤ k.toNat
              · simp only [hk8, if_true]
                rw [Vector.getElem?_setIfInBounds_ne (by omega)]
              · simp only [hk8, if_false]
            · simp only [hf, hn8, and_false, if_false, true_and, Regs.bank]
              rw [Vector.getElem?_setIfInBounds_ne (by omega)]
          · simp only [hf, false_and, if_false]
            rw [Vector.getElem?_setIfInBounds_ne (by omega)]
            rcases hb : modeOf s with _ | m <;> (try cases m) <;> rfl

end Sys2Proof.Machine
end

