-- ==== Sys2Proof/Laws/Step.lean ====
section
/-! SUPPORT. What a step can do, said once: who moved and what the core's step answered; and what the fetch and the other
agents leave alone. -/

namespace Sys2Proof.Machine

open Sys2Proof.Config

/-! ## Frames of the fetch and of the agents -/

theorem afterFetch_frame (s : State) (va : Word) : afterFetch s va = { s with draws := (afterFetch s va).draws } := by
  unfold afterFetch; split <;> rfl

theorem fetchWord_frame {s s1 : State} {w : Word} (h : fetchWord s = .ok (w, s1)) :
    s1 = { s with pfb := s1.pfb, draws := s1.draws } := by
  unfold fetchWord at h
  split at h
  · cases h; rfl
  · split at h
    · cases h
    · cases h; rw [afterFetch_frame]

theorem makeRoom_frame (b pb : Block) (ca : Bool) (s : State) :
    makeRoom b pb ca s = { s with
      dc := (makeRoom b pb ca s).dc, tcmD := (makeRoom b pb ca s).tcmD, mem := (makeRoom b pb ca s).mem
      writeBuffer := (makeRoom b pb ca s).writeBuffer, draws := (makeRoom b pb ca s).draws } := by
  unfold makeRoom; rw [writeOut_frame, mapSide_data]

theorem storeByte_frame (s : State) (w : Word × Byte) :
    storeByte s w = { s with
      dc := (storeByte s w).dc, tcmD := (storeByte s w).tcmD, tcmI := (storeByte s w).tcmI, cdsrC := (storeByte s w).cdsrC
      cdsrClearing := (storeByte s w).cdsrClearing, mem := (storeByte s w).mem
      writeBuffer := (storeByte s w).writeBuffer, draws := (storeByte s w).draws } := by
  unfold storeByte
  split
  · rfl
  · simp only
    split
    · rfl
    · split
      · rw [mapSide_data, makeRoom_frame]
      · split
        · rw [mapSide_data, makeRoom_frame]; rfl
        · rw [makeRoom_frame]; rfl

theorem storeBytes_frame (ws : List (Word × Byte)) (s : State) :
    ws.foldl storeByte s = { s with
      dc := (ws.foldl storeByte s).dc, tcmD := (ws.foldl storeByte s).tcmD, tcmI := (ws.foldl storeByte s).tcmI
      cdsrC := (ws.foldl storeByte s).cdsrC, cdsrClearing := (ws.foldl storeByte s).cdsrClearing
      mem := (ws.foldl storeByte s).mem
      writeBuffer := (ws.foldl storeByte s).writeBuffer, draws := (ws.foldl storeByte s).draws } := by
  induction ws generalizing s with
  | nil => rfl
  | cons w ws ih => rw [List.foldl_cons, ih, storeByte_frame]

/-- After `makeRoom` every data side slot that has the block takes the store. -/
theorem makeRoom_takes {b pb : Block} {ca : Bool} {s : State} {sl : Slot} (h : sl ∈ sideSlots (makeRoom b pb ca s) .data)
    (hc : sl.caches b pb = true) : sl.takes b pb ca = true ∧ sl.fading = false := by
  rw [makeRoom, sideSlots_writeOut, sideSlots_mapSide] at h
  obtain ⟨x, -, rfl⟩ := List.mem_map.1 h
  unfold Slot.beforeStore at hc ⊢
  split at hc
  · split at hc
    · simp [Slot.caches] at hc
    · simp_all
  · simp_all

/-- Where a stored byte rests, outside the TCMs (20_memory R71 (a), R72, R79): in every data side slot that has the block, which a
clean of its MVA finds and writes to the physical block; or, if none has it, on its way to memory. -/
theorem storeByte_rests {s : State} {w : Word × Byte} {pb : Block} {ca : Bool} {off : Nat} (hoff : off = (w.1.extractLsb' 0 5).toNat)
    (ht : translate s w.1 .data = .mapped pb ca) (hn : inTcm s (byteOfBlock pb off) = false) (hm : s.mem.wf) :
    (∀ sl ∈ sideSlots (storeByte s w) .data, sl.caches (lineOf w.1) pb = true →
        ca = true ∧ sl.holds (lineOf w.1) = true ∧ sl.addr = pb ∧ sl.isDirty = true ∧ sl.fading = false ∧ sl.data[off]? = some w.2)
      ∧ ((∀ sl ∈ sideSlots (storeByte s w) .data, sl.caches (lineOf w.1) pb = false) →
        settledByte (storeByte s w) (byteOfBlock pb off) = w.2) := by
  have hlt : off < 32 := by subst hoff; exact (w.1.extractLsb' 0 5).isLt
  have put : ∀ {v : State} {f : Slot → Slot}, (∀ sl ∈ sideSlots v .data, sl.caches (lineOf w.1) pb = true →
      sl.takes (lineOf w.1) pb ca = true ∧ sl.fading = false) →
      f = (fun sl => if sl.takes (lineOf w.1) pb ca then sl.put off w.2 else sl) → ∀ sl ∈ (sideSlots v .data).map f,
        sl.caches (lineOf w.1) pb = true → ca = true ∧ sl.holds (lineOf w.1) = true ∧ sl.addr = pb ∧ sl.isDirty = true
          ∧ sl.fading = false ∧ sl.data[off]? = some w.2 := by
    rintro v f hv rfl sl h hc
    obtain ⟨x, hx, rfl⟩ := List.mem_map.1 h
    have hxc : x.caches (lineOf w.1) pb = true := by
      split at hc <;> exact hc
    obtain ⟨h1, h2⟩ := hv x hx hxc
    simp only [h1, if_true]
    simp only [Slot.takes, Slot.holds, Bool.and_eq_true, beq_iff_eq] at h1
    simp [Slot.put, Slot.holds, Slot.isDirty, h1, h2, hlt]
  have hr := fun sl => @makeRoom_takes (lineOf w.1) pb ca s sl
  unfold storeByte
  rw [ht]
  simp only [← hoff, hn, Bool.false_eq_true, if_false]
  have hwf : (makeRoom (lineOf w.1) pb ca s).mem.wf := writeOut_wf _ (by rw [mapSide_frame]; exact hm)
  generalize makeRoom (lineOf w.1) pb ca s = v at hr hwf ⊢
  have none : ∀ f : Slot → Slot, f = (fun sl => if sl.takes (lineOf w.1) pb ca then sl.put off w.2 else sl) →
      ∀ x ∈ sideSlots v .data, x.takes (lineOf w.1) pb ca = true →
        ¬ ∀ sl ∈ sideSlots (mapSide f v .data) .data, sl.caches (lineOf w.1) pb = false := by
    rintro f rfl x hx hxt hall
    rw [sideSlots_mapSide] at hall
    have := hall _ (List.mem_map_of_mem hx)
    simp only [hxt, if_true] at this
    simp only [Slot.takes, Slot.holds, Bool.and_eq_true, beq_iff_eq] at hxt
    simp [Slot.put, Slot.caches, hxt] at this
  split
  · next hd =>
    obtain ⟨x, hx, hxt⟩ := List.any_eq_true.1 hd
    refine ⟨fun sl h => ?_, fun hall => (none _ rfl x (List.mem_append.2 (.inl hx)) hxt hall).elim⟩
    have h : sl ∈ sideSlots (mapSide _ v .data) .data := h
    rw [sideSlots_mapSide] at h
    exact put hr rfl sl h
  · split
    · next hd =>
      obtain ⟨x, hx, hxt⟩ := List.any_eq_true.1 hd
      refine ⟨fun sl h => ?_, fun hall => (none _ rfl x (List.mem_append.2 (.inr hx)) hxt hall).elim⟩
      have h : sl ∈ sideSlots (mapSide _ v .data) .data := h
      rw [sideSlots_mapSide] at h
      exact put hr rfl sl h
    · next h1 h2 =>
      refine ⟨fun sl h hc => ?_, fun _ => post_settled_mem hwf (by simp) (by simp)⟩
      have ht := (hr sl h hc).1
      simp only [List.any_eq_true, not_exists, not_and] at h1 h2
      rcases List.mem_append.1 h with h | h
      · exact absurd ht (h1 sl h)
      · exact absurd ht (h2 sl h)

theorem prefetchAhead_frame (s : State) (va : Word) :
    prefetchAhead s va = { s with pfb := (prefetchAhead s va).pfb, draws := (prefetchAhead s va).draws } := by
  unfold prefetchAhead
  split
  · split
    · rfl
    · rw [afterFetch_frame]
  · rfl

theorem afterEnginePid_frame (s : State) : afterEnginePid s = { s with draws := (afterEnginePid s).draws } := by
  unfold afterEnginePid; split <;> rfl

theorem engineStep_frame (memFault : Bool) (s : State) :
    engineStep memFault s = { s with
      bt := (engineStep memFault s).bt, btOldPids := (engineStep memFault s).btOldPids, ic := (engineStep memFault s).ic
      dc := (engineStep memFault s).dc, tcmI := (engineStep memFault s).tcmI, tcmD := (engineStep memFault s).tcmD
      mem := (engineStep memFault s).mem, writeBuffer := (engineStep memFault s).writeBuffer
      draws := (engineStep memFault s).draws } := by
  unfold engineStep
  split
  · rfl
  · simp only
    split
    · rw [afterEnginePid_frame]; rfl
    · split <;> rw [fillSlot_frame, afterEnginePid_frame]
      rfl

theorem drainByte_frame (s : State) (k : Nat) :
    drainByte s k = { s with mem := (drainByte s k).mem, writeBuffer := (drainByte s k).writeBuffer } := by
  unfold drainByte
  split
  · rfl
  · split <;> rfl

theorem settleCdsr_frame (s : State) :
    settleCdsr s = { s with cdsrC := (settleCdsr s).cdsrC, cdsrClearing := (settleCdsr s).cdsrClearing } := by
  unfold settleCdsr; split <;> rfl

/-- An agent moves or, in standby, does nothing if its move stands for an instruction. -/
theorem act_eq (a : Action) (s : State) :
    s.standby = true ∧ a.bySoftware = true ∧ act a s = s
      ∨ (s.standby = false ∨ a.bySoftware = false) ∧ act a s = move a s := by
  unfold act
  cases s.standby <;> cases a.bySoftware <;> simp

/-- What no agent but the core touches. -/
theorem act_frame (a : Action) (s : State) :
    act a s = { act a s with
      regs := s.regs, pc := s.pc, cpsr := s.cpsr, spsr := s.spsr, standby := s.standby, cacheType := s.cacheType, far := s.far
      dfsr := s.dfsr, lockdown := s.lockdown, cfg := s.cfg, agenda := s.agenda, points := s.points } := by
  rcases act_eq a s with ⟨-, -, h⟩ | ⟨-, h⟩ <;> rw [h]
  cases a <;> simp only [move] <;> first
    | rfl
    | rw [settleCdsr_frame]
    | rw [engineStep_frame]
    | rw [fillSlot_frame]
    | rw [evictSlot_frame]
    | (rw [writeOut_frame, updateSlot_frame])
    | rw [updateSlot_frame]
    | rw [drainByte_frame]
    | rw [prefetchAhead_frame]
    | rw [storeBytes_frame]

/-! ## What a step can do -/

/-- The three kinds of answer of the core's step: standby, an exception taken between instructions, an instruction. -/
inductive CoreAnswer (s t : State) : Prop where
  | waits (hs : s.standby = true) (hi : s.inputs.anyAsserted = false) (ht : t = s)
  | wakes (hs : s.standby = true) (hi : s.inputs.anyAsserted = true) (ht : t = wake s)
  | event (hs : s.standby = false) (x : Exc) (link far dfsr : Word) (draws : Draws)
      (ht : t = takeException x link { s with far := far, dfsr := dfsr, draws := draws })
  | runs (hs : s.standby = false) (w : Word) (s1 : State) (i : Instr) (hf : fetchWord s = .ok (w, s1)) (hd : decode w = .ok i)
      (ht : exec i s1 = .next t)
  | returns (hs : s.standby = false) (w k p : Word) (s1 : State) (hf : fetchWord s = .ok (w, s1)) (hk : returnWord w = some k)
      (hp : s1.spsr.of (modeOf s1) = some p) (ht : t = { s1 with pc := (s1.regs.bank (modeOf s1)).lr - k, cpsr := p })

theorem exceptionReturn_next {k : Word} {s t : State} (h : exceptionReturn k s = .next t) :
    ∃ p, s.spsr.of (modeOf s) = some p ∧ t = { s with pc := (s.regs.bank (modeOf s)).lr - k, cpsr := p } := by
  unfold exceptionReturn at h
  split at h
  · cases h
  · rename_i p hp; cases h; exact ⟨p, hp, rfl⟩

theorem afterChoice_frame (s : State) (l : List Event) : afterChoice s l = { s with draws := (afterChoice s l).draws } := by
  unfold afterChoice; split <;> rfl

theorem takeEvent_next {e : Event} {s t : State} (h : takeEvent e s = .next t) :
    ∃ x link far dfsr draws, t = takeException x link { s with far := far, dfsr := dfsr, draws := draws } := by
  cases e
  · cases h; exact ⟨.irq, s.pc + 4, s.far, s.dfsr, s.draws, rfl⟩
  · cases h; exact ⟨.fiq, s.pc + 4, s.far, s.dfsr, s.draws, rfl⟩
  · cases h
    exact ⟨.impreciseAbort, BitVec.ofNat 32 s.draws.head, BitVec.ofNat 32 (afterDraw s).draws.head,
      BitVec.ofNat 32 (afterDraw (afterDraw s)).draws.head, (afterDraw (afterDraw (afterDraw s))).draws, rfl⟩
  · cases h

theorem coreStep_next {s t : State} (h : coreStep s = .next t) : CoreAnswer s t := by
  unfold coreStep at h
  split at h
  · rename_i hs
    cases hi : s.inputs.anyAsserted <;> simp only [hi] at h <;> cases h
    · exact .waits hs hi rfl
    · exact .wakes hs hi rfl
  · rename_i hs
    rw [Bool.not_eq_true] at hs
    split at h
    · obtain ⟨x, link, far, dfsr, draws, rfl⟩ := takeEvent_next h
      exact .event hs x link far dfsr draws (by rw [afterChoice_frame])
    · unfold runInstruction at h
      split at h
      · cases h
      · split at h
        · cases h
        · split at h
          · cases h
          · rename_i w s1 hf
            split at h
            · rename_i i hd; exact .runs hs w s1 i hf hd h
            · cases h
            · cases h
            · split at h
              · rename_i k hk
                obtain ⟨p, hp, ht⟩ := exceptionReturn_next h
                exact .returns hs w k p s1 hf hk hp ht
              · cases h

/-- Everything a step that goes on can have done: an agent moved, or the core. -/
theorem step_next {s t : State} (h : step s = .next t) :
    (∃ a rest, s.agenda = a :: rest ∧ a ≠ .core ∧ t = act a { s with agenda := rest })
      ∨ ∃ rest, (s.agenda = [] ∧ rest = [] ∨ s.agenda = .core :: rest) ∧ CoreAnswer { s with agenda := rest } t := by
  unfold step at h
  split at h
  · rename_i ha
    refine .inr ⟨[], .inl ⟨ha, rfl⟩, ?_⟩
    rw [← ha]; exact coreStep_next h
  · rename_i rest ha
    exact .inr ⟨rest, .inr ha, coreStep_next h⟩
  · rename_i a rest hn ha
    cases h
    exact .inl ⟨a, rest, ha, hn, rfl⟩

/-- The step of an agent other than the core always goes on. -/
theorem step_act {s : State} {a : Action} {rest : List Action} (h : s.agenda = a :: rest) (ha : a ≠ .core) :
    step s = .next (act a { s with agenda := rest }) := by
  unfold step; rw [h]
  cases a <;> first | rfl | contradiction

/-- The core's turn, without an event: the instruction at the pc. -/
theorem coreStep_runs {s : State} (hs : s.standby = false) (he : enabledEvents s = []) : coreStep s = runInstruction s := by
  simp [coreStep, hs, he, chooseEvent]

/-- An instruction that is not fetched into `decode` any other way: the word fetched and decoded is executed. -/
theorem runInstruction_decoded {s s1 : State} {w : Word} {i : Instr} (ht : psrT s.cpsr = false) (hj : psrJ s.cpsr = false)
    (hp : s.pc.extractLsb' 0 2 = 0#2) (hf : fetchWord s = .ok (w, s1)) (hd : decode w = .ok i) : runInstruction s = exec i s1 := by
  simp [runInstruction, ht, hj, hp, hf, hd]

end Sys2Proof.Machine
end

