-- ==== Sys2Proof/Tests/Slice0.lean ====
section
/-! SUPPORT. Own tests: the refusals of `Instr.wf`, the decoding of words written from 30_encoding R91, R92, R105 to R108,
one or two steps per instruction with the results of spec/95_test_vectors.md (named in each comment), and for each statement
with hypotheses a witness that meets them. -/

namespace Sys2Proof.Machine

open Sys2Proof.Config

/-! ## Well-formedness: the ill-formed terms are refused -/

theorem test_wf_refuses_function_as_other : Instr.wf (.c7OtherCprt .al 0 0 0 14 2) = false := by decide
theorem test_wf_refuses_unified_as_other : Instr.wf (.c7OtherCprt .al 0 0 0 15 7) = false := by decide
theorem test_wf_admits_other : Instr.wf (.c7OtherCprt .al 0 1 0 7 1) = true := by decide
theorem test_wf_refuses_range_as_other : Instr.wf (.cp15OtherMcrr .al 1 0 2 12) = false := by decide
theorem test_wf_admits_other_mcrr : Instr.wf (.cp15OtherMcrr .al 1 0 3 12) = true := by decide

/-! ## Decoding: the words of spec/95_test_vectors.md, `llvm-mc` being their source there -/

theorem test_decode_wfi : decode 0xEE070F90#32 = .ok (.wfi .al 0) := by decide
theorem test_decode_invIcacheAll : decode 0xEE070F15#32 = .ok (.invIcacheAll .al 0) := by decide
theorem test_decode_invIcacheMva : decode 0xEE070F35#32 = .ok (.invIcacheMva .al 0) := by decide
theorem test_decode_invIcacheSw : decode 0xEE070F55#32 = .ok (.invIcacheSw .al 0) := by decide
theorem test_decode_flushPrefetchBuffer : decode 0xEE072F95#32 = .ok (.flushPrefetchBuffer .al 2) := by decide
theorem test_decode_flushBtcAll : decode 0xEE070FD5#32 = .ok (.flushBtcAll .al 0) := by decide
theorem test_decode_flushBtcMva : decode 0xEE070FF5#32 = .ok (.flushBtcMva .al 0) := by decide
theorem test_decode_invDcacheAll : decode 0xEE070F16#32 = .ok (.invDcacheAll .al 0) := by decide
theorem test_decode_invDcacheMva : decode 0xEE070F36#32 = .ok (.invDcacheMva .al 0) := by decide
theorem test_decode_invDcacheSw : decode 0xEE070F56#32 = .ok (.invDcacheSw .al 0) := by decide
theorem test_decode_invBothAll : decode 0xEE070F17#32 = .ok (.invBothAll .al 0) := by decide
theorem test_decode_cleanDcacheAll : decode 0xEE071F1A#32 = .ok (.cleanDcacheAll .al 1) := by decide
theorem test_decode_cleanDcacheMva : decode 0xEE070F3A#32 = .ok (.cleanDcacheMva .al 0) := by decide
theorem test_decode_cleanDcacheSw : decode 0xEE070F5A#32 = .ok (.cleanDcacheSw .al 0) := by decide
theorem test_decode_dsb : decode 0x1E070F9A#32 = .ok (.dsb .ne 0) := by decide
theorem test_decode_dmb : decode 0xEE070FBA#32 = .ok (.dmb .al 0) := by decide
theorem test_decode_readCdsr : decode 0xEE171FDA#32 = .ok (.readCdsr .al 1) := by decide
theorem test_decode_readBtsr : decode 0xEE172F9C#32 = .ok (.readBtsr .al 2) := by decide
theorem test_decode_stopPrefetchRange : decode 0xEE073FBC#32 = .ok (.stopPrefetchRange .al 3) := by decide
theorem test_decode_prefetchIcacheMva : decode 0xEE070F3D#32 = .ok (.prefetchIcacheMva .al 0) := by decide
theorem test_decode_cleaninvDcacheAll : decode 0x0E070F1E#32 = .ok (.cleaninvDcacheAll .eq 0) := by decide
theorem test_decode_cleaninvDcacheMva : decode 0xEE070F3E#32 = .ok (.cleaninvDcacheMva .al 0) := by decide
theorem test_decode_cleaninvDcacheSw : decode 0xEE074F5E#32 = .ok (.cleaninvDcacheSw .al 4) := by decide
theorem test_decode_invIcacheRange : decode 0xEC401F05#32 = .ok (.invIcacheRange .al 1 0) := by decide
theorem test_decode_invDcacheRange : decode 0xEC401F06#32 = .ok (.invDcacheRange .al 1 0) := by decide
theorem test_decode_cleanDcacheRange : decode 0xEC401F0C#32 = .ok (.cleanDcacheRange .al 1 0) := by decide
theorem test_decode_cleaninvDcacheRange : decode 0xEC401F0E#32 = .ok (.cleaninvDcacheRange .al 1 0) := by decide
theorem test_decode_prefetchIcacheRange : decode 0xEC401F1C#32 = .ok (.prefetchIcacheRange .al 1 0) := by decide
theorem test_decode_prefetchDcacheRange : decode 0xEC401F2C#32 = .ok (.prefetchDcacheRange .al 1 0) := by decide
theorem test_decode_unifiedNopC7k1 : decode 0xEE070F37#32 = .ok (.unifiedNopC7k1 .al 0) := by decide
theorem test_decode_unifiedNopC7k2 : decode 0xEE070F57#32 = .ok (.unifiedNopC7k2 .al 0) := by decide
theorem test_decode_unifiedNopC7k3 : decode 0xEE070F77#32 = .ok (.unifiedNopC7k3 .al 0) := by decide
theorem test_decode_unifiedNopC7k4 : decode 0xEE070F97#32 = .ok (.unifiedNopC7k4 .al 0) := by decide
theorem test_decode_unifiedNopC7k5 : decode 0xEE070FB7#32 = .ok (.unifiedNopC7k5 .al 0) := by decide
theorem test_decode_unifiedNopC7k6 : decode 0xEE070FD7#32 = .ok (.unifiedNopC7k6 .al 0) := by decide
theorem test_decode_unifiedNopC7k7 : decode 0xEE070FF7#32 = .ok (.unifiedNopC7k7 .al 0) := by decide
theorem test_decode_unifiedNopC11 : decode 0xEE070F9B#32 = .ok (.unifiedNopC11 .al 0 4) := by decide
theorem test_decode_unifiedNopC15 : decode 0xEE070FFF#32 = .ok (.unifiedNopC15 .al 0 7) := by decide
theorem test_decode_c7OtherCprt : decode 0xEE170F9A#32 = .ok (.c7OtherCprt .al 0 1 0 10 4) := by decide
theorem test_decode_other_opcode1 : decode 0xEE270F9A#32 = .ok (.c7OtherCprt .al 0 0 1 10 4) := by decide
theorem test_decode_cp15OtherMcrr : decode 0xEC401F3C#32 = .ok (.cp15OtherMcrr .al 1 0 3 12) := by decide

/-- Field by field as 30_encoding R91 lays them out: cond, 1110, Opcode_1, L, CRn, Rd, cp_num, Opcode_2, 1, CRm (V-C1's
MRC with another register and condition). -/
theorem test_decode_fields_cprt :
    decode (8#4 ++ 0b1110#4 ++ 0#3 ++ 1#1 ++ 7#4 ++ 9#4 ++ 15#4 ++ 6#3 ++ 1#1 ++ 10#4) = .ok (.readCdsr .hi 9) := by decide

/-- Field by field as 30_encoding R92 lays them out: cond, 11000100, Rn, Rd, cp_num, Opcode, CRm. -/
theorem test_decode_fields_cprrt :
    decode (11#4 ++ 0b11000100#8 ++ 5#4 ++ 6#4 ++ 15#4 ++ 2#4 ++ 12#4) = .ok (.prefetchDcacheRange .lt 6 5) := by decide

theorem test_decode_rejects_unconditional : decode 0xFE070F9A#32 = .error .unconditional := by decide   -- V-A19
theorem test_decode_keeps_cps_apart : decode 0xF10C01C0#32 = .error .notC7 := by decide                 -- CPSID: R94, R282 (e)
theorem test_decode_rejects_mrrc : decode 0xEC501F05#32 = .error .mrrc := by decide                     -- V-M5
theorem test_decode_rejects_c6 : decode 0xEE060F9A#32 = .error .notC7 := by decide                      -- V-A22
theorem test_decode_rejects_cp14 : decode 0xEE070E9A#32 = .error .notC7 := by decide                    -- V-A23
theorem test_decodeTableWord : decodeTableWord 32 0x0E070F90 = some (.wfi .eq 0) := by decide

/-! ## A small machine -/

/-- A slot for a block, physical and modified addresses alike. -/
def testSlot (valid dirty : Bool) (b : Block) (v : Byte) : Slot :=
  { valid := valid, dirty := dirty, fading := false, addr := b, block := b, data := Vector.replicate 32 v }

/-- Entries of the branch target cache, no flush under way. -/
def branches (l : List Word) : List Branch := l.map fun a => { addr := a, fading := false }

/-- Supervisor mode after reset, with two ways of two sets a side, known contents, a dirty line for block 0x402 in data
cache slot 1 (way 0, set 1) and an instruction line for block 0x400 in slot 2 (way 1, set 0). -/
def small : State :=
  { State.reset with
    cfg := { launchParams with nWays := 2, sD := 3, sI := 3 }
    dc := [testSlot false false 0 0, testSlot true true 0x402 0xDD, testSlot true false 0x403 0xEE, testSlot false false 0 0]
    ic := [testSlot false false 0 0, testSlot false false 0 0, testSlot true false 0x400 0x11, testSlot false false 0 0]
    cdsrC := true, btac := branches [0x8000, 0x9000], pfb := [], pc := 0x1000, draws := { choices := [0, 0, 0, 0, 0, 0, 0, 0], drawn := 0 } }

/-- The same in User mode. -/
def smallUser : State := { small with cpsr := 0x10#32 }

/-- Some fields of the state an instruction goes on with. -/
def after {α : Type} (i : Instr) (s : State) (f : State → α) : Option α := (nextState? (exec i s)).map f

/-- The refusal an instruction answers with. -/
def refusalOf (i : Instr) (s : State) : Option Refusal :=
  match exec i s with
  | .refused r => some r
  | .next _ | .fault _ => none

/-- A running data prefetch over three blocks. -/
def running : Transfer := { side := .data, cur := 0x1802, last := 0x1804 }

/-- A word waiting in the prefetch buffer for the pc. -/
def withWord (s : State) (w : Word) : State := { s with pfb := [{ addr := s.pc, word := w }] }

/-- A mapping that faults, for one block and access. -/
def faulting (b : Block) (acc : Access) : Mapping := { block := b, access := acc, answer := .faults 5 }

/-! ## One or two steps per instruction -/

theorem test_wfi : after (.wfi .al 0) small (fun t => (t.standby, t.pc)) = some (true, 0x1000#32) := by decide            -- V-W1
theorem test_wfi_user : after (.wfi .al 0) smallUser (fun t => (t.standby, t.pc)) = some (false, 0x04#32) := by decide    -- V-W8
theorem test_invIcacheAll :
    after (.invIcacheAll .al 0) small (fun t => (t.ic.map (·.valid), t.btac, t.cdsrC, t.dc.map (·.valid)))
      = some ([false, false, false, false], [], true, [false, true, true, false]) := by decide                            -- V-E1
theorem test_invIcacheMva :
    after (.invIcacheMva .al 0) (writeReg small 0 0x801C) (fun t => (t.ic.map (·.valid), t.dc == small.dc))
      = some ([false, false, false, false], true) := by decide                                                            -- V-L1
theorem test_invIcacheSw :
    after (.invIcacheSw .al 0) (writeReg small 0 0x40000000) (fun t => t.ic.map (·.valid)) = some [false, false, false, false] := by
  decide                                                                                                                  -- V-L2
theorem test_invIcacheSw_other :
    after (.invIcacheSw .al 0) (writeReg small 0 0x40000020) (fun t => t.ic.map (·.valid)) = some [false, false, true, false] := by
  decide                                                                                                                  -- R98
theorem test_flushPrefetchBuffer :
    after (.flushPrefetchBuffer .al 0) (withWord smallUser 5) (fun t => (t.pfb, t.pc)) = some ([], 0x1004#32) := by decide -- V-A6, V-F1
theorem test_flushBtcAll : after (.flushBtcAll .al 0) small (fun t => t.btac) = some [] := by decide                      -- V-F2
theorem test_flushBtcAll_debug :
    after (.flushBtcAll .al 0) { smallUser with debugState := true } (fun t => (t.btac, t.pc)) = some ([], 0x1004#32) := by decide -- V-A8
theorem test_flushBtcMva :
    after (.flushBtcMva .al 0) (writeReg small 0 0x8003) (fun t => t.btac) = some (branches [0x9000]) := by decide                -- V-F3
theorem test_flushBtcMva_none :
    after (.flushBtcMva .al 0) (writeReg small 0 0x8008) (fun t => t.btac) = some (branches [0x8000, 0x9000]) := by decide     -- V-F4
theorem test_invDcacheAll :
    after (.invDcacheAll .al 0) small (fun t => (t.dc.map (·.valid), t.cdsrC, t.mem.cells, t.ic.map (·.valid)))
      = some ([false, false, false, false], false, [], [false, false, true, false]) := by decide                          -- V-E2
theorem test_invDcacheMva :
    after (.invDcacheMva .al 0) (writeReg small 0 0x805F) (fun t => (t.dc.map (·.valid), t.cdsrC, t.mem.cells))
      = some ([false, false, true, false], true, []) := by decide                                                         -- V-L3
/-- The free choice that delays the effect: the slot is still found, and still dirty; a barrier completes it. -/
theorem test_invDcacheMva_delayed :
    (nextState? (exec (.invDcacheMva .al 0) { writeReg small 0 0x8040 with draws := ⟨[1], 0⟩ })).bind (fun t =>
        (after (.dsb .al 2) t fun u => (t.dc.map (·.valid), t.dc.map (·.dirty), u.dc.map (·.valid), u.mem.cells)))
      = some ([false, true, true, false], [false, true, false, false], [false, false, true, false], []) := by decide      -- R306
/-- Until then an eviction may still write the line back (R33). -/
theorem test_invDcacheMva_evicted :
    (nextState? (exec (.invDcacheMva .al 0) { writeReg small 0 0x8040 with draws := ⟨[1, 0], 0⟩ })).map (fun t =>
        (act (.evict .data (.cache 1)) t).mem.read 0x8040) = some 0xDD := by decide                                       -- R306
/-- An invalidate of the whole data cache under way: C is clear once it is complete (R22 (b)). -/
theorem test_invDcacheAll_delayed :
    (nextState? (exec (.invDcacheAll .al 0) { small with draws := ⟨[1], 0⟩ })).bind (fun t =>
        (after (.dsb .al 2) t fun u => (t.dc.map (·.dirty), t.cdsrC, (act .settleCdsr t).cdsrC, u.dc.map (·.valid), u.cdsrC)))
      = some ([false, true, false, false], true, true, [false, false, false, false], false) := by decide                  -- R306
theorem test_invDcacheSw :
    after (.invDcacheSw .al 0) (writeReg small 0 0x20) (fun t => (t.dc.map (·.valid), t.cdsrC, t.mem.cells))
      = some ([false, false, true, false], true, []) := by decide                                                         -- V-L4
theorem test_invBothAll :
    after (.invBothAll .al 0) small (fun t => ((t.dc ++ t.ic).any (·.valid), t.btac, t.cdsrC, t.mem.cells))
      = some (false, [], false, []) := by decide                                                                          -- V-E3
theorem test_cleanDcacheAll :
    after (.cleanDcacheAll .al 0) small (fun t => (t.mem.read 0x8040, t.mem.read 0x805F, t.mem.read 0x8060, t.cdsrC))
      = some (0xDD#8, 0xDD#8, 0#8, false) := by decide                                                                    -- V-E4
theorem test_cleanDcacheAll_slots :
    after (.cleanDcacheAll .al 0) small (fun t => (t.dc.map (·.valid), t.dc.map (·.dirty), t.pc))
      = some ([false, true, true, false], [false, false, false, false], 0x1004#32) := by decide                           -- V-E4
theorem test_cleaninvDcacheAll :
    after (.cleaninvDcacheAll .al 0) small (fun t => (t.mem.read 0x8040, t.dc.map (·.valid), t.cdsrC))
      = some (0xDD#8, [false, false, false, false], false) := by decide                                                   -- V-E5
theorem test_cleaninvDcacheAll_interrupted :
    after (.cleaninvDcacheAll .al 0) { small with cpsr := 0x13, inputs := { small.inputs with irq := true } }
      (fun t => (t.regs.irqBank.lr, t.cdsrC, t.pc, t.cpsr, t.spsr.irq)) = some (0x1004#32, true, 0x18#32, 0x192#32, 0x13#32) := by
  decide                                                                                                                  -- V-E6, P1 run 3
theorem test_cleanDcacheMva :
    after (.cleanDcacheMva .al 0) (writeReg small 0 0x8044)
      (fun t => (t.mem.read 0x8040, t.dc.map (·.valid), t.dc.map (·.dirty), t.cdsrC))
      = some (0xDD#8, [false, true, true, false], [false, false, false, false], true) := by decide                        -- V-L5
theorem test_cleanDcacheMva_fcse :
    after (.cleanDcacheMva .al 0) (writeReg { small with dc := [testSlot true true 0x100402 1], fcsePid := 0x02000000 } 0 0x8040)
      (fun t => (t.mem.cells, t.dc.map (·.dirty))) = some ([], [true]) := by decide                                       -- V-L14
theorem test_cleanDcacheSw :
    after (.cleanDcacheSw .al 0) (writeReg small 0 0x20) (fun t => (t.mem.read 0x8040, t.dc.map (·.dirty), t.cdsrC))
      = some (0xDD#8, [false, false, false, false], true) := by decide                                                    -- V-L6
theorem test_cleanDcacheSw_invalid_slot :
    after (.cleanDcacheSw .al 0) small (fun t => (t.mem.cells, t.dc == small.dc)) = some ([], true) := by decide          -- V-L11
theorem test_dsb :
    after (.dsb .al 0) { smallUser with writeBuffer := [⟨0x10000000, 7, true⟩] } (fun t => (t.writeBuffer, t.mem.read 0x10000000))
      = some ([], 7#8) := by decide                                                                                       -- V-B1, V-A10
theorem test_dsb_condition_failed :
    after (.dsb .ne 0) { small with cpsr := 0x400001D3, writeBuffer := [⟨0x10000000, 7, true⟩] }
      (fun t => (t.writeBuffer.length, t.pc)) = some (1, 0x1004#32) := by decide                                          -- V-A16
theorem test_dmb :
    after (.dmb .al 0) { smallUser with writeBuffer := [⟨0x8000, 1, false⟩, ⟨0x9000, 7, true⟩] }
      (fun t => (t.writeBuffer.map (·.addr), t.mem.read 0x9000)) = some ([0x8000#32], 7#8) := by decide                   -- R231, R74
theorem test_readCdsr : after (.readCdsr .al 0) small (fun t => readReg t 0) = some 1#32 := by decide                     -- V-C2
theorem test_readCdsr_user : after (.readCdsr .al 0) smallUser (fun t => (readReg t 0, t.pc)) = some (0#32, 4#32) := by decide -- V-A13
theorem test_readBtsr : after (.readBtsr .al 0) smallUser (fun t => (readReg t 0, t.pc)) = some (0#32, 0x1004#32) := by decide -- V-A4
theorem test_readBtsr_running :
    after (.readBtsr .al 0) { small with bt := some running } (fun t => readReg t 0) = some 1#32 := by decide             -- V-T2
theorem test_stopPrefetchRange :
    after (.stopPrefetchRange .al 0) { smallUser with bt := some running } (fun t => t.bt) = some none := by decide       -- V-T3
theorem test_prefetchIcacheMva :
    after (.prefetchIcacheMva .al 0) (writeReg { small with ctrl := { small.ctrl with i := true } } 0 0x10000)
      (fun t => t.ic.map fun sl => (sl.valid, sl.block))
      = some [(true, 0x800#27), (false, 0#27), (true, 0x400#27), (false, 0#27)] := by decide                              -- V-L9
theorem test_prefetchIcacheMva_held :
    after (.prefetchIcacheMva .al 0) (writeReg { small with ctrl := { small.ctrl with i := true } } 0 0x8000)
      (fun t => t.ic == small.ic) = some true := by decide                                                                -- R166
theorem test_cleaninvDcacheMva :
    after (.cleaninvDcacheMva .al 0) (writeReg small 0 0x8044) (fun t => (t.mem.read 0x8040, t.dc.map (·.valid), t.cdsrC))
      = some (0xDD#8, [false, false, true, false], true) := by decide                                                     -- V-L7
theorem test_cleaninvDcacheSw :
    after (.cleaninvDcacheSw .al 0) (writeReg small 0 0x20) (fun t => (t.mem.read 0x8040, t.dc.map (·.valid), t.cdsrC))
      = some (0xDD#8, [false, false, true, false], true) := by decide                                                     -- V-L8

/-- Start 0x8004 and End 0x8043 in r0 and r1 (the operands of V-RG1): blocks 0x400 to 0x402. -/
def ranged (s : State) : State := writeReg (writeReg s 0 0x8004) 1 0x8043

theorem test_invIcacheRange :
    after (.invIcacheRange .al 1 0) (ranged small) (fun t => (t.ic.map (·.valid), t.dc == small.dc))
      = some ([false, false, false, false], true) := by decide                                                            -- V-RG4
theorem test_invDcacheRange :
    after (.invDcacheRange .al 1 0) (ranged small) (fun t => (t.dc.map (·.valid), t.mem.cells, t.cdsrC))
      = some ([false, false, true, false], [], true) := by decide                                                         -- V-RG3
theorem test_cleanDcacheRange :
    after (.cleanDcacheRange .al 1 0) { ranged smallUser with bt := some running }
      (fun t => (t.mem.read 0x8040, t.dc.map (·.dirty), t.cdsrC, t.bt, t.pc))
      = some (0xDD#8, [false, false, false, false], true, none, 0x1004#32) := by decide                                   -- V-RG9, V-RG17
theorem test_cleanDcacheRange_start_above_end :
    after (.cleanDcacheRange .al 0 1) (ranged small) (fun t => (t.dc == small.dc, t.pc)) = some (true, 0x1004#32) := by decide -- V-RG6
theorem test_cleaninvDcacheRange :
    after (.cleaninvDcacheRange .al 1 0) (ranged small) (fun t => (t.mem.read 0x8040, t.dc.map (·.valid)))
      = some (0xDD#8, [false, false, true, false]) := by decide                                                           -- V-RG2
theorem test_cleaninvDcacheRange_abort :
    after (.cleaninvDcacheRange .al 1 0) (ranged { small with mmu := [faulting 0x401 .data] })
      (fun t => (t.pc, t.regs.abtBank.lr, psrMode t.cpsr, t.dc.map (·.dirty)))
      = some (0x10#32, 0x1008#32, 0b10111#5, [false, true, false, false]) := by decide                                    -- V-RG11
theorem test_prefetchIcacheRange :
    after (.prefetchIcacheRange .al 1 0) { ranged smallUser with bt := some running } (fun t => (t.bt, t.pc))
      = some (some { side := .instr, cur := 0x400, last := 0x402 }, 0x1004#32) := by decide                               -- V-RG15, V-RG16
theorem test_prefetchDcacheRange :
    after (.prefetchDcacheRange .al 1 0) (ranged small) (fun t => (t.bt, t.pc))
      = some (some { side := .data, cur := 0x400, last := 0x402 }, 0x1004#32) := by decide                                -- V-RG14
theorem test_unifiedNopC7k1 :
    after (.unifiedNopC7k1 .al 0) (writeReg small 0 0xFFFFFFFF) (fun t => (t.pc, t.dc == small.dc)) = some (0x1004#32, true) := by
  decide                                                                                                                  -- V-N1
theorem test_unifiedNopC7k1_user : after (.unifiedNopC7k1 .al 0) smallUser (fun t => t.pc) = some 4#32 := by decide       -- V-N2
theorem test_unifiedNopC7k2 : after (.unifiedNopC7k2 .al 0) small (fun t => t.pc) = some 0x1004#32 := by decide           -- R126
theorem test_unifiedNopC7k3 : after (.unifiedNopC7k3 .al 0) small (fun t => t.pc) = some 0x1004#32 := by decide           -- R126
theorem test_unifiedNopC7k4 : after (.unifiedNopC7k4 .al 0) small (fun t => t.pc) = some 0x1004#32 := by decide           -- R126
theorem test_unifiedNopC7k5 : after (.unifiedNopC7k5 .al 0) small (fun t => t.pc) = some 0x1004#32 := by decide           -- R126
theorem test_unifiedNopC7k6 : after (.unifiedNopC7k6 .al 0) small (fun t => t.pc) = some 0x1004#32 := by decide           -- R126
theorem test_unifiedNopC7k7 : after (.unifiedNopC7k7 .al 0) small (fun t => t.pc) = some 0x1004#32 := by decide           -- R126
theorem test_unifiedNopC11 : after (.unifiedNopC11 .al 0 0) smallUser (fun t => t.pc) = some 4#32 := by decide            -- V-N5
theorem test_unifiedNopC15 :
    after (.unifiedNopC15 .al 0 7) { small with cpsr := 0x1F } (fun t => t.pc) = some 0x1004#32 := by decide              -- V-N4
theorem test_c7OtherCprt :
    after (.c7OtherCprt .al 0 1 0 10 4) small (fun t => (t.pc, t.regs.undBank.lr, t.cpsr, t.spsr.und))
      = some (4#32, 0x1004#32, 0x1DB#32, 0x1D3#32) := by decide                                                           -- V-A2
theorem test_cp15OtherMcrr : after (.cp15OtherMcrr .al 1 0 3 12) smallUser (fun t => t.pc) = some 0x1004#32 := by decide  -- V-M2
theorem test_cp15OtherMcrr_undefined :
    after (.cp15OtherMcrr .al 1 0 3 12) { small with cfg := { small.cfg with mcrrOther := .undefined } } (fun t => t.pc)
      = some 4#32 := by decide                                                                                            -- V-M3

theorem test_r15_refused : refusalOf (.dsb .al 15) small = some .r15Operand := by decide                                   -- V-A20
theorem test_sbz_refused : refusalOf (.dsb .al 0) (writeReg small 0 1) = some .nonzeroSbz := by decide                     -- V-A21
theorem test_line_translation_refused :
    refusalOf (.invDcacheMva .al 0) { small with mmu := [faulting 0 .data] } = some .lineTranslation := by decide          -- V-L12

/-! ## Set/Way values with S = 9 and four ways (V-S1, V-S2, V-S5, V-S6), S = 10 (V-S7) and S = 7 (V-S8) -/

/-- Only the parameters matter to `slotOf` for the cache proper. -/
def sized (S : Nat) : State := { small with cfg := { launchParams with sD := S } }

theorem test_slotOf_way2_set2 : slotOf (sized 9) .data 0x80000040 = .ok (.cache (2 * 128 + 2)) := by decide
theorem test_slotOf_way1_set127 : slotOf (sized 9) .data 0x40000FE0 = .ok (.cache (128 + 127)) := by decide
theorem test_slotOf_bit12 : slotOf (sized 9) .data 0x00001000 = .error .setWayReserved := by decide
theorem test_slotOf_bit1 : slotOf (sized 9) .data 0x00000002 = .error .setWayReserved := by decide
theorem test_slotOf_no_tcm : slotOf (sized 9) .data 0x00000001 = .error .setWayAbsent := by decide
theorem test_slotOf_S10 : slotOf (sized 10) .data 0x00001000 = .ok (.cache 128) := by decide
theorem test_slotOf_S7 : slotOf (sized 7) .data 0x000003E0 = .ok (.cache 31) := by decide

/-! ## Steps -/

theorem test_step_runs_withFetchWord :
    (nextState? (step (small.withFetchWord 32 0xEE070F95))).map (fun t => (t.pc, t.pfb)) = some (0x1004#32, []) := by decide
theorem test_step_wakes_then_interrupt :                                                                                  -- V-W2
    ((nextState? (step { small with cpsr := 0x13, standby := true, inputs := { small.inputs with irq := true } })).bind
        fun t => nextState? (step t)).map (fun t => (t.regs.irqBank.lr, t.spsr.irq, t.pc)) = some (0x1008#32, 0x13#32, 0x18#32) := by
  decide
theorem test_step_returns :                                                                                               -- E3, R271
    (nextState? (step (withWord { small with cpsr := 0x192, spsr := { small.spsr with irq := 0x13 }
                                             regs := { small.regs with irqBank := ⟨0, 0x8008⟩ } } 0xE25EF004))).map
      (fun t => (t.pc, t.cpsr)) = some (0x8004#32, 0x13#32) := by decide
theorem test_step_fetches_memory :                                                                                        -- R78
    (nextState? (step { small with mem := ⟨[(0x1000, 0x95), (0x1001, 0x0F), (0x1002, 0x07), (0x1003, 0xEE)]⟩ })).map (·.pc)
      = some 0x1004#32 := by decide
theorem test_store_sets_dirty :                                                                                           -- V-C2
    (nextState? (step { small with cdsrC := false, agenda := [.store 0x8061 [9]] })).map (fun t => (t.cdsrC, t.dc.map (·.dirty)))
      = some (true, [false, true, true, false]) := by decide
theorem test_step_fetches_tcm :                                                                                           -- R35
    (nextState? (step { small with
      tcmI := [{ smartCache := false, base := 0x1000, size := 4, slots := [], bytes := [0x95, 0x0F, 0x07, 0xEE] }] })).map (·.pc)
      = some 0x1004#32 := by decide
theorem test_store_reaches_every_slot :                                                                                   -- R71 (a)
    (nextState? (step { small with dc := [testSlot true true 0x403 1, testSlot true false 0x403 1], agenda := [.store 0x8061 [9]] })).map
      (fun t => t.dc.map fun sl => (sl.dirty, sl.data[1], sl.data[0])) = some [(true, 9#8, 1#8), (true, 9#8, 1#8)] := by decide
/-- A dirty line of the same memory under another MVA is evicted before the store, which a clean of its own MVA then reaches. -/
theorem test_store_evicts_alias :                                                                                         -- R79
    (nextState? (step { small with dc := [{ testSlot true true 0x402 0xDD with block := 0x500 }], agenda := [.store 0x8041 [9]] })).map
      (fun t => (t.dc.map (·.valid), t.mem.read 0x8040, t.writeBuffer, (settledByte t 0x8041))) =
      some ([false], 0xDD#8, [⟨0x8041, 9, true⟩], 9#8) := by decide
/-- A store to memory that is not cacheable is not left in a line held for it. -/
theorem test_store_not_cacheable :                                                                                        -- R72
    (nextState? (step { small with mmu := [⟨0x402, .data, .mapped 0x402 false⟩], agenda := [.store 0x8041 [9]] })).map
      (fun t => (t.dc.map (·.valid), t.mem.read 0x8040, t.writeBuffer)) =
      some ([false, false, true, false], 0xDD#8, [⟨0x8041, 9, true⟩]) := by decide
theorem test_no_store_in_standby :                                                                                        -- R37, R241
    (nextState? (step { small with standby := true, agenda := [.store 0x8061 [9]] })).map (fun t => (t.dc, t.agenda))
      = some (small.dc, []) := by decide
theorem test_fill_leaves_a_held_line :                                                                                    -- R71 (a)
    (nextState? (step { small with ctrl := ⟨true, true, false⟩, agenda := [.fill .data 0x8040] })).map (·.dc == small.dc)
      = some true := by decide
theorem test_fill_evicts :                                                                                                -- R32
    (nextState? (step { small with
      ctrl := ⟨true, true, false⟩, agenda := [.fill .data 0x9000], draws := ⟨[1, 0], 0⟩ })).map
      (fun t => (t.dc.map fun sl => (sl.block, sl.dirty), t.mem.read 0x8040))
      = some ([(0#27, false), (0x480#27, false), (0x403#27, false), (0#27, false)], 0xDD#8) := by decide
theorem test_debug_request_stops :                                                                                        -- R266
    (match step { small with debugState := true, inputs := { small.inputs with debugRequest := true } } with
      | .refused .debugLogic => true | _ => false) = true := by decide
theorem test_engine_step_faults :                                                                                         -- V-RG18
    (nextState? (step { small with bt := some running, agenda := [.engine false], mmu := [faulting 0x1802 .data] })).map
      (fun t => (t.bt, t.far, t.dfsr, t.pc)) = some (none, 0#32, 0#32, 0x1000#32) := by decide
theorem test_memory_write_canonical :
    ((Memory.write (Memory.write (Memory.write ⟨[]⟩ 8 1) 4 2) 8 0).cells) = [(4, 2#8)] := by decide

/-! ## Witnesses: for each statement with hypotheses, states and operands that meet them, clause by clause -/

/-- Levels with the IRQ input asserted. -/
def irqLevels : Inputs := { irq := true, fiq := false, impreciseAbort := false, debugRequest := false }

/-- Supervisor mode with the masks clear and an IRQ waiting. -/
def interrupted : State := { small with cpsr := 0x13, inputs := irqLevels }

/-- The same with I set and both asserted: only the FIQ can be taken. -/
def fiqOnly : State := { small with cpsr := 0x93, inputs := { irqLevels with fiq := true } }

/-- The same without a dirty slot and with C clear. -/
def cleaned : State := { small with cdsrC := false, dc := [testSlot true false 0x402 0xDD] }

/-- One TCM on the data side as SmartCache with one slot. -/
def withTcm : State := { sized 9 with tcmD := [{ smartCache := true, base := 0x4000, size := 32, slots := [testSlot true true 0x200 3], bytes := [] }] }

theorem witness_DecodeEncode : Instr.wf (.c7OtherCprt .al 0 1 7 15 7) = true ∧ Instr.wf (.cp15OtherMcrr .le 15 0 15 15) = true := by
  decide
theorem witness_EncodeDecode : decode (encode (.unifiedNopC15 .gt 15 7)) = .ok (.unifiedNopC15 .gt 15 7) := by decide
theorem witness_StepRunsDecoded :
    RunsNext (withWord small 0xEE070F90) ∧ fetchWord (withWord small 0xEE070F90) = .ok (0xEE070F90#32, small)
      ∧ decode 0xEE070F90#32 = .ok (.wfi .al 0) := by unfold RunsNext; decide
theorem witness_DecodesExactlyC7 :
    decode 0xFC401F05#32 = .error .unconditional ∧ decode 0xEC501F05#32 = .error .mrrc := by decide
theorem witness_FetchSource :
    { small with pfb := [⟨8, 1⟩, ⟨0x1000, 5⟩, ⟨0x1000, 6⟩] }.pfb = [⟨8, 1⟩] ++ ⟨small.pc, 5⟩ :: [⟨0x1000, 6⟩]
      ∧ (∀ q ∈ ([⟨8, 1⟩] : List Prefetched), q.addr ≠ small.pc) ∧ (∀ p ∈ small.pfb, p.addr ≠ small.pc)
      ∧ translate small (fcse small small.pc) .fetch = .mapped 0x80 true ∧ small.ctrl.i = false
      ∧ holding { small with pc := 0x8000, ctrl := { small.ctrl with i := true } } .instr (lineOf (fcse small 0x8000))
        = [testSlot true false 0x400 0x11]
      ∧ holding { small with ctrl := { small.ctrl with i := true } } .instr (lineOf (fcse small small.pc)) = []
      ∧ (holding { small with ic := [testSlot true false 0x80 1, testSlot true false 0x80 2] } .instr 0x80).length = 2
      ∧ small.tcmI = [] := by decide
theorem witness_FetchSource_tcm :
    (⟨true, 0, 4, [], [1]⟩ : Tcm).byteAt (byteOfBlock 0 3) = none ∧ (⟨false, 0, 4, [], [1, 2, 3, 4]⟩ : Tcm).byteAt (byteOfBlock 0 3) = some 4
      ∧ (⟨false, 0, 4, [], [1, 2, 3, 4]⟩ : Tcm).byteAt (byteOfBlock 0 4) = none := by decide
theorem witness_StepStops :
    small.agenda = [] ∧ small.standby = false ∧ enabledEvents small = [] ∧ psrT 0x1F3#32 = true ∧ psrJ 0x010001D3#32 = true
      ∧ psrT small.cpsr = false ∧ psrJ small.cpsr = false ∧ (0x1002#32).extractLsb' 0 2 ≠ 0#2
      ∧ (0x1001#32).extractLsb' 0 2 ≠ 0#2
      ∧ small.pc.extractLsb' 0 2 = 0#2 := by decide
theorem witness_StepStops_fetch :
    (match fetchWord { small with mmu := [faulting 0x80 .fetch] } with | .error _ => true | .ok _ => false) = true
      ∧ fetchWord (withWord small 0xFE070F9A) = .ok (0xFE070F9A#32, small) ∧ decode 0xFE070F9A#32 = .error .unconditional
      ∧ decode 0xEC501F05#32 = .error .mrrc ∧ decode 0xEE060F9A#32 = .error .notC7 ∧ returnWord 0xEE060F9A#32 = none := by decide
theorem witness_OtherAgentsLeaveProcessor : ({ small with agenda := [.drain 0] } : State).agenda = [.drain 0] ∧ Action.drain 0 ≠ .core := by
  decide
theorem witness_FailedConditionAdvances : condHolds (Instr.cond (.wfi .eq 15)) small.cpsr = false := by decide
theorem witness_UserModeUndefined :
    condHolds (Instr.cond (.flushBtcAll .al 15)) smallUser.cpsr = true ∧ psrMode smallUser.cpsr = 0b10000#5
      ∧ Instr.userOk smallUser.debugState (.flushBtcAll .al 15) = false := by decide
theorem witness_OtherCprtUndefined :
    isDefinedCprt 1 0 10 4 = false ∧ isDefinedCprt 0 7 15 7 = false ∧ isDefinedCprt 0 0 0 0 = false ∧ condHolds .al small.cpsr = true := by
  decide
theorem witness_UnifiedNops :
    condHolds .al small.cpsr = true ∧ privileged small = true ∧ privileged smallUser = false ∧ (14#4 : RegNo) ≠ 15#4 := by decide
theorem witness_OtherMcrr :
    small.cfg.mcrrOther = .ignored
      ∧ ({ small with cfg := { small.cfg with mcrrOther := .undefined } } : State).cfg.mcrrOther = .undefined := by decide
theorem witness_Register15Refused :
    condHolds .al small.cpsr = true ∧ privileged small = true ∧ 15#4 ∈ Instr.operands (.cp15OtherMcrr .al 0 15 3 12)
      ∧ privileged smallUser = false ∧ Instr.userOk smallUser.debugState (.dsb .al 15) = true ∧ 15#4 ∈ Instr.operands (.dsb .al 15)
      ∧ small.cfg.mcrrOther = .ignored := by decide
theorem witness_NonzeroSbzRefused :
    Instr.sbz (.dsb .al 0) = some 0 ∧ Admitted .al true [0] (writeReg smallUser 0 0x80000000)
      ∧ readReg (writeReg smallUser 0 0x80000000) 0 ≠ 0 := by unfold Admitted; decide
theorem witness_OutsidePremiseRefused :
    Admitted .al false [0] small ∧ readReg small 0 = 0 ∧ Instr.isCacheOp (.invIcacheSw .al 0) = true
      ∧ Admitted .al false [0] { small with lockdown := true } ∧ Admitted .al false [0] { small with aux := ⟨true, false⟩ }
      ∧ Admitted .al true [0, 1] { smallUser with aux := ⟨false, true⟩ } := by unfold Admitted; decide
/-- Also of InvalidateBoth and EntireCleanEnds. -/
theorem witness_InvalidateEntire : Admitted .al false [0] small ∧ readReg small 0 = 0 ∧ Premise small := by
  unfold Admitted Premise; decide
/-- What `AfterDsb` asks of the state that an invalidation leaves. -/
theorem witness_AfterDsb :
    after (.invDcacheAll .al 0) small (fun t => decide (condHolds .al t.cpsr = true ∧ privileged t = true ∧ readReg t 2 = 0)) = some true := by
  decide
theorem witness_EntireCleanCompletes :
    Admitted .al false [14] small ∧ readReg small 14 = 0 ∧ Premise small ∧ (walkPoints small.dc small).taken = none ∧ quiet small = true
      ∧ Memory.wf small.mem ∧ OneDataPerLine (dirtyOf small.dc) ∧ dirtyOf small.dc ≠ []
      ∧ (walkPoints small.dc { interrupted with draws := ⟨[1, 1, 1, 1], 0⟩ }).taken = none ∧ quiet interrupted = false := by
  unfold Admitted Premise OneDataPerLine; decide
theorem witness_EntireCleanEnds :
    Admitted .al false [0] interrupted ∧ readReg interrupted 0 = 0 ∧ Premise interrupted
      ∧ (walkPoints interrupted.dc interrupted).taken = some .irq ∧ (walkPoints small.dc small).taken = none
      ∧ (walkPoints interrupted.dc fiqOnly).taken = some .fiq
      ∧ (walkPoints interrupted.dc { interrupted with draws := ⟨[1, 1, 0], 0⟩ }).treated = 2
      ∧ Memory.wf interrupted.mem ∧ OneDataPerLine (dirtyOf interrupted.dc) := by
  unfold Admitted Premise OneDataPerLine; decide
theorem witness_InvalidateLine :
    Admitted .al false [0] (writeReg small 0 0xFFFFFFFF) ∧ Premise (writeReg small 0 0xFFFFFFFF)
      ∧ translates (writeReg small 0 0xFFFFFFFF) 0xFFFFFFFF .fetch = true ∧ translates (writeReg small 0 0xFFFFFFFF) 0xFFFFFFFF .data = true := by
  unfold Admitted Premise; decide
theorem witness_CleanLine :
    Admitted .al false [0] (writeReg small 0 0x805F) ∧ Premise (writeReg small 0 0x805F) ∧ Memory.wf (writeReg small 0 0x805F).mem
      ∧ translates (writeReg small 0 0x805F) 0x805F .data = true
      ∧ OneDataPerLine (dirtyOf (holding (writeReg small 0 0x805F) .data (lineOf 0x805F)))
      ∧ dirtyOf (holding (writeReg small 0 0x805F) .data (lineOf 0x805F)) ≠ [] := by
  unfold Admitted Premise OneDataPerLine; decide
theorem witness_LineTranslationRefused :
    Admitted .al false [0] small ∧ Premise small ∧ translates { small with mmu := [faulting 0 .fetch] } 0x1F .fetch = false
      ∧ translates { small with mmu := [faulting 0 .data] } 0 .data = false := by unfold Admitted Premise; decide
theorem witness_SetWayDecode :
    2 ≤ paramS (sized 9) .data ∧ paramS (sized 9) .data ≤ 26 ∧ 127 < numSets (sized 9) .data ∧ 3 < (sized 9).cfg.nWays
      ∧ paramS (sized 2) .data = 2 ∧ 0 < numSets (sized 2) .data ∧ paramS (sized 26) .data = 26 ∧ small.cfg.nWays ≤ 2
      ∧ (tcmsOf withTcm .data)[0]?.any (fun t => t.smartCache && 0 < t.slots.length) = true ∧ (tcmsOf withTcm .data)[1]? = none
      ∧ (0x2#32).getLsbD 1 = true ∧ (0x10#32).getLsbD 4 = true ∧ (0x1000#32).getLsbD (paramS (sized 9) .data + 3) = true
      ∧ (0x20000000#32).getLsbD 29 = true := by decide
/-- Also of SetWayClean. -/
theorem witness_SetWayInvalidate :
    Admitted .al false [0] (writeReg small 0 0x40000020) ∧ Premise (writeReg small 0 0x40000020)
      ∧ slotOf (writeReg small 0 0x40000020) .data 0x40000020 = .ok (.cache 3) ∧ slotOf small .instr 0x80000000 = .error .setWayAbsent
      ∧ slotOf small .data 0x40 = .error .setWayReserved ∧ slotOf withTcm .data 1 = .ok (.tcm 0 0)
      ∧ Memory.wf (writeReg small 0 0x40000020).mem := by unfold Admitted Premise; decide
theorem witness_PrefetchInstructionLine :
    Admitted .al false [0] (writeReg small 0 0x8000) ∧ Premise (writeReg small 0 0x8000) ∧ IcacheClean (writeReg small 0 0x8000)
      ∧ translate (writeReg small 0 0x8000) 0x8000 .fetch = .mapped 0x400 true
      ∧ holding (writeReg small 0 0x8000) .instr (lineOf 0x8000) ≠ [] ∧ holding small .instr (lineOf 0x8060) = []
      ∧ translate { small with mmu := [⟨0, .fetch, .mapped 5 false⟩] } 0 .fetch = .mapped 5 false
      ∧ cacheEnabled small .instr = false ∧ cacheEnabled { small with ctrl := ⟨false, true, false⟩ } .instr = true
      ∧ fillBarred { small with tcmI := [⟨false, 0x8060, 32, [], [1]⟩] } .instr (lineOf 0x8060) 0x403 = true := by
  unfold Admitted Premise IcacheClean; decide
theorem witness_FillOneSlot :
    cacheEnabled small .data = false
      ∧ translate { small with mmu := [⟨0, .data, .mapped 5 false⟩] } 0 .data = .mapped 5 false
      ∧ translate { small with ctrl := ⟨true, true, false⟩ } 0xFFFFFFFF (sideAccess .data) = .mapped 0x7FFFFFF true
      ∧ fillBarred small .data (lineOf 0x8040) 0x402 = true ∧ fillBarred small .data (lineOf 0xFFFFFFFF) 0x7FFFFFF = false
      ∧ fillBarred { small with tcmD := [⟨false, 0x8000, 32, [], [1]⟩] } .instr (lineOf 0x8000) 0x400 = true
      ∧ Memory.wf small.mem := by decide
theorem witness_StatusReads : Admitted .al false [13] small ∧ Admitted .al true [14] smallUser := by unfold Admitted; decide
theorem witness_ZeroReadMeansClean :
    CdsrSound cleaned ∧ Admitted .al false [0] cleaned
      ∧ after (.readCdsr .al 0) cleaned (fun t => (readReg t 0, t.cdsrC)) = some (0#32, false) := by
  unfold CdsrSound Admitted; decide
theorem witness_StopPrefetchRange :
    Admitted .al true [0] { smallUser with bt := some running } ∧ readReg { smallUser with bt := some running } 0 = 0 := by
  unfold Admitted; decide
theorem witness_RangeBlocksInclusive :
    (lineOf 0x1F).toNat ≤ (lineOf 0).toNat ∧ (lineOf 0xFFFFFFE0).toNat ≤ (lineOf 0xFFFFFFFF).toNat := by decide

/-- Also of PrefetchRangeStarts and NewTransferAbandonsOld: Start on a line before End's, and on one line at equal low bits. -/
theorem witness_RangeInvalidate :
    Admitted .al false [1, 0] (ranged small) ∧ Premise (ranged small) ∧ quiet (ranged small) = true
      ∧ RangeRuns (readReg (ranged small) 0) (readReg (ranged small) 1) ∧ RangeRuns 0x10#32 0x10#32 := by
  unfold Admitted Premise RangeRuns; decide
/-- Quiet, and with an interrupt enabled that no point takes. -/
theorem witness_RangeInvalidate_completes (acc : Access) :
    (walkRange acc (rangeBlocks 0x8004 0x8043) (abandon (ranged small))).ended = .completed
      ∧ (walkRange acc (rangeBlocks 0x8004 0x8043) (abandon { ranged interrupted with draws := ⟨[1, 1, 1], 0⟩ })).ended = .completed := by
  cases acc <;> decide
theorem witness_RangeClean :
    Admitted .al true [1, 0] (ranged smallUser) ∧ Premise (ranged smallUser) ∧ quiet (ranged smallUser) = true
      ∧ Memory.wf (ranged smallUser).mem ∧ RangeRuns (readReg (ranged smallUser) 0) (readReg (ranged smallUser) 1)
      ∧ (walkRange .data (rangeBlocks 0x8004 0x8043) (abandon (ranged smallUser))).ended = .completed
      ∧ dirtyOf (hitBy (ranged smallUser) .data (rangeBlocks 0x8004 0x8043)) = [testSlot true true 0x402 0xDD] := by
  unfold Admitted Premise RangeRuns; decide
theorem witness_RangeClean_data : OneDataPerLine [testSlot true true 0x402 0xDD] := by unfold OneDataPerLine; decide
theorem witness_RangeTranslationFault :
    Admitted .al true [1, 0] (ranged smallUser) ∧ Premise (ranged smallUser) ∧ quiet (ranged smallUser) = true
      ∧ RangeRuns (readReg (ranged smallUser) 0) (readReg (ranged smallUser) 1)
      ∧ (match (walkRange .data (rangeBlocks 0x8004 0x8043) (abandon (ranged { small with mmu := [faulting 0x401 .data] }))).ended with
          | .aborted _ => true | .completed | .interrupted _ => false) = true
      ∧ rangeBlocks 0x8004 0x8043 = [] ++ 0x400 :: [0x401, 0x402] ∧ rangeBlocks 0x8004 0x8043 = [0x400] ++ 0x401 :: [0x402]
      ∧ translate (ranged { small with mmu := [faulting 0x400 .data] }) (fcse small (blockBase 0x400)) .data = .faults 5
      ∧ translates (ranged { small with mmu := [faulting 0x401 .data] }) (fcse small (blockBase 0x400)) .data = true
      ∧ translate (ranged { small with mmu := [faulting 0x401 .data] }) (fcse small (blockBase 0x401)) .data = .faults 5 := by
  unfold Admitted Premise RangeRuns; decide
theorem witness_RangeInterrupted :
    Admitted .al true [1, 0] (ranged interrupted) ∧ Premise (ranged interrupted)
      ∧ RangeRuns (readReg (ranged interrupted) 0) (readReg (ranged interrupted) 1)
      ∧ (walkRange .data (rangeBlocks 0x8004 0x8043) (abandon (ranged interrupted))).ended = .interrupted .irq
      ∧ (walkRange .data (rangeBlocks 0x8004 0x8043)
          (abandon { ranged interrupted with draws := { choices := [1, 0], drawn := 0 } })).treated = 1
      ∧ (walkRange .data (rangeBlocks 0x8004 0x8043) (abandon (ranged fiqOnly))).ended = .interrupted .fiq := by
  unfold Admitted Premise RangeRuns; decide
theorem witness_StartAboveEnd :
    Admitted .al true [0, 1] (ranged smallUser) ∧ Premise (ranged smallUser)
      ∧ (lineOf (readReg (ranged smallUser) 0)).toNat < (lineOf (readReg (ranged smallUser) 1)).toNat
      ∧ lineOf 0x1F = lineOf 0x1E ∧ ((0x1E#32).extractLsb' 0 5).toNat < ((0x1F#32).extractLsb' 0 5).toNat
      ∧ (rangeOps .al 0 1)[(5 : Fin 6)]? = some (.prefetchDcacheRange .al 0 1) := by unfold Admitted Premise; decide
theorem witness_EngineEnds :
    ({ small with agenda := [.engine true], bt := some { running with cur := 0x1804 } } : State).agenda = [.engine true]
      ∧ ({ running with cur := 0x1804 } : Transfer).cur = running.last := by decide
theorem witness_EngineStep :
    translates small (fcseWith small.cfg 0 (blockBase running.cur)) (sideAccess running.side) = true
      ∧ translates { small with mmu := [faulting 0x1802 .data] } (fcseWith small.cfg 0 (blockBase running.cur)) (sideAccess running.side)
        = false ∧ running.cur ≠ running.last
      ∧ ({ small with bt := some running, agenda := [.engine false], btOldPids := [0x02000000] } : State).bt = some running := by decide
/-- Also of DataSynchronizationBarrier and WaitForInterrupt. -/
theorem witness_Flushes :
    Admitted .al true [0] smallUser ∧ readReg smallUser 0 = 0 ∧ Admitted .al true [0] { smallUser with debugState := true }
      ∧ Admitted .al false [0] small ∧ readReg small 0 = 0 := by unfold Admitted; decide
theorem witness_DataMemoryBarrier :
    Admitted .al true [0] smallUser ∧ readReg smallUser 0 = 0 ∧ Memory.wf smallUser.mem
      ∧ ([⟨8, 1, false⟩, ⟨8, 2, true⟩, ⟨9, 3, false⟩] : List PendingByte) = [⟨8, 1, false⟩] ++ ⟨8, 2, true⟩ :: [⟨9, 3, false⟩]
      ∧ ∀ q ∈ ([⟨9, 3, false⟩] : List PendingByte), q.addr ≠ 8 := by unfold Admitted; decide
theorem witness_WakeWhateverTheMasks :
    small.agenda = [] ∧ ({ small with standby := true } : State).standby = true
      ∧ ({ small with inputs := irqLevels } : State).inputs.irq = true ∧ small.inputs.anyAsserted = false
      ∧ enabledEvents { interrupted with standby := true } = [.irq] := by decide
theorem witness_StandbyChanges :
    (nextState? (step { small with standby := true })).map (·.standby) = some true
      ∧ (nextState? (step { small with standby := true, inputs := irqLevels })).map (·.standby) = some false
      ∧ (nextState? (step (withWord small 0xEE070F90))).map (·.standby) = some true := by decide
theorem witness_ExceptionEntry : small.cfg.vectors = launchParams.vectors := by decide
theorem witness_EventTaken :
    interrupted.agenda = [] ∧ interrupted.standby = false ∧ enabledEvents interrupted = [.irq]
      ∧ enabledEvents { small with cpsr := 0x93, inputs := { irqLevels with fiq := true } } = [.fiq]
      ∧ enabledEvents { small with cpsr := 0xD3, inputs := { irqLevels with impreciseAbort := true } } = [.impreciseAbort]
      ∧ enabledEvents { small with inputs := { irqLevels with debugRequest := true } } = [.debugRequest]
      ∧ enabledEvents { small with debugState := true, inputs := { irqLevels with debugRequest := true } } = [.debugRequest] := by decide
theorem witness_ReturnInstructions :
    RunsNext (withWord small 0xE1B0F00E) ∧ fetchWord (withWord small 0xE1B0F00E) = .ok (0xE1B0F00E#32, small)
      ∧ small.spsr.of (modeOf small) = some 0x1D3#32 ∧ RunsNext (withWord { small with cpsr := 0x1DF } 0xE25EF004)
      ∧ small.spsr.of (modeOf { small with cpsr := 0x1DF }) = none := by unfold RunsNext; decide
theorem witness_UserModeLimits :
    psrMode smallUser.cpsr = 0b10000#5 ∧ after (.cleanDcacheRange .al 1 0) (ranged smallUser) (·.cpsr) = some smallUser.cpsr := by decide
/-- A barrier in User mode completes what a privileged mode left under way. -/
theorem witness_UserModeLimits_settles :
    after (.dsb .al 0) { smallUser with btac := [⟨8, true⟩, ⟨16, false⟩], ic := [{ testSlot true false 1 1 with fading := true }] }
      (fun t => (t.btac, t.ic.map (·.valid), t.cpsr)) = some (branches [16], [false], smallUser.cpsr) := by decide
theorem witness_OnlyPrefetchRangeStarts :
    (nextState? (step (withWord (ranged small) 0xEC401F2C))).map btsrR = some true ∧ btsrR (withWord (ranged small) 0xEC401F2C) = false := by
  decide
theorem witness_OnlyFourClearDirty :
    (nextState? (step (withWord small 0xEE070F1A))).map (·.cdsrC) = some false ∧ small.cdsrC = true
      ∧ (nextState? (step { cleaned with agenda := [.store 0x805F [9]] })).map (·.cdsrC) = some true ∧ cleaned.cdsrC = false := by decide
/-- C cleared by what completes an invalidate under way, and that one begun. -/
theorem witness_OnlyFourClearDirty_completes :
    (nextState? (step { withWord small 0xEE070F9A with cdsrClearing := true })).map (·.cdsrC) = some false
      ∧ (nextState? (step { withWord small 0xEE070F16 with draws := ⟨[1], 0⟩ })).map (fun t => (t.cdsrC, t.cdsrClearing))
        = some (true, true) := by decide
theorem witness_OtherAgentsLeaveProcessor_standby :
    ({ small with standby := true, agenda := [.store 0x8040 [9]] } : State).standby = true
      ∧ Action.bySoftware (.store 0x8040 [9]) = true := by decide
theorem witness_ResetClearsDirty : Admitted .al false [0] small := by unfold Admitted; decide
/-- Four sets in one way a side, as a Cache Type Register of 0 reports it, a running transfer, an instruction waiting. -/
def regular : State :=
  { withWord small 0xEE070F1A with
    bt := some running, cfg := { small.cfg with nWays := 1, sD := 4, sI := 4 }, cacheType := 0, draws := ⟨[], 0⟩ }

theorem witness_StepKeepsInvariant : Inv regular := by
  refine ⟨?_, ?_, ?_, ?_, ?_, ?_, ?_⟩
  · decide
  · unfold CdsrSound; decide
  · unfold IcacheClean; decide
  · unfold Geometry GeometryReported; decide
  · intro t ht; cases ht; decide
  · exact List.all_eq_true (p := fun p => (Mode.ofBits (psrMode p)).isSome).1 (by decide)
  · unfold ClearingSound; decide
theorem witness_StepKeepsInvariant_next :
    (nextState? (step { regular with draws := ⟨[0, 0, 0, 0], 0⟩ })).isSome = true := by decide
theorem witness_QuietWalksComplete :
    quiet small = true ∧ psrI small.cpsr = true ∧ psrF small.cpsr = true ∧ quiet { small with points := [irqLevels] } = false
      ∧ (walkPoints small.dc { interrupted with inputs := small.inputs, points := [small.inputs, irqLevels] }).taken = some .irq
      ∧ (walkRange .data [1, 2] { interrupted with inputs := small.inputs, points := [small.inputs, irqLevels] }).ended
        = .interrupted .irq := by decide
theorem witness_CacheHardwareMoves :
    Memory.wf small.mem ∧ dirtyOf (getSlot small .data (.cache 1)).toList = [testSlot true true 0x402 0xDD]
      ∧ (nextState? (step { small with agenda := [.evict .data (.cache 1)] })).map (fun t => (t.dc.map (·.valid), t.mem.read 0x8040))
        = some ([false, false, true, false], 0xDD)
      ∧ (nextState? (step { small with agenda := [.clean (.cache 1)] })).map (fun t => (t.dc.map (·.dirty), t.mem.read 0x8040))
        = some ([false, false, false, false], 0xDD)
      ∧ (nextState? (step { small with
          dc := [{ testSlot true false 1 1 with fading := true }], agenda := [.settle .data (.cache 0)] })).map (fun t => t.dc.map (·.valid))
        = some [false]
      ∧ (nextState? (step { small with cdsrClearing := true, agenda := [.settleCdsr] })).map (·.cdsrC) = some false
      ∧ (∀ sl ∈ small.dc, sl.fading = false) ∧ small.cdsrClearing = false := by decide
/-- A byte leaves the write buffer out of turn; it waits for an older one to its address; there is none. -/
theorem witness_CacheHardwareMoves_drain :
    let s : State := { small with writeBuffer := [⟨8, 1, true⟩, ⟨9, 2, true⟩, ⟨8, 3, false⟩] }
    (nextState? (step { s with agenda := [.drain 1] })).map (fun t => (t.mem.read 9, t.mem.read 8, t.writeBuffer))
        = some (2, small.mem.read 8, [⟨8, 1, true⟩, ⟨8, 3, false⟩])
      ∧ (nextState? (step { s with agenda := [.drain 2] })).map (fun t => (t.mem.read 8, t.writeBuffer))
        = some (small.mem.read 8, s.writeBuffer)
      ∧ s.writeBuffer[3]? = none ∧ settledByte s 8 = 3 := by decide

end Sys2Proof.Machine
end

/-! The statements of 00_scope: an agent other than the core leaves the processor alone, and the core's step executes the word
it fetched and decoded. -/

namespace Sys2Proof.Machine

open Sys2Proof.Config

/-! ## The branch target cache under the moves of the agents -/

@[simp] theorem writeOut_btac (s : State) (ws : List (Word × Byte)) : (writeOut s ws).btac = s.btac := by rw [writeOut_frame]
@[simp] theorem updateSlot_btac (s : State) (side : Side) (r : SlotRef) (f : Slot → Slot) :
    (updateSlot s side r f).btac = s.btac := by rw [updateSlot_frame]
@[simp] theorem evictSlot_btac (s : State) (side : Side) (r : SlotRef) : (evictSlot s side r).btac = s.btac := by
  rw [evictSlot_frame]
@[simp] theorem fillSlot_btac (s : State) (side : Side) (mva : Word) : (fillSlot s side mva).btac = s.btac := by
  rw [fillSlot_frame]
@[simp] theorem engineStep_btac (memFault : Bool) (s : State) : (engineStep memFault s).btac = s.btac := by
  rw [engineStep_frame]
@[simp] theorem settleCdsr_btac (s : State) : (settleCdsr s).btac = s.btac := by rw [settleCdsr_frame]
@[simp] theorem drainByte_btac (s : State) (k : Nat) : (drainByte s k).btac = s.btac := by rw [drainByte_frame]
@[simp] theorem prefetchAhead_btac (s : State) (va : Word) : (prefetchAhead s va).btac = s.btac := by
  rw [prefetchAhead_frame]
@[simp] theorem storeBytes_btac (ws : List (Word × Byte)) (s : State) : (ws.foldl storeByte s).btac = s.btac := by
  rw [storeBytes_frame]

/-- Only the two moves of the branch prediction hardware touch the branch target cache (10_state R34). -/
theorem move_btac (a : Action) (s : State) :
    (move a s).btac = s.btac ∨ (∃ x, a = .predict x ∧ (move a s).btac = { addr := x, fading := false } :: s.btac)
      ∨ ∃ k, a = .dropBranch k ∧ (move a s).btac = s.btac.eraseIdx k := by
  cases a with
  | predict x => exact .inr (.inl ⟨x, rfl, rfl⟩)
  | dropBranch k => exact .inr (.inr ⟨k, rfl, rfl⟩)
  | _ => exact .inl (by simp [move])

theorem act_btac (a : Action) (s : State) :
    (act a s).btac = s.btac ∨ (∃ x, a = .predict x ∧ (act a s).btac = { addr := x, fading := false } :: s.btac)
      ∨ ∃ k, a = .dropBranch k ∧ (act a s).btac = s.btac.eraseIdx k := by
  rcases act_eq a s with ⟨-, -, waits⟩ | ⟨-, moves⟩
  · exact .inl (by rw [waits])
  · rw [moves]; exact move_btac a s

/-- In standby the core executes nothing, so a move that stands for one of its instructions does nothing (10_state R37). -/
theorem act_bySoftware_standby {a : Action} {s : State} (hs : s.standby = true) (ha : a.bySoftware = true) : act a s = s := by
  simp [act, hs, ha]

/-! ## The rest of the processor under the moves of the agents -/

@[simp] theorem act_regs (a : Action) (s : State) : (act a s).regs = s.regs := by rw [act_frame]
@[simp] theorem act_pc (a : Action) (s : State) : (act a s).pc = s.pc := by rw [act_frame]
@[simp] theorem act_cpsr (a : Action) (s : State) : (act a s).cpsr = s.cpsr := by rw [act_frame]
@[simp] theorem act_spsr (a : Action) (s : State) : (act a s).spsr = s.spsr := by rw [act_frame]
@[simp] theorem act_standby (a : Action) (s : State) : (act a s).standby = s.standby := by rw [act_frame]
@[simp] theorem act_far (a : Action) (s : State) : (act a s).far = s.far := by rw [act_frame]
@[simp] theorem act_dfsr (a : Action) (s : State) : (act a s).dfsr = s.dfsr := by rw [act_frame]
@[simp] theorem act_cacheType (a : Action) (s : State) : (act a s).cacheType = s.cacheType := by rw [act_frame]
@[simp] theorem act_lockdown (a : Action) (s : State) : (act a s).lockdown = s.lockdown := by rw [act_frame]
@[simp] theorem act_cfg (a : Action) (s : State) : (act a s).cfg = s.cfg := by rw [act_frame]
@[simp] theorem act_agenda (a : Action) (s : State) : (act a s).agenda = s.agenda := by rw [act_frame]

/-- Settles O8: the step is `act` (`step_act`), which keeps each of these fields (`act_regs` to `act_agenda`) and does to the
branch target cache what `act_btac` says. -/
theorem otherAgentsLeaveProcessor : Obligations.OtherAgentsLeaveProcessor := by
  intro s a rest hagenda hcore
  refine ⟨_, step_act hagenda hcore, act_regs .., act_pc .., act_cpsr .., act_spsr .., act_standby .., act_far .., act_dfsr ..,
    act_cacheType .., act_lockdown .., act_cfg .., act_agenda .., fun hs ha => ?_, ?_⟩
  · exact act_bySoftware_standby hs ha
  · exact act_btac a { s with agenda := rest }

/-! ## The core's turn -/

/-- The fetch does not read the agenda: a free value is used up or not whatever moves come next. -/
theorem afterFetch_withAgenda (s : State) (va : Word) (l : List Action) :
    afterFetch { s with agenda := l } va = { afterFetch s va with agenda := l } := by
  have hheld : holding { s with agenda := l } = holding s := rfl
  have hfcse : fcse { s with agenda := l } = fcse s := rfl
  simp only [afterFetch, hheld, hfcse]
  split <;> rfl

/-- The fetch finds the same word whatever moves come next, and leaves them to come. -/
theorem fetchWord_withAgenda {s s1 : State} {w : Word} (h : fetchWord s = .ok (w, s1)) (l : List Action) :
    fetchWord { s with agenda := l } = .ok (w, { s1 with agenda := l }) := by
  have hbytes : fetchBytes { s with agenda := l } s.pc = fetchBytes s s.pc := rfl
  unfold fetchWord at h ⊢
  split at h
  · next p held => cases h; simp only [held]
  · next missed =>
    split at h
    · cases h
    · next bs fetched => cases h; simp only [missed, hbytes, fetched, afterFetch_withAgenda]

/-- The core's step on a state where nothing is to be taken first and the fetched word decodes. -/
theorem coreStep_decoded {s s1 : State} {w : Word} {i : Instr} (hs : s.standby = false) (he : enabledEvents s = [])
    (ht : psrT s.cpsr = false) (hj : psrJ s.cpsr = false) (hp : s.pc.extractLsb' 0 2 = 0#2)
    (hf : fetchWord s = .ok (w, s1)) (hd : decode w = .ok i) : coreStep s = exec i s1 :=
  (coreStep_runs hs he).trans (runInstruction_decoded ht hj hp hf hd)

/-- Settles O5: with an empty agenda and with one that names the core the step is the core's, `coreStep_decoded`, and the
fetch is the same in both (`fetchWord_withAgenda`). -/
theorem stepRunsDecoded : Obligations.StepRunsDecoded := by
  rintro s s1 w i ⟨hagenda, hs, he, ht, hj, hp⟩ hf hd
  have hstep : step s = coreStep s := by unfold step; rw [hagenda]
  refine ⟨hstep.trans (coreStep_decoded hs he ht hj hp hf hd), fetchWord_frame hf, fun rest => ?_⟩
  exact coreStep_decoded (s := { s with agenda := rest }) hs he ht hj hp (fetchWord_withAgenda hf rest) hd

end Sys2Proof.Machine

/-! The statements of 10_state on reset and on what a step of the core does: the fetch, standby, C. -/

namespace Sys2Proof.Machine

open Sys2Proof.Config

/-! ## Reset -/

theorem length_resetSlots (side : Side) (first count : Nat) : (resetSlots side first count).length = count := by
  induction count generalizing first with
  | zero => rfl
  | succ count ih => simp [resetSlots, ih]

/-- No slot is dirty after reset, whatever else is drawn for it (10_state R56). -/
theorem dirty_resetSlots {side : Side} {first count : Nat} {sl : Slot} (h : sl ∈ resetSlots side first count) :
    sl.dirty = false ∧ sl.isDirty = false := by
  induction count generalizing first with
  | zero => cases h
  | succ count ih =>
    rcases List.mem_cons.1 h with rfl | h
    · exact ⟨rfl, rfl⟩
    · exact ih h

/-- Bits [31:1] of a status register are zero (30_encoding R104). -/
theorem statusWord_high (b : Bool) : statusWord b &&& 0xFFFFFFFE#32 = 0 := by cases b <;> rfl

theorem readReg_advance (s : State) {n : RegNo} (hn : n ≠ 15#4) : readReg (advance s) n = readReg s n := by
  unfold readReg
  rw [if_neg hn, if_neg hn]
  rfl

/-- Settles O55: a read that is admitted writes `statusWord` to Rd, which is not r15. -/
theorem resetClearsDirty : Obligations.ResetClearsDirty := by
  refine ⟨rfl, fun c rd s admitted => ⟨advance (writeReg s rd (statusWord s.cdsrC)), c7Access_admitted admitted _, ?_⟩⟩
  obtain ⟨-, -, noR15⟩ := admitted
  have hrd : rd ≠ 15#4 := fun e => noR15 (by simp [e])
  rw [readReg_advance _ hrd, readReg_writeReg_self s _ hrd, statusWord_high]

/-- Settles O56: the slots by `dirty_resetSlots`. -/
theorem resetState : Obligations.ResetState := by
  refine ⟨rfl, rfl, rfl, fun sl h => ?_⟩
  rcases List.mem_append.1 h with h | h
  · exact (dirty_resetSlots h).1
  · exact (dirty_resetSlots h).1

/-- Settles O57: no slot of either side is dirty (`dirty_resetSlots`), and 512 slots are four ways of 2^7 sets. -/
theorem resetInvariant : Obligations.ResetInvariant := by
  have slots : ∀ side, ∀ sl ∈ resetSlots side 0 512, sl.isDirty = false := fun _ _ h => (dirty_resetSlots h).2
  refine ⟨by decide, fun _ => slots .data, fun sl h => ?_, ⟨length_resetSlots .., length_resetSlots .., ?_⟩, ?_, ?_, ?_⟩
  · exact slots .instr sl (by simpa [sideSlots, State.reset, smartSlots] using h)
  · unfold GeometryReported; decide
  · exact fun _ e => by cases e
  · exact List.all_eq_true (p := fun p => (Mode.ofBits (psrMode p)).isSome).1 (by decide)
  · exact fun e => by cases e

/-! ## The fetch -/

/-- The first word the prefetch buffer holds for the pc is taken out of it. -/
theorem fetchWord_held {s : State} {l r : List Prefetched} {p : Prefetched} (hs : s.pfb = l ++ p :: r)
    (hl : ∀ q ∈ l, q.addr ≠ s.pc) (hp : p.addr = s.pc) : fetchWord s = .ok (p.word, { s with pfb := l ++ r }) := by
  have found : s.pfb.find? (fun q => q.addr == s.pc) = some p := by
    rw [hs, List.find?_append, List.find?_eq_none.2 (by simpa using hl)]
    simp [hp]
  have taken : s.pfb.eraseP (fun q => q.addr == s.pc) = l ++ r := by
    rw [hs, List.eraseP_append_right _ (by simpa using hl), List.eraseP_cons_of_pos (by simp [hp])]
  simp [fetchWord, found, taken]

/-- Without such a word the fetch goes to the memory system. -/
theorem fetchWord_missed {s : State} {pb : Block} {ca : Bool} (hp : ∀ p ∈ s.pfb, p.addr ≠ s.pc)
    (ht : translate s (fcse s s.pc) .fetch = .mapped pb ca) :
    fetchWord s = .ok (wordOf s.cfg.bigEndian ((List.range 4).map fun k =>
      fetchByte s (fetchLine s (fcse s s.pc)) pb (((fcse s s.pc).extractLsb' 0 5).toNat + k)), afterFetch s s.pc) := by
  have missed : s.pfb.find? (fun q => q.addr == s.pc) = none := List.find?_eq_none.2 (by simpa using hp)
  simp [fetchWord, missed, fetchBytes, ht]

/-- No line is found with the cache disabled or the block not held. -/
theorem fetchLine_none {s : State} {mva : Word} (h : s.ctrl.i = false ∨ holding s .instr (lineOf mva) = []) :
    fetchLine s mva = none := by
  rcases h with h | h <;> simp [fetchLine, h]

/-- With the cache enabled some line that holds the block is found. -/
theorem fetchLine_some {s : State} {mva : Word} (hi : s.ctrl.i = true) (hh : holding s .instr (lineOf mva) ≠ []) :
    ∃ sl ∈ holding s .instr (lineOf mva), fetchLine s mva = some sl := by
  have lt : s.draws.head % (holding s .instr (lineOf mva)).length < (holding s .instr (lineOf mva)).length :=
    Nat.mod_lt _ (List.length_pos_iff.2 hh)
  exact ⟨_, List.getElem_mem lt, by simp [fetchLine, hi, List.getElem?_eq_getElem lt]⟩

/-- No free value is used up unless there are several lines to choose from. -/
theorem afterFetch_of_few {s : State} {va : Word}
    (h : s.ctrl.i = false ∨ (holding s .instr (lineOf (fcse s va))).length < 2) : afterFetch s va = s :=
  if_neg (by rcases h with h | h <;> simp [h])

theorem fetchByte_noTcm {s : State} {pb : Block} {k : Nat} (h : ∀ x ∈ s.tcmI, x.byteAt (byteOfBlock pb k) = none)
    (line : Option Slot) :
    fetchByte s line pb k = line.elim (s.mem.read (byteOfBlock pb k)) fun sl => sl.data[k]?.getD 0 := by
  have uncovered : s.tcmI.findSome? (Tcm.byteAt (byteOfBlock pb k)) = none := List.findSome?_eq_none_iff.2 h
  cases line <;> simp [fetchByte, uncovered]

/-- The first instruction side TCM that covers a byte gives it. -/
theorem fetchByte_tcm {s : State} {pb : Block} {k : Nat} {l r : List Tcm} {x : Tcm} {b : Byte} (hs : s.tcmI = l ++ x :: r)
    (hl : ∀ y ∈ l, y.byteAt (byteOfBlock pb k) = none) (hx : x.byteAt (byteOfBlock pb k) = some b) (line : Option Slot) :
    fetchByte s line pb k = b := by
  have covered : s.tcmI.findSome? (Tcm.byteAt (byteOfBlock pb k)) = some b := by
    rw [hs, List.findSome?_append, List.findSome?_eq_none_iff.2 hl]
    simp [hx]
  simp [fetchByte, covered]

/-- Settles O6: the prefetch buffer (`fetchWord_held`), else what `fetchLine` finds, else memory (`fetchWord_missed`), each byte
by `fetchByte`. -/
theorem fetchSource : Obligations.FetchSource := by
  intro s
  refine ⟨fun l p r => fetchWord_held, fun hp pb ca ht => ⟨fun h => ?_, fun hi hh => ?_⟩,
    fun pb k => ⟨fun h => ?_, ?_⟩⟩
  · have few : s.ctrl.i = false ∨ (holding s .instr (lineOf (fcse s s.pc))).length < 2 :=
      h.imp_right fun e => by simp [e]
    rw [fetchWord_missed hp ht, fetchLine_none h, afterFetch_of_few few]
  · obtain ⟨sl, hsl, found⟩ := fetchLine_some hi hh
    refine ⟨sl, hsl, (afterFetch s s.pc).draws, ?_, fun one => ?_⟩
    · rw [fetchWord_missed hp ht, found]
      exact congrArg (fun t => Except.ok (_, t)) (afterFetch_frame s s.pc)
    · rw [afterFetch_of_few (.inr (by simp [one]))]
  · exact ⟨fetchByte_noTcm h none, fun sl => fetchByte_noTcm h (some sl)⟩
  · exact fun l x r b line hs hl hx => fetchByte_tcm hs hl hx line

end Sys2Proof.Machine

/-! The statements of 10_state on the caches and on what the cache hardware does by itself: filling a slot, evicting and cleaning
one, completing what is under way, draining the write buffer. -/

namespace Sys2Proof.Machine

open Sys2Proof.Config

/-! ## Filling a slot -/

/-- A fill chooses among slots that are there. -/
theorem getSlot_of_mem_fillChoices {s : State} {side : Side} {pb : Block} {r : SlotRef} (h : r ∈ fillChoices s side pb) :
    ∃ old, getSlot s side r = some old := by
  rcases List.mem_append.1 h with inCache | inTcm
  · obtain ⟨i, hi, rfl⟩ := List.mem_map.1 inCache
    exact ⟨_, List.getElem?_eq_getElem (List.mem_range.1 hi)⟩
  · obtain ⟨k, -, hk⟩ := List.mem_flatMap.1 inTcm
    split at hk
    · rename_i t ht
      split at hk
      · rename_i covers
        obtain ⟨n, hn, rfl⟩ := List.mem_map.1 hk
        have slots : getSlot s side (.tcm k n) = t.slots[n]? := by simp [getSlot, ht, covers]
        exact ⟨_, slots.trans (List.getElem?_eq_getElem (List.mem_range.1 hn))⟩
      · cases hk
    · cases hk

/-- Without translation, cacheability or an enabled cache a fill does nothing. -/
theorem fillSlot_of_not_enabled {s : State} {side : Side} {mva : Word}
    (h : cacheEnabled s side = false ∨ ∀ pb, translate s mva (sideAccess side) ≠ .mapped pb true) :
    fillSlot s side mva = s := by
  unfold fillSlot
  split
  · split
    · rfl
    · rfl
    · rename_i enabled _ pb ht
      rcases h with disabled | unmapped
      · simp [disabled] at enabled
      · exact absurd ht (unmapped pb)
  · rfl

/-- A fill that is barred does nothing. -/
theorem fillSlot_of_barred {s : State} {side : Side} {mva : Word} {pb : Block}
    (ht : translate s mva (sideAccess side) = .mapped pb true) (hb : fillBarred s side (lineOf mva) pb = true) :
    fillSlot s side mva = s := by
  simp [fillSlot, ht, hb]

/-- All a fill can do: nothing, but perhaps use up a free value; or evict one of the slots it may choose and load it. -/
theorem fillSlot_cases {s : State} {side : Side} {mva : Word} {pb : Block}
    (ht : translate s mva (sideAccess side) = .mapped pb true) :
    fillSlot s side mva = { s with draws := (fillSlot s side mva).draws }
      ∨ ∃ r ∈ fillChoices s side pb, fillSlot s side mva = loadSlot (evictSlot (afterDraw s) side r) side r mva pb := by
  unfold fillSlot
  rw [ht]
  dsimp only
  split
  · split
    · exact .inl rfl
    · split
      · exact .inl rfl
      · rename_i r chosen
        exact .inr ⟨r, List.mem_of_getElem? chosen, rfl⟩
  · exact .inl rfl

/-- What memory and the write buffer are when a slot is loaded: a data side fill waits for the pending bytes of the block
(20_memory R71 (a)). -/
def beforeLoad (s : State) (side : Side) (pb : Block) : State := if side = .data then settleBlock s pb else s

/-- The clean copy of a line that a fill puts into a slot (10_state R32). -/
def lineCopy (m : Memory) (mva : Word) (pb : Block) : Slot :=
  { valid := true, dirty := false, fading := false, addr := pb, block := lineOf mva, data := m.readLine pb }

theorem loadSlot_eq (s : State) (side : Side) (r : SlotRef) (mva : Word) (pb : Block) :
    loadSlot s side r mva pb = updateSlot (beforeLoad s side pb) side r fun _ => lineCopy (beforeLoad s side pb).mem mva pb := rfl

theorem beforeLoad_frame (s : State) (side : Side) (pb : Block) :
    beforeLoad s side pb = { s with
      mem := (beforeLoad s side pb).mem, writeBuffer := (beforeLoad s side pb).writeBuffer } := by
  unfold beforeLoad; split <;> rfl

theorem beforeLoad_settled {s : State} (side : Side) (pb : Block) (a : Word) (h : s.mem.wf) :
    settledByte (beforeLoad s side pb) a = settledByte s a := by
  unfold beforeLoad; split
  · exact settleBlock_settled pb a h
  · rfl

theorem beforeLoad_read {s : State} {side : Side} {pb : Block} {a : Word} (h : s.mem.wf)
    (ha : side = .instr ∨ lineOf a ≠ pb) : (beforeLoad s side pb).mem.read a = s.mem.read a := by
  unfold beforeLoad; split
  · rename_i hd
    have outside : a.extractLsb' 5 27 ≠ pb := ha.resolve_left (by simp [hd])
    rw [settleBlock_read pb a h, if_neg outside]
  · rfl

/-- A data side fill finds every byte of its block final. -/
theorem beforeLoad_read_data {s : State} {pb : Block} {a : Word} (h : s.mem.wf) (ha : lineOf a = pb) :
    (beforeLoad s .data pb).mem.read a = settledByte s a := by
  exact (settleBlock_read pb a h).trans (if_pos ha)

theorem getElem_readLine (m : Memory) (b : Block) (k : Fin 32) : (m.readLine b)[k] = m.read (byteOfBlock b k) := by
  simp [Memory.readLine]

/-- The change of one slot does not read memory, write buffer or free values. -/
theorem updateSlot_withMem (s : State) (side : Side) (r : SlotRef) (f : Slot → Slot) (m : Memory) (wb : List PendingByte)
    (d : Draws) : updateSlot { s with mem := m, writeBuffer := wb, draws := d } side r f
      = { updateSlot s side r f with mem := m, writeBuffer := wb, draws := d } := by
  cases side <;> cases r <;> rfl

theorem updateSlot_mem (s : State) (side : Side) (r : SlotRef) (f : Slot → Slot) : (updateSlot s side r f).mem = s.mem := by
  rw [updateSlot_frame]

theorem settledByte_updateSlot (s : State) (side : Side) (r : SlotRef) (f : Slot → Slot) (a : Word) :
    settledByte (updateSlot s side r f) a = settledByte s a := by
  rw [updateSlot_frame]; rfl

theorem evictSlot_wf {s : State} (side : Side) (r : SlotRef) (h : s.mem.wf) : (evictSlot s side r).mem.wf :=
  writeOut_wf _ (by rw [updateSlot_mem]; exact h)

/-- Evicting a slot loses no data: what it held dirty is in memory or in the write buffer. -/
theorem evictSlot_wroteBack (s : State) {v : State} (side : Side) (r : SlotRef)
    (hv : v = { s with draws := v.draws, agenda := v.agenda }) (h : s.mem.wf) :
    WroteBack (dirtyOf (getSlot s side r).toList) s (evictSlot v side r) := by
  have same : slotWrites .clean v side r = slotWrites .clean s side r := by rw [hv]; cases side <;> cases r <;> rfl
  rw [evictSlot, same]
  exact wroteBack_slot s side r Slot.invalidated rfl (by rw [hv]) (by rw [hv]) h

/-- An eviction changes the slot named and what stands between it and memory. -/
theorem evictSlot_eq (s : State) (side : Side) (r : SlotRef) :
    evictSlot s side r = { updateSlot s side r Slot.invalidated with
      mem := (evictSlot s side r).mem, writeBuffer := (evictSlot s side r).writeBuffer, draws := (evictSlot s side r).draws } :=
  writeOut_frame _ _

/-- A slot evicted, with the pending bytes of the block to load complete. -/
theorem beforeLoad_evictSlot (s : State) (side : Side) (r : SlotRef) (pb : Block) {v : State}
    (hv : v = beforeLoad (evictSlot (afterDraw s) side r) side pb) :
    v = { updateSlot s side r Slot.invalidated with mem := v.mem, writeBuffer := v.writeBuffer, draws := v.draws } := by
  have drawn : updateSlot (afterDraw s) side r Slot.invalidated
      = { updateSlot s side r Slot.invalidated with draws := s.draws.tail } := by cases side <;> cases r <;> rfl
  rw [hv, beforeLoad_frame, evictSlot_eq, drawn]

/-- A slot changed, then changed again when memory, write buffer and free values are others. -/
theorem updateSlot_again {s v : State} {side : Side} {r : SlotRef} {g : Slot → Slot} (f : Slot → Slot)
    (hv : v = { updateSlot s side r g with mem := v.mem, writeBuffer := v.writeBuffer, draws := v.draws }) :
    updateSlot v side r f = { updateSlot s side r (f ∘ g) with
      mem := v.mem, writeBuffer := v.writeBuffer, draws := v.draws } := by
  conv_lhs => rw [hv, updateSlot_withMem, updateSlot_updateSlot]

/-- A slot evicted and loaded: only that slot, and what stands between the slots and memory, has changed. -/
theorem evict_load_eq (s : State) (side : Side) (r : SlotRef) (mva : Word) (pb : Block) {t : State}
    (ht : t = loadSlot (evictSlot (afterDraw s) side r) side r mva pb) :
    t = { updateSlot s side r fun _ => lineCopy t.mem mva pb with
      mem := t.mem, writeBuffer := t.writeBuffer, draws := t.draws } := by
  rw [loadSlot_eq] at ht
  have hmem : t.mem = (beforeLoad (evictSlot (afterDraw s) side r) side pb).mem := by rw [ht, updateSlot_mem]
  have loaded := updateSlot_again (fun _ => lineCopy t.mem mva pb) (beforeLoad_evictSlot s side r pb rfl)
  rw [← hmem] at ht loaded
  rw [← ht] at loaded
  rw [loaded]
  rfl

/-- What evicting a slot and loading it leaves in memory: the data the slot held dirty, every other byte, and the line loaded. -/
theorem evict_load_memory {s : State} {side : Side} {r : SlotRef} {old : Slot} {mva : Word} {pb : Block} {t : State}
    (hold : getSlot s side r = some old) (ht : t = loadSlot (evictSlot (afterDraw s) side r) side r mva pb) (h : s.mem.wf) :
    (∀ sl ∈ dirtyOf [old], ∀ k : Fin 32, settledByte t (byteOfBlock sl.addr k) = sl.data[k])
      ∧ (∀ a, (∀ sl ∈ dirtyOf [old], lineOf a ≠ sl.addr) →
        settledByte t a = settledByte s a ∧ (side = .instr ∨ lineOf a ≠ pb → t.mem.read a = s.mem.read a))
      ∧ (side = .data → ∀ k : Fin 32, (t.mem.readLine pb)[k] = settledByte t (byteOfBlock pb k)) := by
  have evictedWf := evictSlot_wf (s := afterDraw s) side r h
  obtain ⟨inBuffer, others⟩ := evictSlot_wroteBack s (v := afterDraw s) side r rfl h
  rw [hold] at inBuffer others
  have hmem : t.mem = (beforeLoad (evictSlot (afterDraw s) side r) side pb).mem := by rw [ht, loadSlot_eq, updateSlot_mem]
  have settled : ∀ a, settledByte t a = settledByte (evictSlot (afterDraw s) side r) a := fun a => by
    rw [ht, loadSlot_eq, settledByte_updateSlot, beforeLoad_settled side pb a evictedWf]
  refine ⟨fun sl hsl k => (settled _).trans (inBuffer sl hsl k), fun a outside => ?_, fun hd k => ?_⟩
  · obtain ⟨read, final⟩ := others a outside
    exact ⟨(settled a).trans final, fun ha => by rw [hmem, beforeLoad_read evictedWf ha, read]⟩
  · subst hd
    rw [getElem_readLine, hmem, beforeLoad_read_data evictedWf (lineOf_byteOfBlock pb k.isLt), settled]

/-- Settles O28: a fill does nothing, uses up a free value, or evicts and loads one slot (`fillSlot_cases`). -/
theorem fillOneSlot : Obligations.FillOneSlot := by
  intro s side mva
  refine ⟨fillSlot_of_not_enabled, fun pb t translated ht =>
    ⟨fun barred => ht.trans (fillSlot_of_barred translated barred), ?_⟩⟩
  rcases fillSlot_cases translated with nothing | ⟨r, chosen, loads⟩
  · exact .inl (by rw [ht]; exact nothing)
  · obtain ⟨old, hold⟩ := getSlot_of_mem_fillChoices chosen
    have loaded := ht.trans loads
    have changed := evict_load_eq s side r mva pb loaded
    refine .inr ⟨r, old, hold, changed, fun q hq => ?_, evict_load_memory hold loaded⟩
    have same : getSlot t side q = getSlot (updateSlot s side r fun _ => lineCopy t.mem mva pb) side q := by
      conv_lhs => rw [changed]
      cases side <;> cases q <;> rfl
    rw [same, getSlot_updateSlot, if_neg hq]

/-! ## What the cache hardware does by itself -/

/-- The step of an agent that is neither the core nor software: its move, whether or not the core is in standby. -/
theorem step_move {s t : State} {a : Action} {rest : List Action} (ha : s.agenda = a :: rest) (hcore : a ≠ .core)
    (hsw : a.bySoftware = false) (h : step s = .next t) : t = move a { s with agenda := rest } := by
  rw [step_act ha hcore] at h
  cases h
  simp [act, hsw]

/-- C is cleared once the invalidation of every slot is complete, and not before (10_state R22 (b)). -/
theorem settleCdsr_completes {s : State} (hc : s.cdsrClearing = true) (settled : ∀ sl ∈ s.dc, sl.fading = false) :
    settleCdsr s = { s with cdsrC := false, cdsrClearing := false } :=
  if_pos (by simpa [hc] using settled)

theorem settleCdsr_waits {s : State} (h : s.cdsrClearing = false ∨ ∃ sl ∈ s.dc, sl.fading = true) : settleCdsr s = s :=
  if_neg (by
    rcases h with hc | ⟨sl, hsl, fading⟩
    · simp [hc]
    · simp only [Bool.and_eq_true, List.all_eq_true, not_and]
      exact fun _ settled => by simpa [fading] using settled sl hsl)

/-- All that completing an invalidate of the data cache can do. -/
theorem settleCdsr_cases (s : State) :
    s.cdsrClearing = true ∧ (∀ sl ∈ s.dc, sl.fading = false) ∧ settleCdsr s = { s with cdsrC := false, cdsrClearing := false }
      ∨ settleCdsr s = s := by
  by_cases complete : s.cdsrClearing = true ∧ ∀ sl ∈ s.dc, sl.fading = false
  · obtain ⟨clearing, settled⟩ := complete
    exact .inl ⟨clearing, settled, settleCdsr_completes clearing settled⟩
  · refine .inr (settleCdsr_waits ?_)
    cases hc : s.cdsrClearing with
    | false => exact .inl rfl
    | true => exact .inr (by simpa [hc] using complete)

theorem drainByte_none {s : State} {k : Nat} (h : s.writeBuffer[k]? = none) : drainByte s k = s := by simp [drainByte, h]

/-- A byte waits in the write buffer for an older one to its address (20_memory R71 (d)). -/
theorem drainByte_waits {s : State} {k : Nat} {p : PendingByte} (hp : s.writeBuffer[k]? = some p)
    (older : ∃ q ∈ s.writeBuffer.take k, q.addr = p.addr) : drainByte s k = s := by
  rcases drainByte_cases s k with ⟨-, e⟩ | ⟨p', hp', ⟨-, e⟩ | ⟨first, -⟩⟩
  · exact e
  · exact e
  · cases hp.symm.trans hp'
    obtain ⟨q, hq, same⟩ := older
    exact absurd same (first q hq)

theorem drainByte_writes {s : State} {k : Nat} {p : PendingByte} (hp : s.writeBuffer[k]? = some p)
    (first : ∀ q ∈ s.writeBuffer.take k, q.addr ≠ p.addr) :
    drainByte s k = { s with mem := s.mem.write p.addr p.byte, writeBuffer := s.writeBuffer.eraseIdx k } := by
  rcases drainByte_cases s k with ⟨none, -⟩ | ⟨p', hp', ⟨⟨q, hq, same⟩, -⟩ | ⟨-, e⟩⟩
  · cases hp.symm.trans none
  · cases hp.symm.trans hp'
    exact absurd same (first q hq)
  · cases hp.symm.trans hp'
    exact e

theorem updateSlot_withAgenda (s : State) (l : List Action) (side : Side) (r : SlotRef) (f : Slot → Slot) :
    updateSlot { s with agenda := l } side r f = { updateSlot s side r f with agenda := l } := by
  cases side <;> cases r <;> rfl

/-- Settles O60: each move by the lemma on it: `evictSlot_wroteBack` and `wroteBack_slot`, `settleCdsr_completes` and
`settleCdsr_waits`, `drainByte_settled` and what draining does in its three cases. -/
theorem cacheHardwareMoves : Obligations.CacheHardwareMoves := by
  intro s t side r rest hm h
  refine ⟨fun ha => ?_, fun ha => ?_, fun ha => ?_, fun ha => ?_, fun k ha => ?_⟩ <;>
    have moved := step_move ha (by simp) rfl h <;> dsimp only [move] at moved
  · refine ⟨moved ▸ evictSlot_wroteBack s side r rfl hm, ?_⟩
    rw [moved]
    conv_lhs => rw [evictSlot_eq, updateSlot_withAgenda]
  · have same : slotWrites .clean { s with agenda := rest } .data r = slotWrites .clean s .data r := by cases r <;> rfl
    rw [same] at moved
    refine ⟨moved ▸ wroteBack_slot s .data r Slot.cleaned rfl rfl rfl hm, ?_⟩
    rw [updateSlot_withAgenda] at moved
    rw [moved]
    exact writeOut_frame ..
  · rw [moved]
    exact updateSlot_withAgenda ..
  · rw [moved]
    exact ⟨settleCdsr_completes (s := { s with agenda := rest }), settleCdsr_waits (s := { s with agenda := rest })⟩
  · rw [moved]
    refine ⟨fun a => drainByte_settled (s := { s with agenda := rest }) k a hm,
      drainByte_none (s := { s with agenda := rest }),
      fun p hp => ⟨drainByte_waits (s := { s with agenda := rest }) hp, fun first => ?_⟩⟩
    rw [drainByte_writes (s := { s with agenda := rest }) hp first]
    exact ⟨Memory.read_write_self _ _ hm, fun a ha => Memory.read_write_ne _ _ ha, rfl⟩

end Sys2Proof.Machine

/-! The invariant of 10_state: every change of the state that a step is made of keeps it, one lemma per change; so does every
step. -/

namespace Sys2Proof.Machine

open Sys2Proof.Config

/-! ## Changes that make no slot dirty -/

/-- A change of a slot that makes none dirty, and under which the invalidation of a slot left dirty stays under way: what the
invariant allows of a change of data cache slots (10_state R22; log entry 41). -/
def NoDirtier (f : Slot → Slot) : Prop :=
  ∀ sl, (f sl).isDirty = true → sl.isDirty = true ∧ (sl.fading = true → (f sl).fading = true)

theorem noDirtier_of_clean {f : Slot → Slot} (h : ∀ sl, (f sl).isDirty = false) : NoDirtier f :=
  fun sl dirty => by rw [h sl] at dirty; cases dirty

/-- Under such a change a slot that is not dirty stays so. -/
theorem NoDirtier.isDirty_eq_false {f : Slot → Slot} (hf : NoDirtier f) {sl : Slot} (clean : sl.isDirty = false) :
    (f sl).isDirty = false :=
  Bool.eq_false_iff.2 fun dirty => Bool.eq_false_iff.1 clean (hf sl dirty).1

theorem noDirtier_effect (op : LineOp) (late : Bool) : NoDirtier (op.effect late) :=
  fun _ dirty => ⟨(LineOp.effect_dirty dirty).1, fun _ => (LineOp.effect_dirty dirty).2⟩

theorem noDirtier_slot (op : LineOp) : NoDirtier op.slot := noDirtier_of_clean op.slot_isDirty

theorem noDirtier_settled : NoDirtier Slot.settled := fun sl dirty => by
  cases hf : sl.fading with
  | true => rw [Slot.settled_of_fading hf] at dirty; cases dirty
  | false => rw [Slot.settled_of_not_fading hf] at dirty; exact ⟨dirty, fun h => by cases h⟩

theorem noDirtier_ite {p : Slot → Bool} {f : Slot → Slot} (hf : NoDirtier f) :
    NoDirtier fun sl => if p sl then f sl else sl :=
  fun sl dirty => by
    dsimp only at dirty ⊢
    split at dirty
    · rw [if_pos ‹_›]; exact hf sl dirty
    · rw [if_neg ‹_›]; exact ⟨dirty, id⟩

theorem noDirtier_treatedBy (op : LineOp) (s : State) (bs : List Block) : NoDirtier (treatedBy op s bs) :=
  noDirtier_ite (noDirtier_slot op)

theorem noDirtier_beforeStore (b pb : Block) (ca : Bool) : NoDirtier (Slot.beforeStore b pb ca) :=
  noDirtier_ite (noDirtier_ite (noDirtier_of_clean Slot.invalidated_isDirty))

/-- As many slots as before, and every dirty one was dirty before, its invalidation still under way if it was. -/
def DirtyFrom (old new : List Slot) : Prop :=
  new.length = old.length
    ∧ ∀ sl ∈ new, sl.isDirty = true → ∃ x ∈ old, x.isDirty = true ∧ (x.fading = true → sl.fading = true)

/-- Slots each as before or changed by a `NoDirtier` are `DirtyFrom` those before. -/
theorem dirtyFrom_of_getElem? {f : Slot → Slot} (hf : NoDirtier f) {old new : List Slot} {p : Nat → Prop} [DecidablePred p]
    (hlen : new.length = old.length) (h : ∀ n, new[n]? = if p n then (old[n]?).map f else old[n]?) : DirtyFrom old new := by
  refine ⟨hlen, fun sl hsl dirty => ?_⟩
  obtain ⟨n, hn⟩ := List.mem_iff_getElem?.1 hsl
  rw [h n] at hn
  split at hn
  · obtain ⟨x, hx, rfl⟩ := Option.map_eq_some_iff.1 hn
    exact ⟨x, List.mem_of_getElem? hx, hf x dirty⟩
  · exact ⟨sl, List.mem_of_getElem? hn, dirty, id⟩

theorem dirtyFrom_map {f : Slot → Slot} (hf : NoDirtier f) (l : List Slot) : DirtyFrom l (l.map f) :=
  dirtyFrom_of_getElem? hf (p := fun _ => True) (by simp) (by simp)

theorem dirtyFrom_modify {f : Slot → Slot} (hf : NoDirtier f) (l : List Slot) (i : Nat) : DirtyFrom l (l.modify i f) :=
  dirtyFrom_of_getElem? hf (by simp) fun n => getElem?_modify_eq l i n f

theorem dirtyFrom_mapAt {f : Slot → Slot} (hf : NoDirtier f) (order : List Nat) (l : List Slot) :
    DirtyFrom l (mapAt f order l) :=
  dirtyFrom_of_getElem? hf (length_mapAt ..) (getElem?_mapAt f order l)

/-! ## The invariant, part of the state by part of the state -/

theorem Inv.memoryWf {s : State} (h : Inv s) : s.mem.wf := h.1

theorem Inv.icacheClean {s : State} (h : Inv s) : IcacheClean s := by obtain ⟨-, -, clean, -⟩ := h; exact clean

theorem Inv.transferOrdered {s : State} (h : Inv s) : TransferOrdered s := by
  obtain ⟨-, -, -, -, ordered, -⟩ := h; exact ordered

theorem Inv.clearingSound {s : State} (h : Inv s) : ClearingSound s := by
  obtain ⟨-, -, -, -, -, -, clearing⟩ := h; exact clearing

theorem inv_withMem {s : State} (h : Inv s) {m : Memory} (hm : m.wf) : Inv { s with mem := m } := ⟨hm, h.2⟩

theorem inv_withDc {s : State} (h : Inv s) {c : List Slot} (hc : DirtyFrom s.dc c) : Inv { s with dc := c } := by
  obtain ⟨hmem, hcdsr, hic, ⟨hdc, hgeo⟩, hbt, hmodes, hclearing⟩ := h
  obtain ⟨hlen, hdirty⟩ := hc
  refine ⟨hmem, fun hC sl hsl => ?_, hic, ⟨hlen.trans hdc, hgeo⟩, hbt, hmodes, fun hcl sl hsl dirty => ?_⟩
  · by_contra dirty
    obtain ⟨x, hx, hxd, -⟩ := hdirty sl hsl (by simpa using dirty)
    simp [hcdsr hC x hx] at hxd
  · obtain ⟨x, hx, hxd, hfade⟩ := hdirty sl hsl dirty
    exact hfade (hclearing hcl x hx hxd)

theorem inv_withTcmD {s : State} (h : Inv s) (ts : List Tcm) : Inv { s with tcmD := ts } := h

theorem inv_withInstrSide {s : State} (h : Inv s) {c : List Slot} {ts : List Tcm} (hlen : c.length = s.ic.length)
    (hclean : ∀ sl ∈ c ++ smartSlots ts, sl.isDirty = false) : Inv { s with ic := c, tcmI := ts } := by
  obtain ⟨hmem, hcdsr, -, ⟨hdc, hic, hrep⟩, hrest⟩ := h
  exact ⟨hmem, hcdsr, hclean, ⟨hdc, hlen.trans hic, hrep⟩, hrest⟩

/-- C and its delayed clearing may move to where they promise less. -/
theorem inv_withCdsr {s : State} (h : Inv s) {c clearing : Bool} (hc : c = false → s.cdsrC = false)
    (hclear : clearing = true → s.cdsrClearing = true) : Inv { s with cdsrC := c, cdsrClearing := clearing } := by
  obtain ⟨hmem, hcdsr, hic, hgeo, hbt, hmodes, hclearing⟩ := h
  exact ⟨hmem, fun hC => hcdsr (hc hC), hic, hgeo, hbt, hmodes, fun hcl => hclearing (hclear hcl)⟩

/-- With no dirty slot C may be anything, and so may the delayed clearing. -/
theorem inv_withCdsr_of_clean {s : State} (h : Inv s) (clean : ∀ sl ∈ s.dc, sl.isDirty = false) (c clearing : Bool) :
    Inv { s with cdsrC := c, cdsrClearing := clearing } := by
  obtain ⟨hmem, -, hic, hgeo, hbt, hmodes, -⟩ := h
  exact ⟨hmem, fun _ => clean, hic, hgeo, hbt, hmodes, fun _ sl hsl dirty => by simp [clean sl hsl] at dirty⟩

theorem inv_withBt {s : State} (h : Inv s) {bt : Option Transfer} (hbt : ∀ x, bt = some x → x.cur.toNat ≤ x.last.toNat) :
    Inv { s with bt := bt } := by
  obtain ⟨hmem, hcdsr, hic, hgeo, -, hrest⟩ := h
  exact ⟨hmem, hcdsr, hic, hgeo, hbt, hrest⟩

theorem inv_abandon {s : State} (h : Inv s) : Inv (abandon s) := inv_withBt h fun _ e => by cases e

/-! ## The mode fields -/

/-- A status word holds one of the seven modes (60_exceptions R275). -/
def LegalMode (p : Word) : Prop := (Mode.ofBits (psrMode p)).isSome = true

theorem modesLegal_iff {s : State} : ModesLegal s ↔ LegalMode s.cpsr ∧ LegalMode s.spsr.fiq ∧ LegalMode s.spsr.irq
    ∧ LegalMode s.spsr.svc ∧ LegalMode s.spsr.abt ∧ LegalMode s.spsr.und := by
  simp [ModesLegal, LegalMode]

/-- Bits [4:0] of an entry status are those of the mode entered (60_exceptions R270). -/
theorem psrMode_entryPsr (p : Word) (m : Mode) (setF setA : Bool) : psrMode (entryPsr p m setF setA) = m.bits := by
  have mode : (m.bits.setWidth 32).extractLsb' 0 5 = m.bits := by cases m <;> rfl
  have setsF : (if setF then 0x40#32 else 0#32).extractLsb' 0 5 = 0#5 := by cases setF <;> rfl
  have setsA : (if setA then 0x100#32 else 0#32).extractLsb' 0 5 = 0#5 := by cases setA <;> rfl
  simp [psrMode, entryPsr, BitVec.extractLsb'_or, BitVec.extractLsb'_and, mode, setsF, setsA]

theorem legalMode_entryPsr (p : Word) (m : Mode) (setF setA : Bool) : LegalMode (entryPsr p m setF setA) := by
  rw [LegalMode, psrMode_entryPsr]
  cases m <;> rfl

theorem modesLegal_takeException {s : State} (h : ModesLegal s) (x : Exc) (link : Word) :
    ModesLegal (takeException x link s) := by
  rw [modesLegal_iff] at h ⊢
  obtain ⟨hcpsr, hfiq, hirq, hsvc, habt, hund⟩ := h
  refine ⟨legalMode_entryPsr .., ?_⟩
  cases x
  case undefinedInstruction => exact ⟨hfiq, hirq, hsvc, habt, hcpsr⟩
  case dataAbort => exact ⟨hfiq, hirq, hsvc, hcpsr, hund⟩
  case impreciseAbort => exact ⟨hfiq, hirq, hsvc, hcpsr, hund⟩
  case irq => exact ⟨hfiq, hcpsr, hsvc, habt, hund⟩
  case fiq => exact ⟨hcpsr, hirq, hsvc, habt, hund⟩

/-- The SPSR of a mode that has one is among the six status words. -/
theorem legalMode_of_spsr {s : State} (h : ModesLegal s) {m : Option Mode} {p : Word} (hp : s.spsr.of m = some p) :
    LegalMode p := by
  obtain ⟨-, hfiq, hirq, hsvc, habt, hund⟩ := modesLegal_iff.1 h
  unfold SavedStatus.of at hp
  split at hp <;> cases hp <;> assumption

theorem inv_takeException {s : State} (h : Inv s) (x : Exc) (link : Word) : Inv (takeException x link s) := by
  obtain ⟨hmem, hcdsr, hic, hgeo, hbt, hmodes, hclearing⟩ := h
  exact ⟨hmem, hcdsr, hic, hgeo, hbt, modesLegal_takeException hmodes x link, hclearing⟩

/-- An exception return keeps the invariant: the status it restores is that of a legal mode. -/
theorem inv_return {s : State} (h : Inv s) {m : Option Mode} {p : Word} (hp : s.spsr.of m = some p) (a : Word) :
    Inv { s with pc := a, cpsr := p } := by
  obtain ⟨hmem, hcdsr, hic, hgeo, hbt, hmodes, hclearing⟩ := h
  refine ⟨hmem, hcdsr, hic, hgeo, hbt, ?_, hclearing⟩
  exact modesLegal_iff.2 ⟨legalMode_of_spsr hmodes hp, (modesLegal_iff.1 hmodes).2⟩

/-! ## The shared operations -/

theorem inv_commit {s : State} (h : Inv s) (ws : List (Word × Byte)) : Inv (commit s ws) := by
  rw [commit_frame]; exact inv_withMem h (commit_wf ws h.memoryWf)

theorem inv_writeOut {s : State} (h : Inv s) (ws : List (Word × Byte)) : Inv (writeOut s ws) := by
  rw [writeOut_frame]; exact inv_withMem h (writeOut_wf ws h.memoryWf)

theorem inv_mapSide {s : State} {f : Slot → Slot} (hf : NoDirtier f) (h : Inv s) (side : Side) : Inv (mapSide f s side) := by
  cases side with
  | data => rw [mapSide_data]; exact inv_withTcmD (inv_withDc h (dirtyFrom_map hf _)) _
  | instr =>
    rw [mapSide_instr]
    refine inv_withInstrSide h (by simp) fun sl hsl => ?_
    rw [smartSlots_map, ← List.map_append] at hsl
    obtain ⟨x, hx, rfl⟩ := List.mem_map.1 hsl
    exact hf.isDirty_eq_false (h.icacheClean x hx)

theorem inv_changeHeld {s : State} {f : Slot → Slot} (hf : NoDirtier f) (h : Inv s) (side : Side) (b : Block) :
    Inv (changeHeld f side b s) := inv_mapSide (noDirtier_ite hf) h side

theorem inv_updateSlot {s : State} {f : Slot → Slot} (hf : NoDirtier f) (h : Inv s) (side : Side) (r : SlotRef) :
    Inv (updateSlot s side r f) := by
  cases side with
  | data =>
    cases r with
    | cache i => exact inv_withDc h (dirtyFrom_modify hf _ i)
    | tcm k n => exact inv_withTcmD h _
  | instr =>
    have hlen := (length_updateSlot s .instr r f).2
    have hclean : ∀ sl ∈ sideSlots (updateSlot s .instr r f) .instr, sl.isDirty = false := fun sl hsl => by
      rcases mem_sideSlots_updateSlot hsl with old | ⟨x, hx, rfl⟩
      · exact h.icacheClean sl old
      · exact hf.isDirty_eq_false (h.icacheClean x hx)
    cases r <;> exact inv_withInstrSide h hlen hclean

theorem inv_evictSlot {s : State} (h : Inv s) (side : Side) (r : SlotRef) : Inv (evictSlot s side r) :=
  inv_writeOut (inv_updateSlot (noDirtier_of_clean Slot.invalidated_isDirty) h side r) _

theorem inv_settleBlock {s : State} (h : Inv s) (b : Block) : Inv (settleBlock s b) := inv_withMem h (settleBlock_wf b h.memoryWf)

theorem inv_loadSlot {s : State} (h : Inv s) (side : Side) (r : SlotRef) (mva : Word) (pb : Block) :
    Inv (loadSlot s side r mva pb) := by
  refine inv_updateSlot (noDirtier_of_clean fun _ => rfl) ?_ side r
  split
  · exact inv_settleBlock h pb
  · exact h

theorem inv_fillSlot {s : State} (h : Inv s) (side : Side) (mva : Word) : Inv (fillSlot s side mva) := by
  by_cases translated : ∃ pb, translate s mva (sideAccess side) = .mapped pb true
  · obtain ⟨pb, translated⟩ := translated
    rcases fillSlot_cases translated with nothing | ⟨r, -, loads⟩
    · rw [nothing]; exact h
    · rw [loads]; exact inv_loadSlot (inv_evictSlot (s := afterDraw s) h side r) side r mva pb
  · rw [fillSlot_of_not_enabled (.inr (not_exists.1 translated))]; exact h

/-- An invalidate under way left dirty only slots that are fading: once none fades, C can be clear. -/
theorem inv_settleCdsr {s : State} (h : Inv s) : Inv (settleCdsr s) := by
  rcases settleCdsr_cases s with ⟨clearing, settled, completes⟩ | waits
  · rw [completes]
    refine inv_withCdsr_of_clean h (fun sl hsl => ?_) false false
    by_contra dirty
    simpa [h.clearingSound clearing sl hsl (by simpa using dirty)] using settled sl hsl
  · rw [waits]; exact h

/-- Everything under way completes: a data cache whose invalidate was under way is left without dirty slots, so C can be clear. -/
theorem inv_settleAll {s : State} (h : Inv s) : Inv (settleAll s) := by
  have slots := inv_mapSide noDirtier_settled (inv_mapSide noDirtier_settled h .instr) .data
  rw [mapSide_data, mapSide_instr] at slots
  cases hcl : s.cdsrClearing with
  | false => exact inv_withCdsr slots (c := s.cdsrC && !s.cdsrClearing) (clearing := false) (by simp [hcl]) (by simp)
  | true =>
    refine inv_withCdsr_of_clean slots (fun sl hsl => ?_) (s.cdsrC && !s.cdsrClearing) false
    obtain ⟨x, hx, rfl⟩ := List.mem_map.1 hsl
    cases dirty : x.isDirty with
    | false => exact Slot.settled_isDirty dirty
    | true => rw [Slot.settled_of_fading (h.clearingSound hcl x hx dirty)]; rfl

theorem inv_walk {s : State} (h : Inv s) {t : State}
    (ht : t = { s with inputs := t.inputs, points := t.points, draws := t.draws }) : Inv t := by rw [ht]; exact h

theorem inv_treatBlocks {s : State} (h : Inv s) (op : LineOp) (side : Side) (bs : List Block) :
    Inv (treatBlocks op side bs s) := by
  obtain ⟨ws, e, -⟩ := treatBlocks_eq op side bs s
  rw [e]; exact inv_commit (inv_mapSide (noDirtier_treatedBy op s bs) h side) ws

theorem inv_treatEntire {s : State} (h : Inv s) (op : LineOp) (order : List Nat) : Inv (treatEntire op order s) := by
  obtain ⟨ws, e, -⟩ := treatEntire_eq op order s
  rw [e]; exact inv_commit (inv_withDc h (dirtyFrom_mapAt (noDirtier_slot op) order _)) ws

/-- An entire clean whose order covers the data cache leaves no dirty slot. -/
theorem treatEntire_clean {op : LineOp} {order : List Nat} {s : State} (h : ∀ n < s.dc.length, n ∈ order) :
    ∀ sl ∈ (treatEntire op order s).dc, sl.isDirty = false := by
  obtain ⟨ws, e, -⟩ := treatEntire_eq op order s
  rw [e, commit_frame]
  intro sl hsl
  rw [mapAt_of_forall h] at hsl
  obtain ⟨x, -, rfl⟩ := List.mem_map.1 hsl
  exact op.slot_isDirty x

theorem inv_cleanEntire {op : LineOp} {s t : State} (h : Inv s) (ht : cleanEntire op s = .next t) : Inv t := by
  have walked : Inv (walkPoints s.dc s).after := inv_walk h (walkPoints_frame s.dc s)
  have treated := inv_treatEntire (s := afterOrder (walkPoints s.dc s).after) walked op
    ((visitOrder (walkPoints s.dc s).after).take (walkPoints s.dc s).treated)
  rcases cleanEntire_next ht with ⟨passed, rfl⟩ | ⟨e, x, -, -, rfl⟩
  · have hdc : (walkPoints s.dc s).after.dc = s.dc := by rw [walkPoints_frame]
    have covered : ∀ n < (afterOrder (walkPoints s.dc s).after).dc.length,
        n ∈ (visitOrder (walkPoints s.dc s).after).take (walkPoints s.dc s).treated := fun n hn => by
      rw [walkPoints_treated passed, List.take_of_length_le (by rw [length_visitOrder, hdc])]
      exact mem_visitOrder _ hn
    exact inv_withCdsr_of_clean treated (treatEntire_clean covered) false _
  · exact inv_takeException treated x _

theorem inv_blockingRun {op : LineOp} {side : Side} {acc : Access} {bs : List Block} {s t : State} (h : Inv s)
    (ht : blockingRun op side acc bs s = .next t) : Inv t := by
  have treated := inv_treatBlocks (inv_walk h (walkRange_frame acc bs s)) op side (bs.take (walkRange acc bs s).treated)
  rcases blockingRun_next ht with rfl | ⟨e, x, -, -, rfl⟩ | ⟨f, -, rfl⟩
  · exact treated
  · exact inv_takeException treated x _
  · exact inv_takeException (s := { treatBlocks op side _ _ with far := farOf f, dfsr := dfsrOf f }) treated .dataAbort _

theorem inv_afterCompare {s : State} (h : Inv s) (start stop : Word) : Inv (afterCompare s start stop) := by
  rw [afterCompare_frame]; exact h

theorem inv_noRange {s : State} (h : Inv s) : Inv (noRange s) := by
  obtain ⟨e, bt⟩ := noRange_frame s
  rw [e]
  rcases bt with ⟨kept, -⟩ | ⟨gone, -⟩
  · exact inv_withBt h (by rw [kept]; exact h.transferOrdered)
  · exact inv_withBt h fun _ e => by simp [gone] at e

/-- A Prefetch Range starts a transfer that is not past its end (43_range R190). -/
theorem inv_startTransfer {s : State} (h : Inv s) (side : Side) {cur last : Block} (le : cur.toNat ≤ last.toNat) :
    Inv (advance { abandon s with bt := some { side := side, cur := cur, last := last } }) :=
  inv_withBt (s := abandon s) (inv_abandon h) fun x hx => by cases hx; exact le

/-! ## Instructions -/

theorem inv_turnedAway {s t : State} (h : Inv s) (ht : TurnedAway s t) : Inv t := by
  rcases ht with rfl | rfl
  · exact h
  · exact inv_takeException h .undefinedInstruction _

/-- An invalidate of the whole data cache, complete with C clear, or under way for every slot with C clearing. -/
theorem inv_invalidateDc {s : State} (h : Inv s) (late : Bool) :
    Inv { s with dc := s.dc.map (LineOp.effect late .invalidate), cdsrC := s.cdsrC && late, cdsrClearing := late } := by
  have slots := inv_withDc h (dirtyFrom_map (noDirtier_effect .invalidate late) s.dc)
  cases late with
  | false =>
    refine inv_withCdsr_of_clean slots (fun sl hsl => ?_) _ _
    obtain ⟨x, -, rfl⟩ := List.mem_map.1 hsl
    exact LineOp.effect_isDirty (.inr rfl) x
  | true =>
    obtain ⟨hmem, hcdsr, hic, hgeo, hbt, hmodes, -⟩ := slots
    refine ⟨hmem, fun hC => hcdsr (by simpa using hC), hic, hgeo, hbt, hmodes, fun _ sl hsl _ => ?_⟩
    obtain ⟨x, -, rfl⟩ := List.mem_map.1 hsl
    rfl

theorem inv_invalidateIc {s : State} (h : Inv s) (late : Bool) :
    Inv { s with ic := s.ic.map (LineOp.effect late .invalidate) } := by
  refine inv_withInstrSide h (by simp) fun sl hsl => ?_
  rcases List.mem_append.1 hsl with inCache | inTcm
  · obtain ⟨x, hx, rfl⟩ := List.mem_map.1 inCache
    exact (noDirtier_effect _ late).isDirty_eq_false (h.icacheClean x (List.mem_append_left _ hx))
  · exact h.icacheClean sl (List.mem_append_right _ inTcm)

/-- Every instruction keeps the invariant, one line per meaning. -/
theorem inv_exec {i : Instr} {s t : State} (h : Inv s) (ht : exec i s = .next t) : Inv t := by
  rcases exec_next ht with away | ⟨-, own⟩
  · exact inv_turnedAway h away
  · cases i <;> dsimp only [OwnEffect] at own
    case invIcacheMva | invDcacheMva | cleanDcacheMva | cleaninvDcacheMva =>
      obtain ⟨op, side, -, rfl⟩ := own
      exact inv_writeOut (inv_changeHeld (noDirtier_effect op _) (s := afterDraw s) h side _) _
    case invIcacheSw | invDcacheSw | cleanDcacheSw | cleaninvDcacheSw =>
      obtain ⟨op, side, r, -, -, rfl⟩ := own
      exact inv_writeOut (inv_updateSlot (noDirtier_effect op _) (s := afterDraw s) h side r) _
    case invIcacheAll => subst own; exact inv_invalidateIc (s := afterDraw s) h _
    case invDcacheAll => subst own; exact inv_invalidateDc (s := afterDraw s) h _
    case invBothAll =>
      subst own
      have instr := inv_invalidateIc (s := afterDraw (afterDraw s)) h (delayed s)
      exact inv_invalidateDc (s := { afterDraw (afterDraw s) with ic := _ }) instr _
    case cleanDcacheAll | cleaninvDcacheAll => exact inv_cleanEntire h own
    case dsb => subst own; exact inv_withMem (inv_settleAll h) (Memory.wf_writePending _ h.memoryWf)
    case dmb => subst own; exact inv_withMem h (completeExplicit_wf h.memoryWf)
    case stopPrefetchRange => subst own; exact inv_abandon (s := s) h
    case prefetchIcacheMva =>
      subst own; split
      · exact inv_fillSlot h _ _
      · exact h
    case invIcacheRange | invDcacheRange | cleanDcacheRange | cleaninvDcacheRange =>
      rcases own with rfl | ⟨op, side, acc, -, run⟩
      · exact inv_noRange (inv_afterCompare h _ _)
      · exact inv_blockingRun (inv_abandon (inv_afterCompare h _ _)) run
    case prefetchIcacheRange | prefetchDcacheRange =>
      rcases own with rfl | ⟨ordered, side, rfl⟩
      · exact inv_noRange (inv_afterCompare h _ _)
      · exact inv_startTransfer (inv_afterCompare h _ _) side ordered
    all_goals subst own; exact h

/-! ## The other agents -/

theorem inv_engineStep {s : State} (h : Inv s) (memFault : Bool) : Inv (engineStep memFault s) := by
  have drawn : Inv (afterEnginePid s) := by rw [afterEnginePid_frame]; exact h
  unfold engineStep
  split
  · exact h
  · rename_i x running
    dsimp only
    split
    · exact inv_abandon drawn
    · have filled := inv_fillSlot drawn x.side (fcseWith s.cfg (enginePid s) (blockBase x.cur))
      split
      · exact inv_abandon filled
      · rename_i notLast
        refine inv_withBt filled fun y hy => ?_
        cases hy
        have le := h.transferOrdered x running
        have ne : x.cur.toNat ≠ x.last.toNat := fun e => notLast (BitVec.eq_of_toNat_eq e)
        show (x.cur + 1).toNat ≤ x.last.toNat
        bv_omega

theorem inv_makeRoom {s : State} (h : Inv s) (b pb : Block) (ca : Bool) : Inv (makeRoom b pb ca s) :=
  inv_writeOut (inv_mapSide (noDirtier_beforeStore b pb ca) h .data) _

/-- A byte stored in the TCMs that cover it is in no slot. -/
theorem inv_putTcms {s : State} (h : Inv s) (a : Word) (b : Byte) :
    Inv { s with tcmD := s.tcmD.map (Tcm.put a b), tcmI := s.tcmI.map (Tcm.put a b) } := by
  obtain ⟨hmem, hcdsr, clean, hrest⟩ := h
  refine ⟨hmem, hcdsr, fun sl hsl => clean sl ?_, hrest⟩
  rwa [sideSlots, tcmsOf_instr, smartSlots_put] at hsl

/-- Once C is set and no invalidate of the data cache is under way, its slots may be dirty. -/
theorem inv_hitCache {s : State} (h : Inv s) {c : List Slot} (hlen : c.length = s.dc.length) (ts : List Tcm) :
    Inv { s with dc := c, tcmD := ts, cdsrC := true, cdsrClearing := false } := by
  obtain ⟨hmem, -, hic, ⟨hdc, hgeo⟩, hbt, hmodes, -⟩ := h
  exact ⟨hmem, fun hC => (nomatch hC), hic, ⟨hlen.trans hdc, hgeo⟩, hbt, hmodes, fun hcl => (nomatch hcl)⟩

/-- What a store leaves of a data side slot: the byte in it, if it takes the store (log entry 30). -/
def storedIn (b pb : Block) (ca : Bool) (off : Nat) (v : Byte) (sl : Slot) : Slot :=
  if sl.takes b pb ca then sl.put off v else sl

theorem storedIn_of_not_takes {b pb : Block} {ca : Bool} {sl : Slot} (h : ¬ sl.takes b pb ca = true) (off : Nat) (v : Byte) :
    storedIn b pb ca off v sl = sl := if_neg h

/-- What storing a byte can do (log entries 30, 52): nothing, as it does not translate; the TCMs that cover it take it; or, once
there is room, slots of the data cache proper take it and C is set; or slots of a SmartCache TCM alone, and C is set or not; or it
goes to the write buffer. -/
inductive StoreAnswer (s t : State) (w : Word × Byte) : Prop where
  | untranslated (ht : t = s)
  | inTcms (a : Word) (ht : t = { s with tcmD := s.tcmD.map (Tcm.put a w.2), tcmI := s.tcmI.map (Tcm.put a w.2) })
  | hitsCache (pb : Block) (ca : Bool) (off : Nat)
      (ht : t = { mapSide (storedIn (lineOf w.1) pb ca off w.2) (makeRoom (lineOf w.1) pb ca s) .data with
        cdsrC := true, cdsrClearing := false })
  | hitsTcm (pb : Block) (ca : Bool) (off : Nat) (sets : Bool)
      (missed : ∀ sl ∈ (makeRoom (lineOf w.1) pb ca s).dc, ¬ sl.takes (lineOf w.1) pb ca = true)
      (ht : t = { afterDraw (mapSide (storedIn (lineOf w.1) pb ca off w.2) (makeRoom (lineOf w.1) pb ca s) .data) with
        cdsrC := s.cdsrC || sets, cdsrClearing := s.cdsrClearing && !sets })
  | misses (pb : Block) (ca : Bool) (ws : List (Word × Byte)) (ht : t = post (makeRoom (lineOf w.1) pb ca s) true ws)

theorem storeByte_answer (s : State) (w : Word × Byte) : StoreAnswer s (storeByte s w) w := by
  unfold storeByte
  split
  · exact .untranslated rfl
  · rename_i pb ca _
    dsimp only
    split
    · exact .inTcms _ rfl
    · split
      · exact .hitsCache pb ca _ rfl
      · rename_i missed
        split
        · exact .hitsTcm pb ca _ _ (fun sl hsl ht => missed (List.any_eq_true.2 ⟨sl, hsl, ht⟩)) rfl
        · exact .misses pb ca _ rfl

/-- A stored byte makes dirty no slot of the data cache proper but where it sets C. -/
theorem inv_storeByte {s : State} (h : Inv s) (w : Word × Byte) : Inv (storeByte s w) := by
  have room := inv_makeRoom h (lineOf w.1)
  cases storeByte_answer s w with
  | untranslated ht => rw [ht]; exact h
  | inTcms a ht => rw [ht]; exact inv_putTcms h a w.2
  | hitsCache pb ca off ht => rw [ht]; exact inv_hitCache (room pb ca) (List.length_map _) _
  | hitsTcm pb ca off sets missed ht =>
    have hC : (makeRoom (lineOf w.1) pb ca s).cdsrC = s.cdsrC := by rw [makeRoom_frame]
    have hclearing : (makeRoom (lineOf w.1) pb ca s).cdsrClearing = s.cdsrClearing := by rw [makeRoom_frame]
    rw [ht, mapSide_data, List.map_congr_left fun sl hsl => storedIn_of_not_takes (missed sl hsl) off w.2, List.map_id']
    exact inv_withCdsr (inv_withTcmD (room pb ca) _) (fun e => hC.trans (Bool.or_eq_false_iff.1 e).1) fun e =>
      hclearing.trans (Bool.and_eq_true_iff.1 e).1
  | misses pb ca ws ht => rw [ht]; exact room pb ca

theorem inv_storeBytes {s : State} (h : Inv s) (ws : List (Word × Byte)) : Inv (ws.foldl storeByte s) := by
  induction ws generalizing s with
  | nil => exact h
  | cons w ws ih => exact ih (inv_storeByte h w)

theorem inv_prefetchAhead {s : State} (h : Inv s) (va : Word) : Inv (prefetchAhead s va) := by
  rw [prefetchAhead_frame]; exact h

theorem inv_drainByte {s : State} (h : Inv s) (k : Nat) : Inv (drainByte s k) := by
  rw [drainByte_frame]; exact inv_withMem h (drainByte_wf k h.memoryWf)

theorem inv_move {s : State} (h : Inv s) (a : Action) : Inv (move a s) := by
  cases a with
  | engine memFault => exact inv_engineStep h memFault
  | fill side mva => exact inv_fillSlot h side mva
  | evict side r => exact inv_evictSlot h side r
  | clean r => exact inv_writeOut (inv_updateSlot (noDirtier_of_clean Slot.cleaned_isDirty) h .data r) _
  | settle side r => exact inv_updateSlot noDirtier_settled h side r
  | settleCdsr => exact inv_settleCdsr h
  | drain k => exact inv_drainByte h k
  | prefetchWord va => exact inv_prefetchAhead h va
  | store mva bytes => exact inv_storeBytes h _
  | core | dropPrefetched | predict | dropBranch | setInputs | setFcsePid | setMapping | setControl | setDebugState => exact h

theorem inv_act {s : State} (h : Inv s) (a : Action) : Inv (act a s) := by
  rcases act_eq a s with ⟨-, -, e⟩ | ⟨-, e⟩ <;> rw [e]
  · exact h
  · exact inv_move h a

/-! ## The step -/

theorem inv_fetchWord {s s1 : State} {w : Word} (h : Inv s) (hf : fetchWord s = .ok (w, s1)) : Inv s1 := by
  rw [fetchWord_frame hf]; exact h

theorem inv_coreAnswer {s t : State} (h : Inv s) (ht : CoreAnswer s t) : Inv t := by
  cases ht with
  | waits _ _ ht => rw [ht]; exact h
  | wakes _ _ ht => rw [ht]; exact h
  | event _ x link far dfsr draws ht =>
    rw [ht]; exact inv_takeException (s := { s with far := far, dfsr := dfsr, draws := draws }) h x link
  | runs _ w s1 i hf _ ht => exact inv_exec (inv_fetchWord h hf) ht
  | returns _ w k p s1 hf _ hp ht => rw [ht]; exact inv_return (inv_fetchWord h hf) hp _

/-- Settles O58: a step is an agent's move (`inv_act`) or the core's answer (`inv_coreAnswer`, instructions by `inv_exec`),
and the agenda is no part of the invariant. -/
theorem stepKeepsInvariant : Obligations.StepKeepsInvariant := by
  intro s t h ht
  rcases step_next ht with ⟨a, rest, -, -, rfl⟩ | ⟨rest, -, answer⟩
  · exact inv_act (s := { s with agenda := rest }) h a
  · exact inv_coreAnswer (s := { s with agenda := rest }) h answer

end Sys2Proof.Machine

/-! The statements of 10_state on standby and on the Cache Dirty Status Register: which steps change them. -/

namespace Sys2Proof.Machine

open Sys2Proof.Config

/-! ## Standby and C under an instruction -/

/-- Standby, C and the clearing of C under way are as before. -/
def KeepsStatus (s t : State) : Prop :=
  t.standby = s.standby ∧ t.cdsrC = s.cdsrC ∧ t.cdsrClearing = s.cdsrClearing

/-- What an instruction does to standby and to C: nothing, unless it is Wait For Interrupt (47_wait_for_interrupt R240), an
invalidate of the whole data cache, complete or under way, an entire clean that completes, or a barrier that completes what is
under way (10_state R22 (b), (d); 20_memory R73). -/
inductive StatusAnswer (i : Instr) (s t : State) : Prop where
  | keeps (h : KeepsStatus s t)
  | sleeps (c : Cond) (rd : RegNo) (hi : i = .wfi c rd) (ht : t = { s with standby := true })
  | invalidates (c : Cond) (rd : RegNo) (hi : i ∈ [Instr.invDcacheAll c rd, .invBothAll c rd]) (hs : t.standby = s.standby)
      (hc : t.cdsrC = (s.cdsrC && t.cdsrClearing))
  | cleans (c : Cond) (rd : RegNo) (hi : i ∈ [Instr.cleanDcacheAll c rd, .cleaninvDcacheAll c rd])
      (hs : t.standby = s.standby) (hc : t.cdsrC = false) (hl : t.cdsrClearing = s.cdsrClearing)
  | settles (c : Cond) (rd : RegNo) (hi : i = .dsb c rd) (hs : t.standby = s.standby)
      (hc : t.cdsrC = (s.cdsrC && !s.cdsrClearing)) (hl : t.cdsrClearing = false)

theorem turnedAway_status {s t : State} (h : TurnedAway s t) : KeepsStatus s t := by
  rcases h with rfl | rfl <;> exact ⟨rfl, rfl, rfl⟩

theorem lineEffect_status (s : State) (f : Slot → Slot) (side : Side) (b : Block) (ws : List (Word × Byte)) :
    KeepsStatus s (advance (writeOut (changeHeld f side b (afterDraw s)) ws)) := by
  rw [writeOut_frame, changeHeld_frame]; exact ⟨rfl, rfl, rfl⟩

theorem slotEffect_status (s : State) (f : Slot → Slot) (side : Side) (r : SlotRef) (ws : List (Word × Byte)) :
    KeepsStatus s (advance (writeOut (updateSlot (afterDraw s) side r f) ws)) := by
  rw [writeOut_frame, updateSlot_frame]; exact ⟨rfl, rfl, rfl⟩

theorem noRange_status (s : State) (start stop : Word) : KeepsStatus s (advance (noRange (afterCompare s start stop))) := by
  rw [(noRange_frame _).1, afterCompare_frame]; exact ⟨rfl, rfl, rfl⟩

theorem blockingRun_status {op : LineOp} {side : Side} {acc : Access} {bs : List Block} {s t : State}
    (h : blockingRun op side acc bs s = .next t) : KeepsStatus s t := by
  rcases blockingRun_next h with rfl | ⟨_, x, -, -, rfl⟩ | ⟨f, -, rfl⟩ <;> rw [treatBlocks_frame, walkRange_frame] <;>
    exact ⟨rfl, rfl, rfl⟩

/-- An entire clean clears C if it completes, and leaves it if it is interrupted (41_entire_cache R145). -/
theorem cleanEntire_status {op : LineOp} {s t : State} (h : cleanEntire op s = .next t) :
    t.standby = s.standby ∧ t.cdsrClearing = s.cdsrClearing ∧ (t.cdsrC = false ∨ t.cdsrC = s.cdsrC) := by
  rcases cleanEntire_next h with ⟨-, rfl⟩ | ⟨_, x, -, -, rfl⟩ <;> rw [treatEntire_frame, afterOrder, walkPoints_frame]
  · exact ⟨rfl, rfl, .inl rfl⟩
  · exact ⟨rfl, rfl, .inr rfl⟩

theorem exec_status {i : Instr} {s t : State} (h : exec i s = .next t) : StatusAnswer i s t := by
  have clean : ∀ {op c rd}, cleanEntire op s = .next t → i ∈ [Instr.cleanDcacheAll c rd, .cleaninvDcacheAll c rd] →
      StatusAnswer i s t := fun hc hi => by
    obtain ⟨hs, hl, cleared | kept⟩ := cleanEntire_status hc
    · exact .cleans _ _ hi hs cleared hl
    · exact .keeps ⟨hs, kept, hl⟩
  rcases exec_next h with away | ⟨-, own⟩
  · exact .keeps (turnedAway_status away)
  · cases i <;> dsimp only [OwnEffect] at own
    case wfi => exact .sleeps _ _ rfl own
    case invDcacheAll c rd => subst own; exact .invalidates c rd (by simp) rfl rfl
    case invBothAll c rd => subst own; exact .invalidates c rd (by simp) rfl rfl
    case cleanDcacheAll c rd => exact clean (c := c) (rd := rd) own (by simp)
    case cleaninvDcacheAll c rd => exact clean (c := c) (rd := rd) own (by simp)
    case dsb => subst own; exact .settles _ _ rfl rfl rfl rfl
    case invIcacheMva | invDcacheMva | cleanDcacheMva | cleaninvDcacheMva =>
      obtain ⟨op, side, -, rfl⟩ := own; exact .keeps (lineEffect_status ..)
    case invIcacheSw | invDcacheSw | cleanDcacheSw | cleaninvDcacheSw =>
      obtain ⟨op, side, r, -, -, rfl⟩ := own; exact .keeps (slotEffect_status ..)
    case invIcacheRange | invDcacheRange | cleanDcacheRange | cleaninvDcacheRange =>
      rcases own with rfl | ⟨op, side, acc, -, run⟩
      · exact .keeps (noRange_status ..)
      · have kept := blockingRun_status run
        rw [afterCompare_frame] at kept
        exact .keeps kept
    case prefetchIcacheRange | prefetchDcacheRange =>
      rcases own with rfl | ⟨-, side, rfl⟩
      · exact .keeps (noRange_status ..)
      · rw [afterCompare_frame]; exact .keeps ⟨rfl, rfl, rfl⟩
    case prefetchIcacheMva =>
      subst own; split
      · rw [fillSlot_frame]; exact .keeps ⟨rfl, rfl, rfl⟩
      · exact .keeps ⟨rfl, rfl, rfl⟩
    all_goals subst own; exact .keeps ⟨rfl, rfl, rfl⟩

/-! ## Standby and C under the other agents -/

/-- A stored byte never clears C and never sets an invalidate of the data cache under way. -/
theorem storeByte_status (s : State) (w : Word × Byte) :
    (s.cdsrC = true → (storeByte s w).cdsrC = true)
      ∧ ((storeByte s w).cdsrClearing = true → s.cdsrClearing = true) := by
  cases storeByte_answer s w with
  | untranslated ht => rw [ht]; exact ⟨id, id⟩
  | inTcms a ht => rw [ht]; exact ⟨id, id⟩
  | hitsCache pb ca off ht => rw [ht]; exact ⟨fun _ => rfl, fun h => (nomatch h)⟩
  | hitsTcm pb ca off sets missed ht =>
    rw [ht]; exact ⟨fun h => Bool.or_eq_true_iff.2 (.inl h), fun h => (Bool.and_eq_true_iff.1 h).1⟩
  | misses pb ca ws ht => rw [ht, makeRoom_frame]; exact ⟨id, id⟩

theorem storeBytes_status (ws : List (Word × Byte)) (s : State) :
    (s.cdsrC = true → (ws.foldl storeByte s).cdsrC = true)
      ∧ ((ws.foldl storeByte s).cdsrClearing = true → s.cdsrClearing = true) := by
  induction ws generalizing s with
  | nil => exact ⟨id, id⟩
  | cons w ws ih =>
    obtain ⟨hC, hclearing⟩ := storeByte_status s w
    obtain ⟨tC, tclearing⟩ := ih (storeByte s w)
    exact ⟨tC ∘ hC, hclearing ∘ tclearing⟩

/-- What the move of an agent does to C: nothing, unless it completes an invalidate of the data cache or is a store. -/
inductive CdsrMove (a : Action) (s t : State) : Prop where
  | keeps (hc : t.cdsrC = s.cdsrC) (hl : t.cdsrClearing = s.cdsrClearing)
  | completes (ha : a = .settleCdsr) (clearing : s.cdsrClearing = true) (settled : ∀ sl ∈ s.dc, sl.fading = false)
      (hc : t.cdsrC = false)
  | stores (mva : Word) (bytes : List Byte) (ha : a = .store mva bytes) (awake : s.standby = false)
      (hc : s.cdsrC = true → t.cdsrC = true) (hl : t.cdsrClearing = true → s.cdsrClearing = true)

theorem settleCdsr_cdsr (s : State) : CdsrMove .settleCdsr s (settleCdsr s) := by
  rcases settleCdsr_cases s with ⟨clearing, settled, completes⟩ | waits
  · rw [completes]; exact .completes rfl clearing settled rfl
  · rw [waits]; exact .keeps rfl rfl

theorem act_cdsr (a : Action) (s : State) : CdsrMove a s (act a s) := by
  rcases act_eq a s with ⟨-, -, waits⟩ | ⟨awake, moves⟩
  · rw [waits]; exact .keeps rfl rfl
  · rw [moves]
    cases a with
    | settleCdsr => exact settleCdsr_cdsr s
    | store mva bytes =>
      obtain ⟨hc, hl⟩ := storeBytes_status (addressed mva bytes) s
      exact .stores mva bytes rfl (awake.resolve_right (by simp [Action.bySoftware])) hc hl
    | engine => dsimp only [move]; rw [engineStep_frame]; exact .keeps rfl rfl
    | fill => dsimp only [move]; rw [fillSlot_frame]; exact .keeps rfl rfl
    | evict => dsimp only [move]; rw [evictSlot_frame]; exact .keeps rfl rfl
    | clean => dsimp only [move]; rw [writeOut_frame, updateSlot_frame]; exact .keeps rfl rfl
    | settle => dsimp only [move]; rw [updateSlot_frame]; exact .keeps rfl rfl
    | drain => dsimp only [move]; rw [drainByte_frame]; exact .keeps rfl rfl
    | prefetchWord => dsimp only [move]; rw [prefetchAhead_frame]; exact .keeps rfl rfl
    | core | dropPrefetched | predict | dropBranch | setInputs | setFcsePid | setMapping | setControl | setDebugState =>
      exact .keeps rfl rfl

/-! ## Standby and C under the core -/

theorem fetchWord_status {s s1 : State} {w : Word} (h : fetchWord s = .ok (w, s1)) : KeepsStatus s s1 := by
  rw [fetchWord_frame h]; exact ⟨rfl, rfl, rfl⟩

/-- An instruction leaves the moves to come as the fetch found them. -/
theorem fetch_exec_agenda {s s1 t : State} {w : Word} {i : Instr} (hf : fetchWord s = .ok (w, s1)) (ht : exec i s1 = .next t) :
    t.agenda = s.agenda := by
  have kept := exec_frame ht
  rw [KeepsOutside] at kept
  rw [kept, fetchWord_frame hf]

/-- Outside standby the core leaves standby and C as they are, unless it fetches and executes an instruction. -/
theorem coreAnswer_status {s t : State} (h : CoreAnswer s t) :
    s.standby = true ∧ s.inputs.anyAsserted = true ∧ t = wake s ∨ KeepsStatus s t
      ∨ ∃ w s1 i, fetchWord s = .ok (w, s1) ∧ decode w = .ok i ∧ exec i s1 = .next t := by
  cases h with
  | waits _ _ ht => rw [ht]; exact .inr (.inl ⟨rfl, rfl, rfl⟩)
  | wakes hs hi ht => exact .inl ⟨hs, hi, ht⟩
  | event _ x link far dfsr draws ht => rw [ht]; exact .inr (.inl ⟨rfl, rfl, rfl⟩)
  | runs _ w s1 i hf hd ht => exact .inr (.inr ⟨w, s1, i, hf, hd, ht⟩)
  | returns _ w k p s1 hf hk hp ht => rw [ht]; exact .inr (.inl (fetchWord_status (s1 := s1) hf))

/-- In standby the core waits, or wakes if an input is asserted (10_state R37). -/
theorem coreAnswer_standby {s t : State} (h : CoreAnswer s t) (hs : s.standby = true) :
    t = s ∨ s.inputs.anyAsserted = true ∧ t = wake s := by
  cases h with
  | waits _ _ ht => exact .inl ht
  | wakes _ hi ht => exact .inr ⟨hi, ht⟩
  | event awake | runs awake | returns awake => simp [hs] at awake

/-- Settles O47: an agent leaves standby alone (`act_frame`); in standby the core waits or wakes (`coreAnswer_standby`); else
standby is set by Wait For Interrupt alone (`exec_status`). -/
theorem standbyChanges : Obligations.StandbyChanges := by
  intro s t h
  rcases step_next h with ⟨a, rest, -, -, rfl⟩ | ⟨rest, -, answer⟩
  · refine ⟨fun _ _ => ⟨act_pc .., act_regs .., act_cpsr ..⟩, fun hs ht => ?_, fun hs ht => ?_⟩
    · simp [hs] at ht
    · simp [hs] at ht
  · refine ⟨fun hs ht => ?_, fun hs ht => ?_, fun hs ht => ?_⟩
    · rcases coreAnswer_standby answer hs with rfl | ⟨-, rfl⟩
      · exact ⟨rfl, rfl, rfl⟩
      · cases ht
    · rcases coreAnswer_standby answer hs with rfl | ⟨asserted, rfl⟩
      · simp [hs] at ht
      · exact ⟨asserted, rfl⟩
    · rcases coreAnswer_status answer with ⟨asleep, -⟩ | ⟨kept, -⟩ | ⟨w, s1, i, hf, hd, he⟩
      · simp [hs] at asleep
      · simp [kept, hs] at ht
      · have agenda := fetch_exec_agenda hf he
        obtain ⟨sameStandby, -, -⟩ := fetchWord_status hf
        have same : s1.standby = false := sameStandby.trans hs
        cases exec_status he with
        | sleeps c rd hi hsleep =>
          exact ⟨_, w, s1, c, rd, rfl, by rw [agenda]; exact hf, hi ▸ hd, hsleep⟩
        | keeps kept =>
          obtain ⟨kept, -, -⟩ := kept
          simp [kept, same] at ht
        | invalidates _ _ _ kept | cleans _ _ _ kept | settles _ _ _ kept => simp [kept, same] at ht

/-- Where neither bit changes, nothing need be said of a step that clears or sets one. -/
theorem implications_of_unchanged {c c' l l' : Bool} {P Q R : Prop} (hc : c' = c) (hl : l' = l) :
    (c = true → c' = false → P) ∧ (l = false → l' = true → Q) ∧ (c = false → c' = true → R) := by
  subst hc hl
  exact ⟨fun set clear => (nomatch set.symm.trans clear), fun off on => (nomatch off.symm.trans on),
    fun clear set => (nomatch clear.symm.trans set)⟩

/-- Settles O54: a move by `act_cdsr`, an instruction by `exec_status`; the rest of what the core does leaves C alone
(`coreAnswer_status`). -/
theorem onlyFourClearDirty : Obligations.OnlyFourClearDirty := by
  intro s t h
  rcases step_next h with ⟨a, rest, ha, -, rfl⟩ | ⟨rest, -, answer⟩
  · have agenda : (act a { s with agenda := rest }).agenda = rest := act_agenda ..
    cases act_cdsr a { s with agenda := rest } with
    | keeps hc hl => exact implications_of_unchanged hc hl
    | completes settles clearing settled hc =>
      refine ⟨fun _ _ => .inr ⟨clearing, settled, ?_⟩, fun off _ => ?_, fun _ set => ?_⟩
      · rw [agenda, ← settles]; exact ha
      · exact absurd clearing (by simp [off])
      · simp [hc] at set
    | stores mva bytes stores awake hc hl =>
      refine ⟨fun set clear => ?_, fun off on => ?_, fun _ _ => ⟨awake, mva, bytes, rest, stores ▸ ha⟩⟩
      · exact absurd (hc set) (by simp [clear])
      · exact absurd (hl on) (by simp [off])
  · rcases coreAnswer_status answer with ⟨-, -, rfl⟩ | ⟨-, hc, hl⟩ | ⟨w, s1, i, hf, hd, he⟩
    · exact implications_of_unchanged rfl rfl
    · exact implications_of_unchanged hc hl
    · have agenda : t.agenda = rest := fetch_exec_agenda hf he
      obtain ⟨-, hc1, hl1⟩ := fetchWord_status hf
      rw [← agenda] at hf
      cases exec_status he with
      | keeps same =>
        obtain ⟨-, hc, hl⟩ := same
        exact implications_of_unchanged (hc.trans hc1) (hl.trans hl1)
      | sleeps c rd hi ht => exact implications_of_unchanged (ht ▸ hc1) (ht ▸ hl1)
      | invalidates c rd hi _ hc =>
        rw [hc1] at hc
        refine ⟨fun _ _ => .inl ⟨s1, w, i, c, rd, hf, hd, .inl (List.mem_append_right [_, _] hi), he⟩,
          fun _ _ => ⟨s1, w, i, c, rd, hf, hd, hi, he⟩, fun clear set => ?_⟩
        simp [hc, clear] at set
      | cleans c rd hi _ hc hl =>
        refine ⟨fun _ _ => .inl ⟨s1, w, i, c, rd, hf, hd, .inl (List.mem_append_left [_, _] hi), he⟩,
          fun off on => ?_, fun _ set => ?_⟩
        · simp [hl, hl1, off] at on
        · simp [hc] at set
      | settles c rd hi _ hc hl =>
        rw [hc1, hl1] at hc
        refine ⟨fun set clear => ?_, fun _ on => ?_, fun clear set => ?_⟩
        · exact .inl ⟨s1, w, i, c, rd, hf, hd, .inr ⟨hi, by simpa [hc, set] using clear⟩, he⟩
        · simp [hl] at on
        · simp [hc, clear] at set

end Sys2Proof.Machine

/-! The statement of 20_memory on a single line: an invalidate by MVA loses the dirty data of the slots that hold the line. -/

namespace Sys2Proof.Machine

open Sys2Proof.Config

/-! ## The slots of one line, once changed -/

@[simp] theorem sideSlots_advance (s : State) (side : Side) : sideSlots (advance s) side = sideSlots s side := by
  cases side <;> rfl

@[simp] theorem sideSlots_afterDraw (s : State) (side : Side) : sideSlots (afterDraw s) side = sideSlots s side := by
  cases side <;> rfl

@[simp] theorem holding_advance (s : State) (side : Side) (b : Block) : holding (advance s) side b = holding s side b := by
  rw [holding, sideSlots_advance, holding]

/-- After the slots of a line are changed, those that hold it are changed ones that held it. -/
theorem mem_holding_changeHeld {f : Slot → Slot} {side : Side} {b : Block} {s : State} {sl : Slot}
    (h : sl ∈ holding (changeHeld f side b s) side b) : sl.holds b = true ∧ ∃ x ∈ holding s side b, sl = f x := by
  rw [holding, changeHeld, sideSlots_mapSide] at h
  obtain ⟨changed, holds⟩ := List.mem_filter.1 h
  obtain ⟨x, hx, rfl⟩ := List.mem_map.1 changed
  refine ⟨holds, x, ?_⟩
  by_cases held : x.holds b = true
  · exact ⟨List.mem_filter.2 ⟨hx, held⟩, if_pos held⟩
  · rw [if_neg held] at holds
    exact absurd holds held

/-- Changing slots leaves alone what every byte is to become. -/
theorem settledByte_changeHeld (f : Slot → Slot) (side : Side) (b : Block) (s : State) (a : Word) :
    settledByte (changeHeld f side b s) a = settledByte s a := by
  rw [changeHeld_frame]; rfl

/-- An invalidated slot is found again only while its invalidation is under way (70_reset R306). -/
theorem LineOp.effect_invalidate_holds {late : Bool} {sl : Slot} {b : Block}
    (h : (LineOp.effect late .invalidate sl).holds b = true) :
    late = true ∧ (LineOp.effect late .invalidate sl).fading = true := by
  cases late with
  | true => exact ⟨rfl, Slot.fade_fading sl⟩
  | false => cases h

/-- Invalidating the slots of a line leaves it held only by slots whose invalidation is under way. -/
theorem fading_of_mem_holding_invalidated {late : Bool} {side : Side} {b : Block} {s : State} {sl : Slot}
    (h : sl ∈ holding (changeHeld (LineOp.effect late .invalidate) side b s) side b) : late = true ∧ sl.fading = true := by
  obtain ⟨holds, x, -, rfl⟩ := mem_holding_changeHeld h
  exact LineOp.effect_invalidate_holds holds

/-! ## An operation by MVA -/

/-- With its checks passed, an operation by MVA does its own effect. -/
theorem lineByMva_admitted {op : LineOp} {side : Side} {c : Cond} {rd : RegNo} {s : State} (admitted : Admitted c false [rd] s)
    (unlocked : s.lockdown = false) (translated : translates s (readReg s rd) (sideAccess side) = true) :
    lineByMva op side c rd s = .next (advance (writeOut
      (changeHeld (op.effect (delayed s)) side (lineOf (readReg s rd)) (afterDraw s))
      (heldWrites op side (lineOf (readReg s rd)) s))) :=
  calc lineByMva op side c rd s
    _ = requireUnlocked s _ := c7Access_admitted admitted _
    _ = requireTranslates (readReg s rd) (sideAccess side) s _ := requireUnlocked_of unlocked _
    _ = _ := requireTranslates_of translated _

/-- An invalidate writes nothing to memory (20_memory R80). -/
@[simp] theorem heldWrites_invalidate (side : Side) (b : Block) (s : State) : heldWrites .invalidate side b s = [] := by
  simp [heldWrites, LineOp.writes]

/-- What an invalidate by MVA leaves: the slots of its line invalid or fading, one free value used up, the pc one further. -/
theorem lineByMva_invalidate {side : Side} {c : Cond} {rd : RegNo} {s : State} (admitted : Admitted c false [rd] s)
    (unlocked : s.lockdown = false) (translated : translates s (readReg s rd) (sideAccess side) = true) :
    lineByMva .invalidate side c rd s
      = .next (advance (changeHeld (LineOp.effect (delayed s) .invalidate) side (lineOf (readReg s rd)) (afterDraw s))) := by
  rw [lineByMva_admitted admitted unlocked translated, heldWrites_invalidate, writeOut_nil]

/-- The two invalidates by MVA are that operation on their side. -/
theorem exec_invMva {c : Cond} {rd : RegNo} {i : Instr} {side : Side}
    (h : (i, side) ∈ [(Instr.invIcacheMva c rd, Side.instr), (.invDcacheMva c rd, .data)]) (s : State) :
    exec i s = lineByMva .invalidate side c rd s := by
  simp only [List.mem_cons, Prod.mk.injEq, List.not_mem_nil, or_false] at h
  rcases h with ⟨rfl, rfl⟩ | ⟨rfl, rfl⟩
  · rfl
  · rfl

/-- Settles O21: the answer is `lineByMva_invalidate`; a slot that still holds the line is fading
(`fading_of_mem_holding_invalidated`), so a barrier, which settles every slot, leaves none (`holding_barred_nil`). -/
theorem invalidateLine : Obligations.InvalidateLine := by
  intro c rd s i side hi admitted premise translated
  obtain ⟨unlocked, -, -⟩ := premise
  have stillFading : ∀ sl ∈ holding (advance (changeHeld (LineOp.effect (delayed s) .invalidate) side
      (lineOf (readReg s rd)) (afterDraw s))) side (lineOf (readReg s rd)), delayed s = true ∧ sl.fading = true :=
    fun sl held => fading_of_mem_holding_invalidated (by rwa [holding_advance] at held)
  refine ⟨_, delayed s, (exec_invMva hi s).trans (lineByMva_invalidate admitted unlocked translated), ?frame,
    fun sl held => (stillFading sl held).2, ?atOnce, afterDsb_of ⟨?lineGone, ?bytesKept⟩⟩
  case frame => cases side <;> rfl
  case atOnce =>
    intro complete
    exact List.eq_nil_iff_forall_not_mem.2 fun sl held => by simpa [complete] using (stillFading sl held).1
  case lineGone => exact holding_barred_nil fun sl hsl holds => (stillFading sl (List.mem_filter.2 ⟨hsl, holds⟩)).2
  case bytesKept =>
    intro a
    rw [barred_read]
    exact settledByte_changeHeld _ side _ (afterDraw s) a

end Sys2Proof.Machine

/-! The statements of 30_encoding on the decoder: decoding and encoding undo each other, and which words decode. -/

namespace Sys2Proof

/-! ## Decoding the word of an instruction -/

/-- Settles O2: the word is one of its format, which decodes by its selector (`decode_cprt`, `decode_cprrt`); the selector of a
fallback row is no earlier row's. -/
theorem decodeEncode : Obligations.DecodeEncode := by
  intro i wf
  cases i with
  | c7OtherCprt c rd read opcode1 crm opcode2 =>
    have other : isDefinedCprt read opcode1 crm opcode2 = false := by simpa [Instr.wf] using wf
    exact (decode_cprt ..).trans (congrArg _ (decodeCprt_other other c rd))
  | cp15OtherMcrr c rd rn opcode1 crm =>
    have other : isDefinedMcrr opcode1 crm = false := by simpa [Instr.wf] using wf
    exact (decode_cprrt ..).trans (congrArg _ (decodeCprrt_other other c rd rn))
  | invIcacheRange | invDcacheRange | cleanDcacheRange | cleaninvDcacheRange | prefetchIcacheRange | prefetchDcacheRange =>
    exact decode_cprrt ..
  | _ => exact decode_cprt ..

/-- Settles O1: each word is `encode` of its instruction, so it decodes to it (`decodeEncode`). -/
theorem writtenWordsDecode : Obligations.WrittenWordsDecode :=
  ⟨decodeEncode (.wfi .al 0) rfl, decodeEncode (.flushBtcAll .al 0) rfl, decodeEncode (.invDcacheSw .al 0) rfl,
    decodeEncode (.cleanDcacheAll .al 1) rfl, decodeEncode (.dsb .al 0) rfl, decodeEncode (.readCdsr .al 1) rfl,
    decodeEncode (.readBtsr .al 0) rfl, decodeEncode (.stopPrefetchRange .al 0) rfl,
    decodeEncode (.cleaninvDcacheSw .al 4) rfl, decodeEncode (.cleanDcacheRange .al 1 0) rfl,
    decodeEncode (.prefetchDcacheRange .al 1 0) rfl, decodeEncode (.unifiedNopC7k7 .al 0) rfl,
    decodeEncode (.unifiedNopC15 .al 0 7) rfl, decodeEncode (.c7OtherCprt .al 0 1 0 10 4) rfl,
    decodeEncode (.cp15OtherMcrr .al 1 0 3 12) rfl⟩

/-! ## Encoding what a selector decodes to -/

/-- A word of format CPRT is fixed by its selector as numbers, which is what the decoder looks at. -/
theorem cprt_congr {o o' : BitVec 3} {r r' : BitVec 1} {m m' : BitVec 4} {p p' : BitVec 3} (c : Cond) (rd : RegNo)
    (ho : o.toNat = o'.toNat) (hr : r.toNat = r'.toNat) (hm : m.toNat = m'.toNat) (hp : p.toNat = p'.toNat) :
    cprt c o' r' rd p' m' = cprt c o r rd p m := by
  rw [BitVec.eq_of_toNat_eq ho, BitVec.eq_of_toNat_eq hr, BitVec.eq_of_toNat_eq hm, BitVec.eq_of_toNat_eq hp]

theorem cprrt_congr {o o' m m' : BitVec 4} (c : Cond) (rn rd : RegNo) (ho : o.toNat = o'.toNat) (hm : m.toNat = m'.toNat) :
    cprrt c rn rd o' m' = cprrt c rn rd o m := by
  rw [BitVec.eq_of_toNat_eq ho, BitVec.eq_of_toNat_eq hm]

/-- Whatever row a selector falls in, that row's word has the selector. The rows c11 and c15 leave Opcode_2 free. -/
theorem encode_decodeCprt (c : Cond) (read : BitVec 1) (opcode1 : BitVec 3) (crm : BitVec 4) (opcode2 : BitVec 3) (rd : RegNo) :
    encode (decodeCprt c read opcode1 crm opcode2 rd) = cprt c opcode1 read rd opcode2 crm := by
  unfold decodeCprt
  split
  case h_33 => rfl
  case h_31 | h_32 => exact cprt_congr c rd ‹_› ‹_› ‹_› rfl
  all_goals exact cprt_congr c rd ‹_› ‹_› ‹_› ‹_›

theorem encode_decodeCprrt (c : Cond) (opcode1 crm : BitVec 4) (rd rn : RegNo) :
    encode (decodeCprrt c opcode1 crm rd rn) = cprrt c rn rd opcode1 crm := by
  unfold decodeCprrt
  split
  case h_7 => rfl
  all_goals exact cprrt_congr c rn rd ‹_› ‹_›

/-- A selector of a row before the fallback is a function's (30_encoding R105) or a unified-cache encoding's (R108). -/
theorem isDefinedCprt_cases {read : BitVec 1} {opcode1 : BitVec 3} {crm : BitVec 4} {opcode2 : BitVec 3}
    (h : isDefinedCprt read opcode1 crm opcode2 = true) :
    opcode1.toNat = 0 ∧ ((read.toNat, crm.toNat, opcode2.toNat) ∈ functionSelectors
      ∨ read.toNat = 0 ∧ (crm.toNat = 7 ∧ opcode2.toNat ≠ 0 ∨ crm.toNat = 11 ∨ crm.toNat = 15)) := by
  simpa [isDefinedCprt, isUnifiedSelector, ← BitVec.toNat_inj, or_assoc] using h

/-- A selector decodes to the fallback row only if it is no earlier row's. -/
theorem wf_decodeCprt (c : Cond) (read : BitVec 1) (opcode1 : BitVec 3) (crm : BitVec 4) (opcode2 : BitVec 3) (rd : RegNo) :
    Instr.wf (decodeCprt c read opcode1 crm opcode2 rd) = true := by
  by_cases defined : isDefinedCprt read opcode1 crm opcode2 = true
  · obtain ⟨zero, function | ⟨mcr, ⟨seven, nonzero⟩ | eleven | fifteen⟩⟩ := isDefinedCprt_cases defined
    · have rows : ∀ x ∈ functionSelectors, Instr.wf
          (decodeCprt c (BitVec.ofNat 1 x.1) (BitVec.ofNat 3 0) (BitVec.ofNat 4 x.2.1) (BitVec.ofNat 3 x.2.2) rd) = true := by
        simp only [functionSelectors, List.cons_append, List.nil_append, List.forall_mem_cons, List.not_mem_nil,
          false_implies, implies_true, and_true]
        and_intros <;> rfl
      simpa [← zero] using rows _ function
    · have small := opcode2.isLt
      simp only [decodeCprt, zero, mcr, seven]
      interval_cases opcode2.toNat
      · contradiction
      all_goals rfl
    · simp only [decodeCprt, zero, mcr, eleven, Instr.wf]
    · simp only [decodeCprt, zero, mcr, fifteen, Instr.wf]
  · have other : isDefinedCprt read opcode1 crm opcode2 = false := by simpa using defined
    rw [decodeCprt_other other, Instr.wf, other, Bool.not_false]

theorem wf_decodeCprrt (c : Cond) (opcode1 crm : BitVec 4) (rd rn : RegNo) :
    Instr.wf (decodeCprrt c opcode1 crm rd rn) = true := by
  by_cases defined : isDefinedMcrr opcode1 crm = true
  · have rows : ∀ x ∈ [(0, 5), (0, 6), (0, 12), (0, 14), (1, 12), (2, 12)],
        Instr.wf (decodeCprrt c (BitVec.ofNat 4 x.1) (BitVec.ofNat 4 x.2) rd rn) = true := by
      simp [decodeCprrt, Instr.wf]
    simpa using rows (opcode1.toNat, crm.toNat) (List.contains_iff_mem.1 defined)
  · have other : isDefinedMcrr opcode1 crm = false := by simpa using defined
    rw [decodeCprrt_other other, Instr.wf, other, Bool.not_false]

/-- Settles O3: a word that decodes is one of the two formats (`decode_ok`), and what its selector decodes to is well-formed and
has that selector. -/
theorem encodeDecode : Obligations.EncodeDecode := by
  intro w i decoded
  obtain ⟨c, rd, read, opcode1, crm, opcode2, rfl, rfl⟩ | ⟨c, rd, rn, opcode1, crm, rfl, rfl⟩ := decode_ok decoded
  · exact ⟨wf_decodeCprt .., encode_decodeCprt ..⟩
  · exact ⟨wf_decodeCprrt .., encode_decodeCprrt ..⟩

/-! ## Masks and fields -/

/-- The word with the bits of `v` from bit `lo` on, and zeros elsewhere. -/
def fieldBits {len : Nat} (lo : Nat) (v : BitVec len) : Word := v.setWidth 32 <<< lo

/-- Comparing under the mask of one field is comparing that field. -/
theorem and_fieldBits_iff {lo len : Nat} (fits : lo + len ≤ 32) (w : Word) (v : BitVec len) :
    w &&& fieldBits lo (BitVec.allOnes len) = fieldBits lo v ↔ w.extractLsb' lo len = v := by
  unfold fieldBits
  constructor
  · intro h
    ext k hk
    have bit := congrArg (fun x => x.getLsbD (lo + k)) h
    have lt : lo + k < 32 := by omega
    simpa [lt, hk] using bit
  · rintro rfl
    ext k hk
    simp only [BitVec.getElem_and, BitVec.getElem_shiftLeft]
    grind

theorem fieldBits_and_self {lo len : Nat} (v : BitVec len) :
    fieldBits lo v &&& fieldBits lo (BitVec.allOnes len) = fieldBits lo v := by
  ext k hk
  simp only [fieldBits, BitVec.getElem_and, BitVec.getElem_shiftLeft]
  grind

/-- Comparing under a mask of two disjoint parts is comparing under each. -/
theorem and_or_eq_iff {n : Nat} {w m₁ m₂ v₁ v₂ : BitVec n} (disjoint : m₁ &&& m₂ = 0#n) (h₁ : v₁ &&& m₁ = v₁)
    (h₂ : v₂ &&& m₂ = v₂) : w &&& (m₁ ||| m₂) = v₁ ||| v₂ ↔ w &&& m₁ = v₁ ∧ w &&& m₂ = v₂ := by
  have disjoint' : m₂ &&& m₁ = 0#n := by rw [BitVec.and_comm, disjoint]
  have absorb : ∀ a b : BitVec n, (a ||| b) &&& a = a := by
    intro a b
    ext
    simp only [BitVec.getElem_and, BitVec.getElem_or]
    grind
  have absorb₁ : (m₁ ||| m₂) &&& m₁ = m₁ := absorb m₁ m₂
  have absorb₂ : (m₁ ||| m₂) &&& m₂ = m₂ := by rw [BitVec.or_comm, absorb]
  have apart₁ : v₁ &&& m₂ = 0#n := by rw [← h₁, BitVec.and_assoc, disjoint, BitVec.and_zero]
  have apart₂ : v₂ &&& m₁ = 0#n := by rw [← h₂, BitVec.and_assoc, disjoint', BitVec.and_zero]
  constructor
  · intro h
    constructor
    · rw [← absorb₁, ← BitVec.and_assoc, h, BitVec.and_or_distrib_right, h₁, apart₂, BitVec.or_zero]
    · rw [← absorb₂, ← BitVec.and_assoc, h, BitVec.and_or_distrib_right, h₂, apart₁, BitVec.zero_or]
  · rintro ⟨rfl, rfl⟩
    exact BitVec.and_or_distrib_left

/-- A masked comparison asks one field for its value, and the rest of the mask for the rest. -/
theorem and_field_iff (lo : Nat) {len : Nat} (v : BitVec len) {w : Word} (m r : Word) (fits : lo + len ≤ 32)
    (disjoint : fieldBits lo (BitVec.allOnes len) &&& m = 0#32) (rest : r &&& m = r) :
    w &&& (fieldBits lo (BitVec.allOnes len) ||| m) = fieldBits lo v ||| r ↔ w.extractLsb' lo len = v ∧ w &&& m = r :=
  (and_or_eq_iff disjoint (fieldBits_and_self v) rest).trans (and_congr_left' (and_fieldBits_iff fits w v))

/-- The mask of cp_num = 15. -/
theorem cpNumMask_iff (w : Word) : w &&& 0xF00#32 = 0xF00#32 ↔ w.extractLsb' 8 4 = 15#4 :=
  and_fieldBits_iff (lo := 8) (by decide) w 15#4

/-- The mask of cp_num = 15 and bit 4. -/
theorem cpNumBit4Mask_iff (w : Word) :
    w &&& 0xF10#32 = 0xF10#32 ↔ w.extractLsb' 8 4 = 15#4 ∧ w.extractLsb' 4 1 = 1#1 :=
  (and_field_iff 8 15#4 0x10#32 0x10#32 (by decide) rfl rfl).trans
    (and_congr_right' (and_fieldBits_iff (lo := 4) (by decide) w 1#1))

/-- The mask of the row C7_OTHER_CPRT (30_encoding R107). -/
theorem cprtMask_iff (w : Word) :
    w &&& 0x0F0F0F10#32 = 0x0E070F10#32 ↔ w.extractLsb' 24 4 = 0b1110#4 ∧ w.extractLsb' 16 4 = 7#4
      ∧ w.extractLsb' 8 4 = 15#4 ∧ w.extractLsb' 4 1 = 1#1 :=
  calc w &&& 0x0F0F0F10#32 = 0x0E070F10#32
    _ ↔ w.extractLsb' 24 4 = 0b1110#4 ∧ w &&& 0xF0F10#32 = 0x70F10#32 :=
      and_field_iff 24 0b1110#4 0xF0F10#32 0x70F10#32 (by decide) rfl rfl
    _ ↔ _ := and_congr_right' (and_field_iff 16 7#4 0xF10#32 0xF10#32 (by decide) rfl rfl)
    _ ↔ _ := and_congr_right' (and_congr_right' (cpNumBit4Mask_iff w))

/-- The mask of the row CP15_OTHER_MCRR (30_encoding R109). -/
theorem cprrtMask_iff (w : Word) :
    w &&& 0x0FF00F00#32 = 0x0C400F00#32 ↔ w.extractLsb' 20 8 = 0b11000100#8 ∧ w.extractLsb' 8 4 = 15#4 :=
  (and_field_iff 20 0b11000100#8 0xF00#32 0xF00#32 (by decide) rfl rfl).trans (and_congr_right' (cpNumMask_iff w))

theorem mrrcMask_iff (w : Word) :
    w &&& 0x0FF00F00#32 = 0x0C500F00#32 ↔ w.extractLsb' 20 8 = 0b11000101#8 ∧ w.extractLsb' 8 4 = 15#4 :=
  (and_field_iff 20 0b11000101#8 0xF00#32 0xF00#32 (by decide) rfl rfl).trans (and_congr_right' (cpNumMask_iff w))

/-- The masks of the transfers of coprocessor 15 of one register and of two, in either instruction space. -/
theorem cp15Transfer_iff (w : Word) :
    cp15Transfer w = true ↔ w &&& 0x0F000F10#32 = 0x0E000F10#32 ∨ w &&& 0x0FE00F00#32 = 0x0C400F00#32 := by
  have one : w &&& 0x0F000F10#32 = 0x0E000F10#32
      ↔ w.extractLsb' 24 4 = 0b1110#4 ∧ w.extractLsb' 8 4 = 15#4 ∧ w.extractLsb' 4 1 = 1#1 :=
    (and_field_iff 24 0b1110#4 0xF10#32 0xF10#32 (by decide) rfl rfl).trans (and_congr_right' (cpNumBit4Mask_iff w))
  have two : w &&& 0x0FE00F00#32 = 0x0C400F00#32 ↔ w.extractLsb' 21 7 = 0b1100010#7 ∧ w.extractLsb' 8 4 = 15#4 :=
    (and_field_iff 21 0b1100010#7 0xF00#32 0xF00#32 (by decide) rfl rfl).trans (and_congr_right' (cpNumMask_iff w))
  rw [one, two, cp15Transfer, decide_eq_true_iff]
  tauto

/-! ## Which words decode -/

/-- A word of the unconditional space is rejected (30_encoding R93). -/
theorem decode_of_unconditional {w : Word} (h : w.extractLsb' 28 4 = 15#4) :
    decode w = if cp15Transfer w then .error .unconditional else .error .notC7 := by
  rw [decode, Cond.ofBits_none.2 h]

/-- Bits [27:24], by which an MCR or MRC is known, are the upper half of bits [27:20], by which an MCRR or MRRC is. -/
theorem extract_24_of_extract_20 {w : Word} {x : BitVec 8} (h : w.extractLsb' 20 8 = x) :
    w.extractLsb' 24 4 = x.extractLsb' 4 4 := by
  rw [← h]
  ext
  simp only [BitVec.getElem_extractLsb', BitVec.getLsbD_extractLsb']
  grind

/-- What a conditional word decodes to, by the masks of the fallback rows and of MRRC. -/
theorem decode_of_conditional {w : Word} (h : w.extractLsb' 28 4 ≠ 15#4) :
    ((∃ i, decode w = .ok i) ↔ w &&& 0x0F0F0F10#32 = 0x0E070F10#32 ∨ w &&& 0x0FF00F00#32 = 0x0C400F00#32)
      ∧ decode w ≠ .error .unconditional ∧ (decode w = .error .mrrc ↔ w &&& 0x0FF00F00#32 = 0x0C500F00#32) := by
  obtain ⟨c, hc⟩ : ∃ c, Cond.ofBits (w.extractLsb' 28 4) = some c :=
    Option.ne_none_iff_exists'.1 (mt Cond.ofBits_none.1 h)
  rw [cprtMask_iff, cprrtMask_iff, mrrcMask_iff, decode, hc]
  dsimp only
  split
  next cprt =>
    have notMrrc : w.extractLsb' 20 8 ≠ 0b11000101#8 := fun mrrc =>
      absurd (cprt.1.symm.trans (extract_24_of_extract_20 mrrc)) (by decide)
    simp [cprt, notMrrc]
  next notCprt =>
    split
    next cprrt => simp [cprrt]
    next notCprrt =>
      split
      next mrrc => simp [extract_24_of_extract_20 mrrc.1, mrrc]
      next notMrrc => simp [notCprt, notCprrt, notMrrc]

/-- Settles O4: by the condition field, `decode_of_unconditional` or `decode_of_conditional`. -/
theorem decodesExactlyC7 : Obligations.DecodesExactlyC7 := by
  intro w
  by_cases h : w.extractLsb' 28 4 = 15#4
  · rw [← cp15Transfer_iff, decode_of_unconditional h]
    cases cp15Transfer w <;> simp [h]
  · obtain ⟨decodes, notUnconditional, mrrc⟩ := decode_of_conditional h
    simp [h, decodes, notUnconditional, mrrc]

end Sys2Proof

/-! The statements of 30_encoding on what every access checks, in the order of 40_access R120, on the encodings that select no
function, and on the status registers. -/

namespace Sys2Proof.Machine

open Sys2Proof.Config

/-! ## Encodings that select no function -/

theorem alwaysUndefined_failed {c : Cond} {s : State} (h : condHolds c s.cpsr = false) :
    alwaysUndefined c s = .next (advance s) := by simp [alwaysUndefined, h]

theorem alwaysUndefined_holds {c : Cond} {s : State} (h : condHolds c s.cpsr = true) :
    alwaysUndefined c s = .next (raiseUndefined s) := if_pos h

theorem execCp15OtherMcrr_undefined {c : Cond} {rd rn : RegNo} {s : State} (h : s.cfg.mcrrOther = .undefined) :
    execCp15OtherMcrr c rd rn s = alwaysUndefined c s := by simp only [execCp15OtherMcrr, h]

theorem execCp15OtherMcrr_ignored {c : Cond} {rd rn : RegNo} {s : State} (h : s.cfg.mcrrOther = .ignored) :
    execCp15OtherMcrr c rd rn s = c7Access c true [rd, rn] s (.next (advance s)) := by simp only [execCp15OtherMcrr, h]

/-- Settles O11: the selector is the fallback row's (`decodeCprt_other`), whose meaning is `alwaysUndefined`. -/
theorem otherCprtUndefined : Obligations.OtherCprtUndefined := by
  intro c rd read opcode1 crm opcode2 other
  exact ⟨(decode_cprt ..).trans (congrArg _ (decodeCprt_other other c rd)), fun s holds => alwaysUndefined_holds holds⟩

/-- Settles O13: by the two values of the parameter. -/
theorem otherMcrr : Obligations.OtherMcrr := by
  intro c rd rn opcode1 crm s holds
  constructor
  · intro parameter hrd hrn
    exact (execCp15OtherMcrr_ignored parameter).trans
      (c7Access_admitted ⟨holds, .inr rfl, by simp [hrd.symm, hrn.symm]⟩ _)
  · intro parameter
    exact (execCp15OtherMcrr_undefined parameter).trans (alwaysUndefined_holds holds)

/-- The unified-cache encodings share one meaning (40_access R126 to R128). -/
theorem exec_unified {c : Cond} {rd : RegNo} {k : BitVec 3} {i : Instr}
    (h : i ∈ [Instr.unifiedNopC7k1 c rd, .unifiedNopC7k2 c rd, .unifiedNopC7k3 c rd, .unifiedNopC7k4 c rd,
      .unifiedNopC7k5 c rd, .unifiedNopC7k6 c rd, .unifiedNopC7k7 c rd, .unifiedNopC11 c rd k, .unifiedNopC15 c rd k])
    (s : State) : exec i s = unifiedNop c rd s := by
  simp only [List.mem_cons, List.not_mem_nil, or_false] at h
  rcases h with rfl | rfl | rfl | rfl | rfl | rfl | rfl | rfl | rfl <;> rfl

/-- Settles O12: the shared meaning (`exec_unified`), turned away in User mode, admitted in a privileged mode. -/
theorem unifiedNops : Obligations.UnifiedNops := by
  intro c rd k i s unified holds
  rw [exec_unified unified]
  exact ⟨fun user => c7Access_undefined holds user rfl _ _,
    fun mode notR15 => c7Access_admitted ⟨holds, .inl mode, by simpa using notR15.symm⟩ _⟩

/-! ## The checks of every access -/

/-- The encodings that are Undefined in every mode (40_access R124, and R125 under the parameter's other value). -/
def UndefinedInEveryMode (s : State) : Instr → Prop
  | .c7OtherCprt .. => True
  | .cp15OtherMcrr .. => s.cfg.mcrrOther = .undefined
  | _ => False

/-- The order of 40_access R120: an instruction is Undefined in every mode, or its access checks come before its own effect. -/
theorem exec_checks (i : Instr) (s : State) :
    UndefinedInEveryMode s i ∧ exec i s = alwaysUndefined (Instr.cond i) s
      ∨ ∃ body, exec i s = c7Access (Instr.cond i) (Instr.userOk s.debugState i) (Instr.operands i) s body := by
  cases i with
  | c7OtherCprt => exact .inl ⟨trivial, rfl⟩
  | cp15OtherMcrr =>
    cases parameter : s.cfg.mcrrOther with
    | undefined => exact .inl ⟨parameter, execCp15OtherMcrr_undefined parameter⟩
    | ignored => exact .inr ⟨_, execCp15OtherMcrr_ignored parameter⟩
  | _ => exact .inr ⟨_, rfl⟩

/-- An operand that should be zero is looked at right after the access checks. -/
theorem exec_sbz {i : Instr} {r : RegNo} (h : Instr.sbz i = some r) (s : State) :
    ∃ body, exec i s
      = c7Access (Instr.cond i) (Instr.userOk s.debugState i) (Instr.operands i) s (requireSbz r s body) := by
  cases i with
  | wfi | invIcacheAll | flushPrefetchBuffer | flushBtcAll | invDcacheAll | invBothAll | cleanDcacheAll | dsb | dmb
  | stopPrefetchRange | cleaninvDcacheAll => cases h; exact ⟨_, rfl⟩
  | _ => cases h

/-- Settles O9: whatever the instruction is, the condition comes first (`exec_checks`). -/
theorem failedConditionAdvances : Obligations.FailedConditionAdvances := by
  intro i s failed
  obtain ⟨-, undefined⟩ | ⟨body, checked⟩ := exec_checks i s
  · exact undefined.trans (alwaysUndefined_failed failed)
  · exact checked.trans (c7Access_failed failed _ _ _)

/-- Settles O14: an instruction that is Undefined in every mode has no operand to check, or the parameter has its other value;
any other reaches the check of r15 (`exec_checks`). -/
theorem register15Refused : Obligations.Register15Refused := by
  intro i s holds mode r15 ignored
  obtain ⟨everyMode, -⟩ | ⟨body, checked⟩ := exec_checks i s
  · cases i with
    | c7OtherCprt => cases r15
    | cp15OtherMcrr => cases everyMode.symm.trans (ignored _ _ _ _ _ rfl)
    | _ => cases everyMode
  · exact checked.trans (c7Access_r15 holds mode r15 _)

/-- Settles O15: with the access checks passed the operand is looked at next (`exec_sbz`). -/
theorem nonzeroSbzRefused : Obligations.NonzeroSbzRefused := by
  intro i r s sbz admitted nonzero
  obtain ⟨body, checked⟩ := exec_sbz sbz s
  exact checked.trans ((c7Access_admitted admitted _).trans (requireSbz_nonzero nonzero _))

/-! ## Status registers -/

/-- A status register reads as 31 zeros and the status bit (30_encoding R104). -/
theorem statusWord_eq (b : Bool) : statusWord b = 0#31 ++ BitVec.ofBool b := by cases b <;> rfl

/-- The two reads, once admitted, write the status word to Rd. -/
theorem exec_statusRead {c : Cond} {rd : RegNo} {s : State} {i : Instr} {userOk bit : Bool}
    (h : (i, userOk, bit) ∈ [(Instr.readCdsr c rd, false, s.cdsrC), (.readBtsr c rd, true, s.bt.isSome)])
    (admitted : Admitted c userOk [rd] s) : exec i s = .next (advance (writeReg s rd (statusWord bit))) := by
  simp only [List.mem_cons, Prod.mk.injEq, List.not_mem_nil, or_false] at h
  obtain ⟨rfl, rfl, rfl⟩ | ⟨rfl, rfl, rfl⟩ := h
  · exact c7Access_admitted admitted _
  · exact c7Access_admitted admitted _

/-- Settles O29: the answer is `exec_statusRead`; Rd, which is not r15, reads as written, every other register as before. -/
theorem statusReads : Obligations.StatusReads := by
  intro c rd s i userOk bit read admitted
  have answer := exec_statusRead read admitted
  obtain ⟨-, -, noR15⟩ := admitted
  have hrd : rd ≠ 15#4 := fun e => noR15 (by simp [e])
  rw [statusWord_eq] at answer
  refine ⟨_, answer, ?written, ?others, rfl⟩
  case written => rw [readReg_advance _ hrd, readReg_writeReg_self s _ hrd]
  case others =>
    intro r hr hr15
    rw [readReg_advance _ hr15, readReg_writeReg_ne s _ hr]

end Sys2Proof.Machine

/-! The statement of 30_encoding on Set/Way values: the slot they name, and which of them are refused. -/

namespace Sys2Proof.Machine

open Sys2Proof.Config

/-! ## What `slotOf` answers -/

theorem slotOf_reserved {s : State} {side : Side} {v : Word} (h : setWayReservedBits (paramS s side) v = true) :
    slotOf s side v = .error .setWayReserved := by simp [slotOf, h]

theorem slotOf_cache {s : State} {side : Side} {v : Word} (h : setWayReservedBits (paramS s side) v = false)
    (cache : v.getLsbD 0 = false) :
    slotOf s side v = if wayField v < s.cfg.nWays then
      .ok (.cache (wayField v * numSets s side + setField (paramS s side) v)) else .error .setWayAbsent := by
  simp only [slotOf, h, cache, Bool.false_eq_true, if_false, if_true]

theorem slotOf_tcm {s : State} {side : Side} {v : Word} {t : Tcm} (h : setWayReservedBits (paramS s side) v = false)
    (tcm : v.getLsbD 0 = true) (there : (tcmsOf s side)[wayField v]? = some t) (smart : t.smartCache = true)
    (inside : setField (paramS s side) v < t.slots.length) :
    slotOf s side v = .ok (.tcm (wayField v) (setField (paramS s side) v)) := by
  simp [slotOf, h, tcm, there, smart, inside]

/-- A value that names a TCM is refused if there is none of that number, or it does not operate as SmartCache, or it has no such
set (30_encoding R99). -/
theorem slotOf_noTcm {s : State} {side : Side} {v : Word} (h : setWayReservedBits (paramS s side) v = false)
    (tcm : v.getLsbD 0 = true)
    (absent : ∀ t, (tcmsOf s side)[wayField v]? = some t →
      t.smartCache = false ∨ t.slots.length ≤ setField (paramS s side) v) :
    slotOf s side v = .error .setWayAbsent := by
  cases there : (tcmsOf s side)[wayField v]? with
  | none => simp [slotOf, h, tcm, there]
  | some t =>
    have outside : ¬(t.smartCache = true ∧ setField (paramS s side) v < t.slots.length) := by
      rintro ⟨smart, inside⟩
      obtain off | short := absent t there
      · simp [off] at smart
      · omega
    simp only [slotOf, h, tcm, there, outside, Bool.false_eq_true, reduceCtorEq, if_false]

/-! ## The fields of a Set/Way value -/

/-- The fields of 30_encoding R98: no reserved bit is set, and way, set and bit 0 are these. -/
def HasSetWay (S way set : Nat) (tcm : Bool) (v : Word) : Prop :=
  setWayReservedBits S v = false ∧ wayField v = way ∧ setField S v = set ∧ v.getLsbD 0 = tcm

/-- The number way : set : 0 : tcm has those fields, as long as way and set fit theirs. -/
theorem hasSetWay_ofNat {S way set : Nat} (tcm : Bool) (way_lt : way < 4) (two_le : 2 ≤ S) (le_26 : S ≤ 26)
    (set_lt : set < 2 ^ (S - 2)) : HasSetWay S way set tcm (BitVec.ofNat 32 (way * 2 ^ 30 + set * 2 ^ 5 + tcm.toNat)) := by
  have tcm_lt := tcm.toNat_lt
  have sets : 2 ^ (S + 3) = 2 ^ (S - 2) * 2 ^ 5 := by rw [← Nat.pow_add]; congr 1; omega
  have room : 2 ^ (S + 3) ≤ 2 ^ 29 := Nat.pow_le_pow_right (by omega) (by omega)
  have value : (BitVec.ofNat 32 (way * 2 ^ 30 + set * 2 ^ 5 + tcm.toNat)).toNat = way * 2 ^ 30 + set * 2 ^ 5 + tcm.toNat := by
    rw [BitVec.toNat_ofNat]; omega
  refine ⟨?reserved, ?way, ?set, ?bit0⟩
  case reserved =>
    have high : (way * 2 ^ 30 + set * 2 ^ 5 + tcm.toNat) % 2 ^ 30 / 2 ^ (S + 3) = 0 := by rw [Nat.div_eq_of_lt]; omega
    have low : (way * 2 ^ 30 + set * 2 ^ 5 + tcm.toNat) % 2 ^ 5 / 2 = 0 := by omega
    rw [setWayReservedBits, value, high, low]; rfl
  case way => rw [wayField, value]; omega
  case set =>
    have shifted : (way * 2 ^ 30 + set * 2 ^ 5 + tcm.toNat) / 2 ^ 5 = way * 2 ^ 25 + set := by omega
    have dvd : 2 ^ (S - 2) ∣ way * 2 ^ 25 := Dvd.dvd.mul_left (Nat.pow_dvd_pow 2 (by omega)) way
    rw [setField, value, shifted, Nat.add_mod, Nat.mod_eq_zero_of_dvd dvd, Nat.zero_add, Nat.mod_mod, Nat.mod_eq_of_lt set_lt]
  case bit0 =>
    rw [BitVec.getLsbD, value, Nat.testBit_zero]
    cases tcm <;> simp <;> omega

/-- A bit set within a field makes the field nonzero. -/
theorem field_ne_zero {v : Word} {lo k top : Nat} (lo_le : lo ≤ k) (lt_top : k < top) (bit : v.getLsbD k = true) :
    v.toNat % 2 ^ top / 2 ^ lo ≠ 0 := by
  intro zero
  have clear := Nat.testBit_div_two_pow (n := lo) (v.toNat % 2 ^ top) (k - lo)
  rw [zero, Nat.zero_testBit, Nat.sub_add_cancel lo_le, Nat.testBit_mod_two_pow] at clear
  simp [lt_top, ← BitVec.getLsbD.eq_1, bit] at clear

theorem setWayReservedBits_of_bit {S : Nat} {v : Word}
    (h : (∃ k, 1 ≤ k ∧ k ≤ 4 ∧ v.getLsbD k = true) ∨ ∃ k, S + 3 ≤ k ∧ k ≤ 29 ∧ v.getLsbD k = true) :
    setWayReservedBits S v = true := by
  rw [setWayReservedBits, Bool.or_eq_true, bne_iff_ne, bne_iff_ne]
  obtain ⟨k, lo, hi, bit⟩ | ⟨k, lo, hi, bit⟩ := h
  · exact .inr (field_ne_zero lo (by omega) bit)
  · exact .inl (field_ne_zero lo (by omega) bit)

/-- Settles O24: `slotOf` by the fields of the value (`hasSetWay_ofNat`) for the cache and for a TCM, and
`setWayReservedBits_of_bit`. -/
theorem setWayDecode : Obligations.SetWayDecode := by
  intro s side way set way_lt two_le le_26 set_lt
  obtain ⟨reserved₀, way₀, set₀, cache⟩ := hasSetWay_ofNat false way_lt two_le le_26 set_lt
  obtain ⟨reserved₁, way₁, set₁, tcm⟩ := hasSetWay_ofNat true way_lt two_le le_26 set_lt
  have named := slotOf_cache reserved₀ cache
  rw [way₀, set₀, Bool.toNat_false, Nat.add_zero] at named
  refine ⟨fun inside => named.trans (if_pos inside), fun outside => named.trans (if_neg (by omega)),
    fun t there smart inside => ?isTcm, fun absent => ?noTcm, fun v bit => slotOf_reserved (setWayReservedBits_of_bit bit)⟩
  case isTcm =>
    have found := slotOf_tcm reserved₁ tcm (way₁.symm ▸ there) smart (set₁.symm ▸ inside)
    rwa [way₁, set₁, Bool.toNat_true] at found
  case noTcm =>
    have refused := slotOf_noTcm reserved₁ tcm (by rwa [way₁, set₁])
    rwa [Bool.toNat_true] at refused

end Sys2Proof.Machine

/-! The statement of 40_access on the accesses that the matrix closes to User mode. -/

namespace Sys2Proof.Machine

/-- User is the one mode that is not privileged (60_exceptions R275). -/
theorem privileged_eq_false_iff (s : State) : privileged s = false ↔ psrMode s.cpsr = 0b10000#5 := bne_eq_false_iff_eq

/-- Settles O10: an instruction that is Undefined in every mode takes the exception whatever the matrix says; any other is turned
away by the mode check, ahead of its operands and its own effect (`exec_checks`). -/
theorem userModeUndefined : Obligations.UserModeUndefined := by
  intro i s holds user closed
  obtain ⟨-, undefined⟩ | ⟨body, checked⟩ := exec_checks i s
  · exact undefined.trans (alwaysUndefined_holds holds)
  · exact checked.trans (c7Access_undefined holds ((privileged_eq_false_iff s).2 user) closed _ _)

end Sys2Proof.Machine

/-! The statements of 41_entire_cache on the two entire invalidates, alone and together, on the two entire cleans, completed or
interrupted, and on what a zero read of the Cache Dirty Status Register shows; and when the interrupt points inside the blocking
loops take nothing. -/

namespace Sys2Proof.Machine

open Sys2Proof.Config

/-! ## When no interrupt can be taken -/

/-- Levels without an unmasked interrupt, and no others to come, or both masks set: whatever is sampled, nothing is pending. -/
theorem not_pending {s : State} (h : quiet s = true ∨ psrI s.cpsr = true ∧ psrF s.cpsr = true) {levels : Inputs}
    (sampled : levels ∈ s.inputs :: s.points) (e : Event) : ¬ Pending e levels s.cpsr := by
  obtain noneCome | ⟨maskI, maskF⟩ := h
  · simp only [quiet, Bool.and_eq_true, List.isEmpty_iff] at noneCome
    obtain ⟨noPoints, noneEnabled⟩ := noneCome
    obtain rfl : levels = s.inputs := by simpa [noPoints] using sampled
    simp only [enabledInterrupts, List.append_eq_nil_iff, ite_eq_right_iff] at noneEnabled
    rintro (⟨-, asserted, unmasked⟩ | ⟨-, asserted, unmasked⟩)
    · simp [asserted, unmasked] at noneEnabled
    · simp [asserted, unmasked] at noneEnabled
  · rintro (⟨-, -, unmasked⟩ | ⟨-, -, unmasked⟩)
    · simp [maskI] at unmasked
    · simp [maskF] at unmasked

/-- A range that is not interrupted completes exactly when every block of it translates (43_range R197). -/
theorem walkRange_completed_iff {acc : Access} {bs : List Block} {s : State}
    (h : ∀ e, (walkRange acc bs s).ended ≠ .interrupted e) :
    (walkRange acc bs s).ended = .completed ↔ ∀ b ∈ bs, translates s (fcse s (blockBase b)) acc = true := by
  induction bs generalizing s with
  | nil => simp [walkRange]
  | cons b bs ih =>
    have fcse_kept := fun va => (afterPoint_sample s va acc).1
    have translate_kept := fun mva => (afterPoint_sample s mva acc).2
    rw [List.forall_mem_cons]
    unfold walkRange at h ⊢
    simp only at h ⊢
    split at h
    · exact absurd rfl (h _)
    · cases answer : translate s (fcse s (blockBase b)) acc with
      | faults r => simp [translates, answer]
      | mapped pb cacheable =>
        simp only [answer] at h ⊢
        rw [ih h]
        simp [translates, answer, fcse_kept, translate_kept]

/-- Settles O59: what a loop takes is pending at levels it sampled (`walkPoints_taken`, `walkRange_interrupted`); where nothing
can be pending (`not_pending`) it takes nothing, and a range then ends as its blocks translate. -/
theorem quietWalksComplete : Obligations.QuietWalksComplete := by
  intro s acc slots bs
  refine ⟨fun e => walkPoints_taken, fun e => walkRange_interrupted, fun unusable => ?_⟩
  have notInterrupted : ∀ e, (walkRange acc bs s).ended ≠ .interrupted e := fun e ended =>
    have ⟨pending, sampled⟩ := walkRange_interrupted ended
    not_pending unusable sampled e pending
  have noneTaken : (walkPoints slots s).taken = none := Option.eq_none_iff_forall_ne_some.2 fun e taken =>
    have ⟨pending, sampled⟩ := walkPoints_taken taken
    not_pending unusable sampled e pending
  exact ⟨noneTaken, notInterrupted, walkRange_completed_iff notInterrupted⟩

/-! ## The Cache Dirty Status Register -/

theorem statusWord_eq_zero {b : Bool} : statusWord b = 0 ↔ b = false := by cases b <;> decide

/-- Settles O30: the register read is C (`exec_statusRead`), so a zero shows C clear; the read leaves C and the slots alone. -/
theorem zeroReadMeansClean : Obligations.ZeroReadMeansClean := by
  intro c rd s t sound admitted answer zero
  rw [exec_statusRead (bit := s.cdsrC) (by simp) admitted] at answer
  cases answer
  obtain ⟨-, -, noR15⟩ := admitted
  have hrd : rd ≠ 15#4 := fun e => noR15 (by simp [e])
  rw [readReg_advance _ hrd, readReg_writeReg_self s _ hrd, statusWord_eq_zero] at zero
  exact ⟨zero, sound zero⟩

/-! ## The entire invalidates -/

/-- With the checks of an operation on an entire cache passed, its own effect is the answer. -/
theorem entireChecks_passed {c : Cond} {rd : RegNo} {s : State} (admitted : Admitted c false [rd] s) (zero : readReg s rd = 0)
    (unlocked : s.lockdown = false) (body : Result) :
    c7Access c false [rd] s (requireSbz rd s (requireUnlocked s body)) = body :=
  calc c7Access c false [rd] s (requireSbz rd s (requireUnlocked s body))
    _ = requireSbz rd s (requireUnlocked s body) := c7Access_admitted admitted _
    _ = requireUnlocked s body := requireSbz_zero zero _
    _ = body := requireUnlocked_of unlocked _

/-- What Invalidate Entire Instruction Cache leaves, complete or under way (41_entire_cache R141). -/
def icacheInvalidated (late : Bool) (s : State) : State :=
  { s with
    pc := s.pc + 4, ic := s.ic.map (LineOp.effect late .invalidate), btac := if late then s.btac.map Branch.fade else []
    draws := s.draws.tail }

/-- What Invalidate Entire Data Cache leaves, complete or under way (41_entire_cache R142). -/
def dcacheInvalidated (late : Bool) (s : State) : State :=
  { s with
    pc := s.pc + 4, dc := s.dc.map (LineOp.effect late .invalidate), cdsrC := s.cdsrC && late, cdsrClearing := late
    draws := s.draws.tail }

section
variable {c : Cond} {rd : RegNo} {s : State} (admitted : Admitted c false [rd] s) (zero : readReg s rd = 0)
  (unlocked : s.lockdown = false)
include admitted zero unlocked

theorem exec_invIcacheAll : exec (.invIcacheAll c rd) s = .next (icacheInvalidated (delayed s) s) :=
  entireChecks_passed admitted zero unlocked _

theorem exec_invDcacheAll : exec (.invDcacheAll c rd) s = .next (dcacheInvalidated (delayed s) s) :=
  entireChecks_passed admitted zero unlocked _

/-- Invalidate Both Caches does to the state what the two do one after the other at one pc, each with its own free value. -/
theorem exec_invBothAll : exec (.invBothAll c rd) s
    = .next (dcacheInvalidated (delayed (afterDraw s)) { icacheInvalidated (delayed s) s with pc := s.pc }) :=
  (entireChecks_passed admitted zero unlocked _).trans
    (congrArg (fun t => Host.Outcome.next (advance t)) (invalidateBoth_eq _ _ (afterDraw (afterDraw s))))

end

/-- An invalidation that is complete leaves no valid slot. -/
theorem forall_invalid_of_complete {late : Bool} (complete : late = false) (l : List Slot) :
    ∀ sl ∈ l.map (LineOp.effect late .invalidate), sl.valid = false := by
  subst complete
  exact List.forall_mem_map.2 fun sl _ => Slot.invalidated_valid sl

/-- Once settled, neither does one that was under way. -/
theorem forall_invalid_settled (late : Bool) (l : List Slot) :
    ∀ sl ∈ (l.map (LineOp.effect late .invalidate)).map Slot.settled, sl.valid = false :=
  List.forall_mem_map.2 <| List.forall_mem_map.2 fun sl _ => LineOp.effect_invalidate_settled late sl

/-- A flush of the branch target cache, complete or under way, leaves no entry whose flush is not. -/
theorem flushed_settled (late : Bool) (l : List Branch) :
    (if late then l.map Branch.fade else []).filter (fun x => !x.fading) = [] := by
  cases late with
  | false => rfl
  | true => simp [Branch.fade]

/-- A barrier clears the C that an invalidate of the data cache under way left set. -/
theorem cdsr_settled (c late : Bool) : (c && late && !late) = false := by cases c <;> cases late <;> rfl

/-- Settles O17: the answers are `exec_invIcacheAll` and `exec_invDcacheAll`; a barrier settles every slot, every branch target
cache entry and C, and completes the write buffer, which the invalidates leave alone. -/
theorem invalidateEntire : Obligations.InvalidateEntire := by
  intro c rd s admitted zero premise
  obtain ⟨unlocked, -, -⟩ := premise
  refine ⟨⟨_, delayed s, exec_invIcacheAll admitted zero unlocked, rfl, fun complete => ?icComplete,
      afterDsb_of ⟨?icSettled, ?btacEmpty⟩⟩,
    _, delayed s, exec_invDcacheAll admitted zero unlocked, rfl, fun complete => ⟨?cClear, ?dcComplete⟩,
      afterDsb_of ⟨?cSettled, ?dcSettled, ?bytesKept⟩⟩
  case icComplete => exact forall_invalid_of_complete complete s.ic
  case icSettled => exact forall_invalid_settled _ s.ic
  case btacEmpty => exact flushed_settled _ s.btac
  case cClear => simp [dcacheInvalidated, complete]
  case dcComplete => exact forall_invalid_of_complete complete s.dc
  case cSettled => exact cdsr_settled s.cdsrC _
  case dcSettled => exact forall_invalid_settled _ s.dc
  case bytesKept => exact barred_read _

/-- Settles O18: `exec_invBothAll` is `exec_invIcacheAll` followed by `exec_invDcacheAll`, whose checks read nothing that the first
changes. -/
theorem invalidateBoth : Obligations.InvalidateBoth := by
  intro c rd s admitted zero premise
  obtain ⟨unlocked, -, -⟩ := premise
  refine ⟨_, icacheInvalidated (delayed s) s, exec_invBothAll admitted zero unlocked, exec_invIcacheAll admitted zero unlocked,
    exec_invDcacheAll (s := { icacheInvalidated (delayed s) s with pc := s.pc }) admitted zero unlocked,
    afterDsb_of ⟨List.forall_mem_append.2 ⟨?icSettled, ?dcSettled⟩, ?btacEmpty, ?cSettled⟩, rfl⟩
  case icSettled => exact forall_invalid_settled _ s.ic
  case dcSettled => exact forall_invalid_settled _ s.dc
  case btacEmpty => exact flushed_settled _ s.btac
  case cSettled => exact cdsr_settled s.cdsrC _

/-! ## The loop of the entire cleans -/

/-- The slots an entire clean passes, in the order drawn (41_entire_cache R144, R146). -/
def passedSlots (s : State) : List Nat := (visitOrder (walkPoints s.dc s).after).take (walkPoints s.dc s).treated

/-- The state in which the loop of an entire clean ends (41_entire_cache R144). -/
def cleanLoop (op : LineOp) (s : State) : State := treatEntire op (passedSlots s) (afterOrder (walkPoints s.dc s).after)

/-- The loop that takes nothing ends in C clear (41_entire_cache R144). -/
theorem cleanEntire_completes {s : State} (passedAll : (walkPoints s.dc s).taken = none) (op : LineOp) :
    cleanEntire op s = .next (advance { cleanLoop op s with cdsrC := false }) := by
  simp only [cleanEntire, passedAll, cleanLoop, passedSlots]

/-- The loop that takes an interrupt ends in its handler, with the link A + 4 (41_entire_cache R146). -/
theorem cleanEntire_interrupted {s : State} {e : Event} (taken : (walkPoints s.dc s).taken = some e) (op : LineOp) :
    ∃ x, (e, x) ∈ [(Event.irq, Exc.irq), (.fiq, .fiq)]
      ∧ cleanEntire op s = .next (takeException x (s.pc + 4) (cleanLoop op s)) := by
  obtain ⟨pending, -⟩ := walkPoints_taken taken
  obtain ⟨x, hx, entered⟩ := takeInterrupt_of pending (s.pc + 4) (cleanLoop op s)
  refine ⟨x, hx, ?_⟩
  rw [← entered]
  simp only [cleanEntire, taken, cleanLoop, passedSlots]

theorem walkPoints_dc (l : List Slot) (s : State) : (walkPoints l s).after.dc = s.dc := by rw [walkPoints_frame]

theorem length_passedSlots (s : State) : (passedSlots s).length = (walkPoints s.dc s).treated := by
  rw [passedSlots, List.length_take, length_visitOrder, walkPoints_dc, Nat.min_eq_left (walkPoints_treated_le _ _)]

theorem nodup_passedSlots (s : State) : (passedSlots s).Nodup := (nodup_visitOrder _).1.take

theorem lt_of_mem_passedSlots {s : State} {n : Nat} (h : n ∈ passedSlots s) : n < s.dc.length := by
  rw [← walkPoints_dc s.dc s]
  exact (nodup_visitOrder _).2 n (List.mem_of_mem_take h)

/-- A loop that takes nothing passes every slot, whatever the order. -/
theorem mem_passedSlots {s : State} (passedAll : (walkPoints s.dc s).taken = none) {n : Nat} (h : n < s.dc.length) :
    n ∈ passedSlots s := by
  rw [passedSlots, walkPoints_treated passedAll, List.take_of_length_le (by rw [length_visitOrder, walkPoints_dc])]
  exact mem_visitOrder _ (by rwa [walkPoints_dc])

/-- What the loop leaves alone, and the slots it passed treated. -/
theorem cleanLoop_frame (op : LineOp) (s : State) :
    cleanLoop op s = { s with
      dc := mapAt op.slot (passedSlots s) s.dc, mem := (cleanLoop op s).mem, writeBuffer := (cleanLoop op s).writeBuffer
      inputs := (walkPoints s.dc s).after.inputs, points := (walkPoints s.dc s).after.points
      draws := (cleanLoop op s).draws } := by
  obtain ⟨ws, treated, -⟩ := treatEntire_eq op (passedSlots s) (afterOrder (walkPoints s.dc s).after)
  rw [cleanLoop, treated, commit_frame, afterOrder, walkPoints_frame]

theorem cleanLoop_dc {s : State} (passedAll : (walkPoints s.dc s).taken = none) (op : LineOp) :
    (cleanLoop op s).dc = s.dc.map op.slot := by
  rw [cleanLoop_frame]
  exact mapAt_of_forall fun _ => mem_passedSlots passedAll

/-! ## What the loop leaves in memory -/

/-- What a treatment leaves in memory is said of memory and the write buffer alone. -/
theorem memoryAfter_congr {op : LineOp} {hit : List Slot} {s t u : State} (hm : u.mem = t.mem)
    (hb : u.writeBuffer = t.writeBuffer) (h : MemoryAfter op hit s t) : MemoryAfter op hit s u := by
  cases op with
  | invalidate =>
    obtain ⟨memKept, bufferKept⟩ := h
    exact ⟨hm.trans memKept, hb.trans bufferKept⟩
  | clean | cleanInvalidate => simpa only [MemoryAfter, InMemory, WroteBack, settledByte, hm, hb] using h

/-- Nor does it matter in what order, or how often, the slots are listed. -/
theorem memoryAfter_of_mem_iff {op : LineOp} {hit hit' : List Slot} {s t : State} (same : ∀ sl, sl ∈ hit ↔ sl ∈ hit')
    (h : MemoryAfter op hit s t) : MemoryAfter op hit' s t := by
  have sameDirty : ∀ sl, sl ∈ dirtyOf hit ↔ sl ∈ dirtyOf hit' := fun sl => by simp only [dirtyOf, List.mem_filter, same]
  cases op with
  | invalidate => exact h
  | clean | cleanInvalidate => simpa only [MemoryAfter, OneDataPerLine, InMemory, WroteBack, sameDirty] using h

/-- A treatment that cleans leaves the dirty data in memory. -/
theorem memoryAfter_iff {op : LineOp} (cleans : op ≠ .invalidate) {hit : List Slot} {s t : State} :
    MemoryAfter op hit s t ↔ (s.mem.wf → OneDataPerLine (dirtyOf hit) →
      InMemory (dirtyOf hit) t ∧ WroteBack (dirtyOf hit) s t) := by
  cases op with
  | invalidate => exact absurd rfl cleans
  | clean | cleanInvalidate => exact Iff.rfl

theorem LineOp.writes_eq_writeBack {op : LineOp} (cleans : op ≠ .invalidate) : op.writes = Slot.writeBack := by
  cases op with
  | invalidate => exact absurd rfl cleans
  | clean | cleanInvalidate => rfl

/-- The slots passed are back in memory, and nothing else there is changed (41_entire_cache R144, R145). -/
theorem cleanLoop_memory {op : LineOp} (cleans : op ≠ .invalidate) (s : State) :
    MemoryAfter op ((passedSlots s).filterMap fun n => s.dc[n]?) s (cleanLoop op s) := by
  refine (memoryAfter_iff cleans).2 (treatEntire_after (LineOp.writes_eq_writeBack cleans) (passedSlots s)
    (walkPoints_dc s.dc s) ?_ ?_)
  · rw [afterOrder, walkPoints_frame]
  · rw [afterOrder, walkPoints_frame]

/-- A loop that takes nothing passes every slot of the data cache, so all that is dirty there is back in memory. -/
theorem cleanLoop_memory_all {op : LineOp} (cleans : op ≠ .invalidate) {s : State}
    (passedAll : (walkPoints s.dc s).taken = none) : MemoryAfter op s.dc s (cleanLoop op s) := by
  refine memoryAfter_of_mem_iff (fun sl => ?_) (cleanLoop_memory cleans s)
  rw [List.mem_filterMap]
  constructor
  · rintro ⟨n, -, found⟩
    exact List.mem_of_getElem? found
  · intro hsl
    obtain ⟨n, found⟩ := List.mem_iff_getElem?.1 hsl
    exact ⟨n, mem_passedSlots passedAll (List.getElem?_eq_some_iff.1 found).1, found⟩

/-! ## The entire cleans -/

/-- The two entire cleans, their checks passed, are that loop with their action on a slot. -/
theorem exec_entireClean {c : Cond} {rd : RegNo} {s : State} {i : Instr} {op : LineOp}
    (h : (i, op) ∈ [(Instr.cleanDcacheAll c rd, LineOp.clean), (.cleaninvDcacheAll c rd, .cleanInvalidate)])
    (admitted : Admitted c false [rd] s) (zero : readReg s rd = 0) (premise : Premise s) :
    exec i s = cleanEntire op s ∧ op ≠ .invalidate := by
  obtain ⟨unlocked, enabled, -⟩ := premise
  have passed : ∀ body, c7Access c false [rd] s (requireSbz rd s (requireUnlocked s (requireRa s body))) = body :=
    fun body => (entireChecks_passed admitted zero unlocked _).trans (requireRa_of enabled body)
  simp only [List.mem_cons, Prod.mk.injEq, List.not_mem_nil, or_false] at h
  obtain ⟨rfl, rfl⟩ | ⟨rfl, rfl⟩ := h
  · exact ⟨passed _, nofun⟩
  · exact ⟨passed _, nofun⟩

/-- Settles O19: no interrupt taken, the loop passes every slot (`cleanLoop_dc`, `cleanLoop_memory_all`), and `cleanLoop_frame` says
what it leaves alone. -/
theorem entireCleanCompletes : Obligations.EntireCleanCompletes := by
  intro c rd s i op hi admitted zero premise passedAll wf oneData
  obtain ⟨answer, cleans⟩ := exec_entireClean hi admitted zero premise
  have slots := cleanLoop_dc passedAll op
  have memory : MemoryAfter op s.dc s (advance { cleanLoop op s with cdsrC := false }) :=
    memoryAfter_congr rfl rfl (cleanLoop_memory_all cleans passedAll)
  obtain ⟨inMemory, wroteBack⟩ := (memoryAfter_iff cleans).1 memory wf oneData
  refine ⟨_, answer.trans (cleanEntire_completes passedAll op), slots, ?clean, ?invalid, inMemory, wroteBack, ?frame, ?quiet⟩
  case clean =>
    rw [advance_dc, slots]
    exact List.forall_mem_map.2 fun sl _ => op.slot_isDirty sl
  case invalid =>
    rintro rfl
    rw [advance_dc, slots]
    exact List.forall_mem_map.2 fun sl _ => Slot.invalidated_valid sl.cleaned
  case frame => rw [cleanLoop_frame]; rfl
  case quiet =>
    intro isQuiet
    rw [cleanLoop_frame, walkPoints_quiet isQuiet]
    exact ⟨rfl, rfl⟩

/-- However the loop ends: the slots passed are treated, their dirty data is in memory, and the rest is as before, but for the
registers, the status, the pc and C, which the end alone decides (41_entire_cache R145, R146). -/
theorem passed_treated {op : LineOp} (cleans : op ≠ .invalidate) {s t : State}
    (ended : t = { cleanLoop op s with pc := t.pc, cpsr := t.cpsr, spsr := t.spsr, regs := t.regs, cdsrC := t.cdsrC }) :
    (∀ n : Nat, t.dc[n]? = if n ∈ passedSlots s then (s.dc[n]?).map op.slot else s.dc[n]?)
      ∧ MemoryAfter op ((passedSlots s).filterMap fun n => s.dc[n]?) s t
      ∧ t = { s with
        pc := t.pc, cpsr := t.cpsr, spsr := t.spsr, regs := t.regs, cdsrC := t.cdsrC, dc := t.dc, mem := t.mem
        writeBuffer := t.writeBuffer, draws := t.draws, inputs := t.inputs, points := t.points } := by
  refine ⟨fun n => ?slots, ?memory, ?frame⟩
  case slots => rw [ended, cleanLoop_frame]; exact getElem?_mapAt op.slot (passedSlots s) s.dc n
  case memory => rw [ended]; exact memoryAfter_congr rfl rfl (cleanLoop_memory cleans s)
  case frame => rw [ended, cleanLoop_frame]

/-- The loop leaves in force the levels its interrupt points sampled last. -/
theorem cleanLoop_inputs (op : LineOp) (s : State) : (cleanLoop op s).inputs = (walkPoints s.dc s).after.inputs := by
  rw [cleanLoop_frame]

/-- The handler is entered from the registers and the status of before (60_exceptions R263, R264, R270). -/
theorem enteredInterrupt_cleanLoop {e : Event} {x : Exc} (hx : (e, x) ∈ [(Event.irq, Exc.irq), (.fiq, .fiq)]) (link : Word)
    (op : LineOp) (s : State) : EnteredInterrupt e link s (takeException x link (cleanLoop op s)) := by
  rw [cleanLoop_frame]
  exact ⟨x, hx, rfl, rfl, rfl, rfl⟩

/-- Settles O20: the loop ends in one of two states (`cleanEntire_completes`, `cleanEntire_interrupted`); `passed_treated` holds in
both, and what is taken is pending at the levels sampled last (`walkPoints_taken`). -/
theorem entireCleanEnds : Obligations.EntireCleanEnds := by
  intro c rd s i op hi admitted zero premise
  obtain ⟨answer, cleans⟩ := exec_entireClean hi admitted zero premise
  cases taken : (walkPoints s.dc s).taken with
  | none =>
    obtain ⟨slots, memory, frame⟩ := passed_treated cleans (t := advance { cleanLoop op s with cdsrC := false }) rfl
    refine ⟨_, passedSlots s, answer.trans (cleanEntire_completes taken op), length_passedSlots s, nodup_passedSlots s,
      fun n => lt_of_mem_passedSlots, slots, memory, frame, fun _ => ⟨cleanLoop_dc taken op, rfl, ?_⟩, nofun⟩
    rw [cleanLoop_frame]
    exact ⟨rfl, rfl, rfl, rfl⟩
  | some e =>
    obtain ⟨x, hx, interrupted⟩ := cleanEntire_interrupted taken op
    obtain ⟨slots, memory, frame⟩ := passed_treated cleans (t := takeException x (s.pc + 4) (cleanLoop op s)) rfl
    obtain ⟨pending, -⟩ := walkPoints_taken taken
    refine ⟨_, passedSlots s, answer.trans interrupted, length_passedSlots s, nodup_passedSlots s,
      fun n => lt_of_mem_passedSlots, slots, memory, frame, nofun, fun e' same => ?_⟩
    cases same
    refine ⟨?_, enteredInterrupt_cleanLoop hx _ op s, ?_⟩
    · rw [takeException_cdsrC, cleanLoop_frame]
    · rwa [takeException_inputs, cleanLoop_inputs]

end Sys2Proof.Machine

/-! The statements of 42_single_line on an address that does not translate, on cleaning the slots of a line, on the slot that a
Set/Way value names, and on prefetching an instruction line. -/

namespace Sys2Proof.Machine

open Sys2Proof.Config

/-! ## The checks of a single-line operation -/

/-- With its access checks passed and no lockdown in force, a single-line operation answers with the rest of its meaning. -/
theorem lineChecks_passed {c : Cond} {rd : RegNo} {s : State} (admitted : Admitted c false [rd] s) (unlocked : s.lockdown = false)
    (body : Result) : c7Access c false [rd] s (requireUnlocked s body) = body :=
  (c7Access_admitted admitted _).trans (requireUnlocked_of unlocked body)

theorem requireTranslates_refused {mva : Word} {acc : Access} {s : State} (h : translates s mva acc = false) (body : Result) :
    requireTranslates mva acc s body = .refused .lineTranslation := if_neg (by simp [h])

/-- The translation is looked at next, ahead of what the operation does to the caches (42_single_line R171). -/
theorem lineChecks_untranslated {c : Cond} {rd : RegNo} {s : State} {acc : Access} (admitted : Admitted c false [rd] s)
    (unlocked : s.lockdown = false) (untranslated : translates s (readReg s rd) acc = false) (body : Result) :
    c7Access c false [rd] s (requireUnlocked s (requireTranslates (readReg s rd) acc s body)) = .refused .lineTranslation :=
  (lineChecks_passed admitted unlocked _).trans (requireTranslates_refused untranslated body)

/-- Settles O23: each of the five instructions checks the translation by its own kind of access (`lineChecks_untranslated`). -/
theorem lineTranslationRefused : Obligations.LineTranslationRefused := by
  intro c rd s admitted premise
  obtain ⟨unlocked, -, -⟩ := premise
  refine ⟨fun untranslated i hi => ?fetch, fun untranslated i hi => ?data⟩
  case fetch =>
    simp only [List.mem_cons, List.not_mem_nil, or_false] at hi
    rcases hi with rfl | rfl
    all_goals exact lineChecks_untranslated admitted unlocked untranslated _
  case data =>
    simp only [List.mem_cons, List.not_mem_nil, or_false] at hi
    rcases hi with rfl | rfl | rfl
    all_goals exact lineChecks_untranslated admitted unlocked untranslated _

/-! ## What a write-back leaves -/

/-- Slots written back from a state that differs only outside memory and the write buffer. -/
theorem WritesOf.writeOut_from {l : List Slot} {ws : List (Word × Byte)} (h : WritesOf l ws) (oneData : OneDataPerLine (dirtyOf l))
    {s v : State} (hm : v.mem = s.mem) (hb : v.writeBuffer = s.writeBuffer) (wf : s.mem.wf) :
    WroteBack (dirtyOf l) s (Machine.writeOut v ws) := by
  obtain ⟨written, outside⟩ := h.writeOut oneData (s := v) (hm ▸ wf)
  refine ⟨written, fun a ha => ?_⟩
  simpa only [settledByte, hm, hb] using outside a ha

/-- What is written back, directly or through the write buffer, is in memory after a barrier (20_memory R73). -/
theorem WroteBack.inMemory_barred {l : List Slot} {s t : State} (h : WroteBack l s t) : InMemory l (barred t) := by
  obtain ⟨written, -⟩ := h
  exact fun sl hsl k => (barred_read t _).trans (written sl hsl k)

/-- An action that invalidates leaves, once settled, no valid slot. -/
theorem LineOp.effect_settled_valid {op : LineOp} (invalidates : op ≠ .clean) (late : Bool) (sl : Slot) :
    (op.effect late sl).settled.valid = false := by
  cases op with
  | invalidate => exact LineOp.effect_invalidate_settled late sl
  | clean => exact absurd rfl invalidates
  | cleanInvalidate => exact LineOp.effect_cleanInvalidate_settled late sl

/-! ## Cleaning the slots of a line -/

/-- What an action by MVA leaves once its checks are passed: the slots of the line treated, what it writes on its way. -/
def lineTreated (op : LineOp) (side : Side) (b : Block) (s : State) : State :=
  advance (writeOut (changeHeld (op.effect (delayed s)) side b (afterDraw s)) (heldWrites op side b s))

theorem lineTreated_frame (op : LineOp) (side : Side) (b : Block) (s : State) :
    lineTreated op side b s = { mapSide (fun sl => if sl.holds b then op.effect (delayed s) sl else sl) s side with
      pc := s.pc + 4, mem := (lineTreated op side b s).mem, writeBuffer := (lineTreated op side b s).writeBuffer
      draws := (lineTreated op side b s).draws } := by
  rw [lineTreated, writeOut_frame]
  cases side <;> rfl

theorem sideSlots_lineTreated (op : LineOp) (side : Side) (b : Block) (s : State) :
    sideSlots (lineTreated op side b s) side = sideSlots (changeHeld (op.effect (delayed s)) side b (afterDraw s)) side := by
  rw [lineTreated, sideSlots_advance, sideSlots_writeOut]

/-- The slots that hold the line afterwards are treated ones that held it before. -/
theorem mem_holding_lineTreated {op : LineOp} {side : Side} {b : Block} {s : State} {sl : Slot}
    (h : sl ∈ holding (lineTreated op side b s) side b) :
    sl.holds b = true ∧ ∃ x ∈ holding s side b, sl = op.effect (delayed s) x := by
  rw [holding, sideSlots_lineTreated] at h
  obtain ⟨holds, x, held, changed⟩ := mem_holding_changeHeld h
  rw [holding, sideSlots_afterDraw] at held
  exact ⟨holds, x, held, changed⟩

/-- After a clean no slot of the line is dirty (10_state R30). -/
theorem isDirty_of_mem_holding_lineTreated {op : LineOp} (cleans : op ≠ .invalidate) {side : Side} {b : Block} {s : State} {sl : Slot}
    (h : sl ∈ holding (lineTreated op side b s) side b) : sl.isDirty = false := by
  obtain ⟨-, x, -, rfl⟩ := mem_holding_lineTreated h
  exact LineOp.effect_isDirty (.inl cleans) x

/-- Once an invalidation is complete, no slot holds the line (10_state R31; 20_memory R76). -/
theorem holding_lineTreated_barred {op : LineOp} (invalidates : op ≠ .clean) (side : Side) (b : Block) (s : State) :
    holding (barred (lineTreated op side b s)) side b = [] := by
  rw [holding, sideSlots_barred, List.filter_eq_nil_iff, List.forall_mem_map]
  intro sl hsl settledHolds
  have held : sl ∈ holding (lineTreated op side b s) side b := List.mem_filter.2 ⟨hsl, Slot.settled_holds settledHolds⟩
  obtain ⟨-, x, -, rfl⟩ := mem_holding_lineTreated held
  simp [Slot.holds, LineOp.effect_settled_valid invalidates] at settledHolds

/-- What the dirty slots of the line held is in memory or on its way there, and every other byte is as before. -/
theorem wroteBack_lineTreated {op : LineOp} (cleans : op ≠ .invalidate) {side : Side} {b : Block} {s : State} (wf : s.mem.wf)
    (oneData : OneDataPerLine (dirtyOf (holding s side b))) :
    WroteBack (dirtyOf (holding s side b)) s (lineTreated op side b s) := by
  have writes : WritesOf (holding s side b) (heldWrites op side b s) := by
    rw [heldWrites, LineOp.writes_eq_writeBack cleans]
    exact writesOf_flatMap _
  exact writes.writeOut_from oneData (v := changeHeld (op.effect (delayed s)) side b (afterDraw s))
    (by rw [changeHeld_frame]; rfl) (by rw [changeHeld_frame]; rfl) wf

/-- The two cleans by MVA, their checks passed, are that action on the data side. -/
theorem exec_cleanMva {c : Cond} {rd : RegNo} {s : State} {i : Instr} {op : LineOp}
    (h : (i, op) ∈ [(Instr.cleanDcacheMva c rd, LineOp.clean), (.cleaninvDcacheMva c rd, .cleanInvalidate)])
    (admitted : Admitted c false [rd] s) (unlocked : s.lockdown = false) (translated : translates s (readReg s rd) .data = true) :
    exec i s = .next (lineTreated op .data (lineOf (readReg s rd)) s) ∧ op ≠ .invalidate := by
  simp only [List.mem_cons, Prod.mk.injEq, List.not_mem_nil, or_false] at h
  obtain ⟨rfl, rfl⟩ | ⟨rfl, rfl⟩ := h
  · exact ⟨lineByMva_admitted admitted unlocked translated, nofun⟩
  · exact ⟨lineByMva_admitted admitted unlocked translated, nofun⟩

/-- Settles O22: the answer is `lineTreated`; what it wrote back (`wroteBack_lineTreated`) is in memory after a barrier, which
settles the slots too (`holding_lineTreated_barred`). -/
theorem cleanLine : Obligations.CleanLine := by
  intro c rd s i op hi admitted premise wf translated oneData
  obtain ⟨unlocked, -, -⟩ := premise
  obtain ⟨answer, cleans⟩ := exec_cleanMva hi admitted unlocked translated
  have wroteBack := wroteBack_lineTreated cleans wf oneData
  refine ⟨_, delayed s, answer, wroteBack, fun sl => isDirty_of_mem_holding_lineTreated cleans,
    afterDsb_of ⟨wroteBack.inMemory_barred, ?lineGone⟩, lineTreated_frame op .data _ s⟩
  case lineGone =>
    rintro rfl
    exact holding_lineTreated_barred (by decide) .data _ s

/-! ## The slot that a Set/Way value names -/

theorem updateSlot_afterDraw (s : State) (side : Side) (r : SlotRef) (f : Slot → Slot) :
    updateSlot (afterDraw s) side r f = afterDraw (updateSlot s side r f) := by
  cases side <;> cases r <;> rfl

theorem updateSlot_pc (s : State) (side : Side) (r : SlotRef) (f : Slot → Slot) : (updateSlot s side r f).pc = s.pc := by
  rw [updateSlot_frame]

/-- A slot changed, a free value used up, the pc one further. -/
theorem advance_afterDraw_updateSlot (s : State) (side : Side) (r : SlotRef) (f : Slot → Slot) :
    advance (afterDraw (updateSlot s side r f))
      = { updateSlot s side r f with pc := s.pc + 4, draws := (updateSlot s side r f).draws.tail } := by
  rw [← updateSlot_pc s side r f]
  rfl

@[simp] theorem getSlot_advance (s : State) (side : Side) (r : SlotRef) : getSlot (advance s) side r = getSlot s side r := by
  cases side <;> cases r <;> rfl

@[simp] theorem getSlot_afterDraw (s : State) (side : Side) (r : SlotRef) : getSlot (afterDraw s) side r = getSlot s side r := by
  cases side <;> cases r <;> rfl

@[simp] theorem getSlot_writeOut (s : State) (ws : List (Word × Byte)) (side : Side) (r : SlotRef) :
    getSlot (writeOut s ws) side r = getSlot s side r := by
  rw [writeOut_frame]; cases side <;> cases r <;> rfl

/-- What an action on one slot leaves once its checks are passed: the slot treated, what it writes on its way. -/
def slotTreated (op : LineOp) (side : Side) (r : SlotRef) (s : State) : State :=
  advance (writeOut (updateSlot (afterDraw s) side r (op.effect (delayed s))) (slotWrites op s side r))

theorem lineBySetWay_refused {op : LineOp} {side : Side} {c : Cond} {rd : RegNo} {s : State} {e : Refusal}
    (admitted : Admitted c false [rd] s) (unlocked : s.lockdown = false) (unnamed : slotOf s side (readReg s rd) = .error e) :
    lineBySetWay op side c rd s = .refused e :=
  (lineChecks_passed admitted unlocked _).trans (by rw [unnamed])

theorem lineBySetWay_named {op : LineOp} {side : Side} {c : Cond} {rd : RegNo} {s : State} {r : SlotRef}
    (admitted : Admitted c false [rd] s) (unlocked : s.lockdown = false) (named : slotOf s side (readReg s rd) = .ok r) :
    lineBySetWay op side c rd s = .next (slotTreated op side r s) :=
  (lineChecks_passed admitted unlocked _).trans (by rw [named]; rfl)

theorem slotTreated_frame (op : LineOp) (side : Side) (r : SlotRef) (s : State) :
    slotTreated op side r s = { updateSlot s side r (op.effect (delayed s)) with
      pc := s.pc + 4, mem := (slotTreated op side r s).mem, writeBuffer := (slotTreated op side r s).writeBuffer
      draws := (slotTreated op side r s).draws } := by
  rw [slotTreated, updateSlot_afterDraw, writeOut_frame, updateSlot_frame]
  rfl

/-- The named slot is treated, every other slot of the side stays. -/
theorem getSlot_slotTreated (op : LineOp) (side : Side) (r : SlotRef) (s : State) (q : SlotRef) :
    getSlot (slotTreated op side r s) side q
      = if q = r then (getSlot s side q).map (op.effect (delayed s)) else getSlot s side q := by
  rw [slotTreated, getSlot_advance, getSlot_writeOut, getSlot_updateSlot, getSlot_afterDraw]

/-- Once an invalidation is complete, the named slot is invalid (10_state R31; 20_memory R76). -/
theorem invalid_of_getSlot_slotTreated_barred {op : LineOp} (invalidates : op ≠ .clean) {side : Side} {r : SlotRef} {s : State}
    {sl : Slot} (h : getSlot (barred (slotTreated op side r s)) side r = some sl) : sl.valid = false := by
  rw [getSlot_barred, getSlot_slotTreated, if_pos rfl, Option.map_map] at h
  obtain ⟨old, -, rfl⟩ := Option.map_eq_some_iff.1 h
  exact LineOp.effect_settled_valid invalidates _ old

/-- An invalidate writes nothing to memory (20_memory R80). -/
theorem slotTreated_invalidate (side : Side) (r : SlotRef) (s : State) :
    slotTreated .invalidate side r s = advance (afterDraw (updateSlot s side r (LineOp.effect (delayed s) .invalidate))) := by
  have writes : slotWrites .invalidate s side r = [] := by unfold slotWrites; split <;> rfl
  rw [slotTreated, writes, writeOut_nil, updateSlot_afterDraw]

/-- What the named slot held dirty is in memory or on its way there, and every other byte is as before. -/
theorem wroteBack_slotTreated {op : LineOp} (cleans : op ≠ .invalidate) (side : Side) (r : SlotRef) {s : State} (wf : s.mem.wf) :
    WroteBack (dirtyOf (getSlot s side r).toList) s (slotTreated op side r s) :=
  wroteBack_slot s (v := afterDraw s) side r (op.effect (delayed s)) (LineOp.writes_eq_writeBack cleans) rfl rfl wf

/-- The two invalidates by Set/Way are that operation on their side. -/
theorem exec_invSetWay {c : Cond} {rd : RegNo} {i : Instr} {side : Side}
    (h : (i, side) ∈ [(Instr.invIcacheSw c rd, Side.instr), (.invDcacheSw c rd, .data)]) (s : State) :
    exec i s = lineBySetWay .invalidate side c rd s := by
  simp only [List.mem_cons, Prod.mk.injEq, List.not_mem_nil, or_false] at h
  obtain ⟨rfl, rfl⟩ | ⟨rfl, rfl⟩ := h
  · rfl
  · rfl

/-- The two cleans by Set/Way are that operation on the data side. -/
theorem exec_cleanSetWay {c : Cond} {rd : RegNo} {i : Instr} {op : LineOp}
    (h : (i, op) ∈ [(Instr.cleanDcacheSw c rd, LineOp.clean), (.cleaninvDcacheSw c rd, .cleanInvalidate)]) (s : State) :
    exec i s = lineBySetWay op .data c rd s ∧ op ≠ .invalidate := by
  simp only [List.mem_cons, Prod.mk.injEq, List.not_mem_nil, or_false] at h
  obtain ⟨rfl, rfl⟩ | ⟨rfl, rfl⟩ := h
  · exact ⟨rfl, nofun⟩
  · exact ⟨rfl, nofun⟩

/-- Settles O25: the answer is `slotTreated`, which for an invalidate writes nothing (`slotTreated_invalidate`), or the refusal of
`slotOf`. -/
theorem setWayInvalidate : Obligations.SetWayInvalidate := by
  intro c rd s i side hi admitted premise
  obtain ⟨unlocked, -, -⟩ := premise
  refine ⟨fun e unnamed => (exec_invSetWay hi s).trans (lineBySetWay_refused admitted unlocked unnamed), fun r named =>
    ⟨_, delayed s, (exec_invSetWay hi s).trans (lineBySetWay_named admitted unlocked named), ?frame,
      (getSlot_slotTreated ..).trans (if_pos rfl), fun q other => (getSlot_slotTreated ..).trans (if_neg other),
      afterDsb_of fun sl => invalid_of_getSlot_slotTreated_barred (by decide)⟩⟩
  case frame =>
    rw [slotTreated_invalidate]
    exact advance_afterDraw_updateSlot ..

/-- Settles O26: the answer is `slotTreated` or the refusal of `slotOf`; what it wrote back (`wroteBack_slotTreated`) is in memory
after a barrier, which settles the slot too (`invalid_of_getSlot_slotTreated_barred`). -/
theorem setWayClean : Obligations.SetWayClean := by
  intro c rd s i op hi admitted premise wf
  obtain ⟨unlocked, -, -⟩ := premise
  obtain ⟨meaning, cleans⟩ := exec_cleanSetWay hi s
  refine ⟨fun e unnamed => meaning.trans (lineBySetWay_refused admitted unlocked unnamed), fun r named => ?_⟩
  have wroteBack := wroteBack_slotTreated cleans .data r wf
  refine ⟨_, delayed s, meaning.trans (lineBySetWay_named admitted unlocked named), wroteBack,
    (getSlot_slotTreated ..).trans (if_pos rfl), fun q other => (getSlot_slotTreated ..).trans (if_neg other),
    afterDsb_of ⟨wroteBack.inMemory_barred, ?invalid⟩, slotTreated_frame op .data r s⟩
  case invalid =>
    rintro rfl
    exact fun sl => invalid_of_getSlot_slotTreated_barred (by decide)

/-! ## Prefetching an instruction line -/

/-- What Prefetch Instruction Cache Line leaves once its checks are passed (42_single_line R166). -/
def linePrefetched (mva : Word) (s : State) : State :=
  advance (if holding s .instr (lineOf mva) = [] then fillSlot s .instr mva else s)

theorem exec_prefetchIcacheMva {c : Cond} {rd : RegNo} {s : State} {pb : Block} {ca : Bool} (admitted : Admitted c false [rd] s)
    (unlocked : s.lockdown = false) (mapped : translate s (readReg s rd) .fetch = .mapped pb ca) :
    exec (.prefetchIcacheMva c rd) s = .next (linePrefetched (readReg s rd) s) :=
  have translated : translates s (readReg s rd) .fetch = true := by simp only [translates, mapped]
  (lineChecks_passed admitted unlocked _).trans (requireTranslates_of translated _)

theorem linePrefetched_held {mva : Word} {s : State} (held : holding s .instr (lineOf mva) ≠ []) :
    linePrefetched mva s = advance s := congrArg advance (if_neg held)

theorem linePrefetched_missed {mva : Word} {s : State} (missed : holding s .instr (lineOf mva) = []) :
    linePrefetched mva s = advance (fillSlot s .instr mva) := congrArg advance (if_pos missed)

/-- Memory that is not cacheable, a disabled cache, or a bar: a fill does nothing. -/
theorem fillSlot_of_nothing {s : State} {side : Side} {mva : Word} {pb : Block} {ca : Bool}
    (mapped : translate s mva (sideAccess side) = .mapped pb ca)
    (nothing : ca = false ∨ cacheEnabled s side = false ∨ fillBarred s side (lineOf mva) pb = true) : fillSlot s side mva = s := by
  obtain rfl | disabled | barred := nothing
  · exact fillSlot_of_not_enabled (.inr fun pb' => by simp [mapped])
  · exact fillSlot_of_not_enabled (.inl disabled)
  · cases ca with
    | false => exact fillSlot_of_not_enabled (.inr fun pb' => by simp [mapped])
    | true => exact fillSlot_of_barred mapped barred

/-- A slot that is not dirty is evicted without a write (10_state R30, R33). -/
theorem evictSlot_of_clean {s : State} {side : Side} {r : SlotRef} (clean : ∀ sl, getSlot s side r = some sl → sl.isDirty = false) :
    evictSlot s side r = updateSlot s side r Slot.invalidated := by
  have writes : slotWrites .clean s side r = [] := by
    unfold slotWrites
    split
    · rename_i sl named
      exact LineOp.writes_of_clean (clean sl named)
    · rfl
  rw [evictSlot, writes, writeOut_nil]

/-- On the instruction side, where no slot is dirty (10_state R27), a fill that evicts and loads a slot changes that slot alone. -/
theorem evict_load_instr {s : State} (clean : IcacheClean s) (r : SlotRef) (mva : Word) (pb : Block) :
    loadSlot (evictSlot (afterDraw s) .instr r) .instr r mva pb
      = afterDraw (updateSlot s .instr r fun _ => lineCopy s.mem mva pb) := by
  have notDirty : ∀ sl, getSlot (afterDraw s) .instr r = some sl → sl.isDirty = false := fun sl named =>
    clean sl (mem_sideSlots_of_getSlot ((getSlot_afterDraw s .instr r).symm.trans named))
  have memKept : (beforeLoad (updateSlot (afterDraw s) .instr r Slot.invalidated) .instr pb).mem = s.mem :=
    updateSlot_mem (afterDraw s) .instr r Slot.invalidated
  rw [evictSlot_of_clean notDirty, loadSlot_eq, memKept]
  calc updateSlot (updateSlot (afterDraw s) .instr r Slot.invalidated) .instr r (fun _ => lineCopy s.mem mva pb)
    _ = updateSlot (afterDraw s) .instr r fun _ => lineCopy s.mem mva pb := updateSlot_updateSlot ..
    _ = _ := updateSlot_afterDraw ..

/-- All a fill of the instruction side can do: use up a free value or not, or put a clean copy of the line into one slot. -/
theorem fillSlot_instr_cases {s : State} (clean : IcacheClean s) {mva : Word} {pb : Block} {ca : Bool}
    (mapped : translate s mva .fetch = .mapped pb ca) :
    fillSlot s .instr mva = { s with draws := (fillSlot s .instr mva).draws }
      ∨ ∃ r, fillSlot s .instr mva = afterDraw (updateSlot s .instr r fun _ => lineCopy s.mem mva pb) := by
  cases ca with
  | false => exact .inl (by rw [fillSlot_of_nothing (side := .instr) mapped (.inl rfl)])
  | true =>
    obtain used | ⟨r, -, loads⟩ := fillSlot_cases (side := .instr) mapped
    · exact .inl used
    · exact .inr ⟨r, loads.trans (evict_load_instr clean r mva pb)⟩

/-- Settles O27: the answer is `linePrefetched`, a line held being left alone (`linePrefetched_held`), any other offered to a fill
(`linePrefetched_missed`), which does nothing (`fillSlot_of_nothing`) or changes one slot (`fillSlot_instr_cases`). -/
theorem prefetchInstructionLine : Obligations.PrefetchInstructionLine := by
  intro c rd s pb ca admitted premise clean mapped
  obtain ⟨unlocked, -, -⟩ := premise
  refine ⟨_, exec_prefetchIcacheMva admitted unlocked mapped, linePrefetched_held, fun missed => ?filled, fun nothing => ?nothing,
    ?oneSlot⟩
  case filled => rw [linePrefetched_missed missed, advance, fillSlot_frame]
  case nothing =>
    rw [linePrefetched, fillSlot_of_nothing (side := .instr) mapped nothing, ite_self]
    rfl
  case oneSlot =>
    by_cases held : holding s .instr (lineOf (readReg s rd)) = []
    · rw [linePrefetched_missed held]
      obtain used | ⟨r, loaded⟩ := fillSlot_instr_cases clean mapped
      · exact .inl (by rw [used]; rfl)
      · exact .inr ⟨r, by rw [loaded]; exact advance_afterDraw_updateSlot ..⟩
    · exact .inl (by rw [linePrefetched_held held]; rfl)

end Sys2Proof.Machine

/-! The statements of 43_range: which blocks a range has, the blocking range operations, completed, interrupted or aborted, the
start of a Prefetch Range, and the steps of the engine that runs it. -/

namespace Sys2Proof.Machine

open Sys2Proof.Config

/-! ## The blocks of a range -/

/-- The blocks from one to another, ascending, both included (43_range R186). -/
def blocksFrom (first last : Block) : List Block :=
  (List.range (last.toNat - first.toNat + 1)).map fun i => first + BitVec.ofNat 27 i

theorem rangeBlocks_eq (start stop : Word) : rangeBlocks start stop = blocksFrom (lineOf start) (lineOf stop) := rfl

/-- Block numbers do not wrap on the way to a block that is not below. -/
theorem block_add_toNat {first last : Block} {i : Nat} (h : first.toNat + i ≤ last.toNat) :
    (first + BitVec.ofNat 27 i).toNat = first.toNat + i := by
  have := last.isLt
  rw [BitVec.toNat_add, BitVec.toNat_ofNat]
  omega

theorem mem_blocksFrom {first last : Block} (ordered : first.toNat ≤ last.toNat) (b : Block) :
    b ∈ blocksFrom first last ↔ first.toNat ≤ b.toNat ∧ b.toNat ≤ last.toNat := by
  simp only [blocksFrom, List.mem_map, List.mem_range]
  constructor
  · rintro ⟨i, hi, rfl⟩
    rw [block_add_toNat (last := last) (by omega)]
    omega
  · rintro ⟨above, below⟩
    have number : (first + BitVec.ofNat 27 (b.toNat - first.toNat)).toNat = first.toNat + (b.toNat - first.toNat) :=
      block_add_toNat (last := last) (by omega)
    exact ⟨b.toNat - first.toNat, by omega, BitVec.eq_of_toNat_eq (by omega)⟩

theorem pairwise_blocksFrom {first last : Block} (ordered : first.toNat ≤ last.toNat) :
    (blocksFrom first last).Pairwise fun x y => x.toNat < y.toNat := by
  rw [blocksFrom, List.pairwise_map]
  refine List.Pairwise.imp_of_mem (fun {i j} hi hj less => ?_) List.pairwise_lt_range
  rw [List.mem_range] at hi hj
  rw [block_add_toNat (last := last) (by omega), block_add_toNat (last := last) (by omega)]
  omega

/-- Settles O32: the `i`-th block is numbered `i` above the first (`block_add_toNat`). -/
theorem rangeBlocksInclusive : Obligations.RangeBlocksInclusive := fun start stop ordered =>
  ⟨mem_blocksFrom ordered, pairwise_blocksFrom ordered, by simp [rangeBlocks_eq, blocksFrom]⟩

/-! ## The checks and the comparison of a range operation -/

/-- The frame of the six range operations (43_range R186 to R190): the checks, the comparison of Start and End, and, unless
Start counts as greater, `run` from the Start Address's line to the End Address's with no transfer left running. -/
def rangeAccess (run : Block → Block → State → Result) (userOk : Bool) (c : Cond) (rd rn : RegNo) (s : State) : Result :=
  c7Access c userOk [rd, rn] s <| requireUnlocked s <| requireRv s <|
    if startAboveEnd s (readReg s rn) (readReg s rd) then
      .next (advance (noRange (afterCompare s (readReg s rn) (readReg s rd))))
    else run (lineOf (readReg s rn)) (lineOf (readReg s rd)) (abandon (afterCompare s (readReg s rn) (readReg s rd)))

/-- What a blocking range operation runs (43_range R197). -/
def blockingLines (op : LineOp) (side : Side) (acc : Access) (first last : Block) (s : State) : Result :=
  blockingRun op side acc (blocksFrom first last) s

/-- What a Prefetch Range runs: it starts the engine and goes on (43_range R190). -/
def startEngine (side : Side) (first last : Block) (s : State) : Result :=
  .next (advance { s with bt := some { side := side, cur := first, last := last } })

theorem blockingRange_eq (op : LineOp) (side : Side) (acc : Access) (u : Bool) (c : Cond) (rd rn : RegNo) (s : State) :
    blockingRange op side acc u c rd rn s = rangeAccess (blockingLines op side acc) u c rd rn s := rfl

theorem prefetchRange_eq (side : Side) (c : Cond) (rd rn : RegNo) (s : State) :
    prefetchRange side c rd rn s = rangeAccess (startEngine side) true c rd rn s := rfl

section
variable {c : Cond} {u : Bool} {rd rn : RegNo} {s : State} (admitted : Admitted c u [rd, rn] s) (premise : Premise s)
  (run : Block → Block → State → Result)
include admitted premise

/-- With the checks passed the comparison decides. -/
theorem rangeAccess_admitted : rangeAccess run u c rd rn s
    = if startAboveEnd s (readReg s rn) (readReg s rd) then
        .next (advance (noRange (afterCompare s (readReg s rn) (readReg s rd))))
      else run (lineOf (readReg s rn)) (lineOf (readReg s rd)) (abandon (afterCompare s (readReg s rn) (readReg s rd))) := by
  obtain ⟨unlocked, -, enabled⟩ := premise
  exact (c7Access_admitted admitted _).trans ((requireUnlocked_of unlocked _).trans (requireRv_of enabled _))

theorem rangeAccess_runs (runs : RangeRuns (readReg s rn) (readReg s rd)) :
    rangeAccess run u c rd rn s = run (lineOf (readReg s rn)) (lineOf (readReg s rd)) (abandon s) := by
  obtain ⟨notAbove, compared⟩ := startAboveEnd_of_runs (s := s) runs
  rw [rangeAccess_admitted admitted premise, notAbove, compared]
  rfl

/-- Start above End by lines: no free value is needed and nothing is run (43_range R187). -/
theorem rangeAccess_above (above : (lineOf (readReg s rd)).toNat < (lineOf (readReg s rn)).toNat) :
    rangeAccess run u c rd rn s = .next (advance (noRange s)) := by
  obtain ⟨isAbove, compared⟩ := startAboveEnd_of_line (s := s) above
  rw [rangeAccess_admitted admitted premise, isAbove, compared]
  rfl

/-- On one line, the low bits of Start above those of End, a free value decides between nothing and the line (U6). -/
theorem rangeAccess_lowAbove (sameLine : lineOf (readReg s rn) = lineOf (readReg s rd))
    (above : ((readReg s rd).extractLsb' 0 5).toNat < ((readReg s rn).extractLsb' 0 5).toNat) :
    rangeAccess run u c rd rn s = .next (advance (noRange (afterDraw s)))
      ∨ rangeAccess run u c rd rn s = run (lineOf (readReg s rn)) (lineOf (readReg s rn)) (abandon (afterDraw s)) := by
  have compared : afterCompare s (readReg s rn) (readReg s rd) = afterDraw s := if_pos ⟨sameLine, above⟩
  rw [rangeAccess_admitted admitted premise, compared, ← sameLine]
  split
  · exact .inl rfl
  · exact .inr rfl

end

/-- Each of the four blocking range operations is its action on its side. -/
theorem exec_blockingOps {c : Cond} {rd rn : RegNo} {i : Instr} {op : LineOp} {side : Side} {acc : Access}
    (h : (i, op, side, acc) ∈ blockingOps c rd rn) (s : State) :
    exec i s = rangeAccess (blockingLines op side acc) (Instr.userOk s.debugState i) c rd rn s := by
  simp only [blockingOps, List.mem_cons, Prod.mk.injEq, List.not_mem_nil, or_false] at h
  obtain ⟨rfl, rfl, rfl, rfl⟩ | ⟨rfl, rfl, rfl, rfl⟩ | ⟨rfl, rfl, rfl, rfl⟩ | ⟨rfl, rfl, rfl, rfl⟩ := h
  all_goals exact blockingRange_eq ..

/-- Each Prefetch Range starts the engine on its side. -/
theorem exec_prefetchOps {c : Cond} {rd rn : RegNo} {i : Instr} {side : Side}
    (h : (i, side) ∈ [(Instr.prefetchIcacheRange c rd rn, Side.instr), (.prefetchDcacheRange c rd rn, .data)]) (s : State) :
    exec i s = rangeAccess (startEngine side) true c rd rn s := by
  simp only [List.mem_cons, Prod.mk.injEq, List.not_mem_nil, or_false] at h
  obtain ⟨rfl, rfl⟩ | ⟨rfl, rfl⟩ := h
  all_goals exact prefetchRange_eq ..

/-- What the range operation of a place of `rangeOps` is, whatever its condition and registers. -/
def rangeRun : Fin 6 → Block → Block → State → Result
  | 0 => blockingLines .invalidate .instr .fetch
  | 1 => blockingLines .invalidate .data .data
  | 2 => blockingLines .clean .data .data
  | 3 => blockingLines .cleanInvalidate .data .data
  | 4 => startEngine .instr
  | 5 => startEngine .data

/-- Which of them are open to User mode (43_range R182, R184, R185, R188). -/
def rangeUserOk : Fin 6 → Bool
  | 2 | 4 | 5 => true
  | 0 | 1 | 3 => false

theorem exec_rangeOps {c : Cond} {rd rn : RegNo} {i : Instr} {k : Fin 6} (h : (rangeOps c rd rn)[k]? = some i) :
    (∀ debug, Instr.userOk debug i = rangeUserOk k) ∧ ∀ s, exec i s = rangeAccess (rangeRun k) (rangeUserOk k) c rd rn s := by
  match k with
  | 0 | 1 | 2 | 3 | 4 | 5 => cases h; exact ⟨fun _ => rfl, fun _ => rfl⟩

/-! ## The loop of the blocking range operations -/

/-- The blocks the loop of a blocking range operation passes (43_range R197). -/
def passedBlocks (acc : Access) (bs : List Block) (s : State) : List Block := bs.take (walkRange acc bs s).treated

/-- The state in which that loop ends. -/
def rangeLoop (op : LineOp) (side : Side) (acc : Access) (bs : List Block) (s : State) : State :=
  treatBlocks op side (passedBlocks acc bs s) (walkRange acc bs s).after

/-- A loop that takes nothing and aborts nowhere: the instruction completes. -/
theorem blockingRun_completed {acc : Access} {bs : List Block} {s : State} (completed : (walkRange acc bs s).ended = .completed)
    (op : LineOp) (side : Side) : blockingRun op side acc bs s = .next (advance (rangeLoop op side acc bs s)) := by
  simp only [blockingRun, completed, rangeLoop, passedBlocks]

/-- A loop that meets a line without a translation: Data Abort (43_range R197). -/
theorem blockingRun_aborted {acc : Access} {bs : List Block} {s : State} {f : TransFault}
    (aborted : (walkRange acc bs s).ended = .aborted f) (op : LineOp) (side : Side) :
    blockingRun op side acc bs s = .next (raiseDataAbort f (rangeLoop op side acc bs s)) := by
  simp only [blockingRun, aborted, rangeLoop, passedBlocks]

/-- A loop that takes an interrupt: its handler, with the link A + 4 (43_range R198). -/
theorem blockingRun_interrupted {acc : Access} {bs : List Block} {s : State} {e : Event}
    (interrupted : (walkRange acc bs s).ended = .interrupted e) (op : LineOp) (side : Side) :
    ∃ x, (e, x) ∈ [(Event.irq, Exc.irq), (.fiq, .fiq)]
      ∧ blockingRun op side acc bs s = .next (takeException x (s.pc + 4) (rangeLoop op side acc bs s)) := by
  obtain ⟨pending, -⟩ := walkRange_interrupted interrupted
  obtain ⟨x, hx, entered⟩ := takeInterrupt_of pending (s.pc + 4) (rangeLoop op side acc bs s)
  refine ⟨x, hx, ?_⟩
  rw [← entered]
  simp only [blockingRun, interrupted, rangeLoop, passedBlocks]

theorem passedBlocks_completed {acc : Access} {bs : List Block} {s : State} (completed : (walkRange acc bs s).ended = .completed) :
    passedBlocks acc bs s = bs := by
  rw [passedBlocks, walkRange_treated completed, List.take_length]

/-- With no interrupt point in use a walk uses nothing up, however it ends. -/
theorem walkRange_after_quiet {s : State} (isQuiet : quiet s = true) (acc : Access) (bs : List Block) :
    (walkRange acc bs s).after = s := by
  obtain ⟨sampled, noneTaken, unused⟩ := pointChoice_quiet isQuiet
  induction bs with
  | nil => rfl
  | cons b bs ih =>
    unfold walkRange
    simp only [sampled, noneTaken, unused]
    split
    · rfl
    · exact ih

/-- Before the loop treats anything: what the walk used up, and no transfer (43_range R189). -/
theorem walkRange_abandon (acc : Access) (bs : List Block) (s : State) :
    (walkRange acc bs (abandon s)).after = { s with
      bt := none, btOldPids := [], inputs := (walkRange acc bs (abandon s)).after.inputs
      points := (walkRange acc bs (abandon s)).after.points, draws := (walkRange acc bs (abandon s)).after.draws } :=
  walkRange_frame acc bs (abandon s)

/-- The treatment of the blocks passed, seen from the state before the operation. -/
theorem rangeLoop_treated (op : LineOp) (side : Side) (acc : Access) (bs : List Block) (s : State) :
    rangeLoop op side acc bs (abandon s)
        = { mapSide (treatedBy op s (passedBlocks acc bs (abandon s))) (walkRange acc bs (abandon s)).after side with
          mem := (rangeLoop op side acc bs (abandon s)).mem
          writeBuffer := (rangeLoop op side acc bs (abandon s)).writeBuffer }
      ∧ MemoryAfter op (hitBy s side (passedBlocks acc bs (abandon s))) s (rangeLoop op side acc bs (abandon s)) :=
  treatBlocks_after op side (passedBlocks acc bs (abandon s)) (by rw [walkRange_abandon])

/-- What the loop leaves: the slots of the lines passed treated, no transfer, and what the walk used up. -/
theorem rangeLoop_frame (op : LineOp) (side : Side) (acc : Access) (bs : List Block) (s : State) :
    rangeLoop op side acc bs (abandon s) = { mapSide (treatedBy op s (passedBlocks acc bs (abandon s))) s side with
      bt := none, btOldPids := [], mem := (rangeLoop op side acc bs (abandon s)).mem
      writeBuffer := (rangeLoop op side acc bs (abandon s)).writeBuffer
      inputs := (walkRange acc bs (abandon s)).after.inputs, points := (walkRange acc bs (abandon s)).after.points
      draws := (walkRange acc bs (abandon s)).after.draws } := by
  obtain ⟨treated, -⟩ := rangeLoop_treated op side acc bs s
  rw [treated, walkRange_abandon]
  cases side <;> rfl

/-- What the lines passed held dirty is in memory after a clean; an invalidate leaves memory alone. -/
theorem rangeLoop_memory (op : LineOp) (side : Side) (acc : Access) (bs : List Block) (s : State) :
    MemoryAfter op (hitBy s side (passedBlocks acc bs (abandon s))) s (rangeLoop op side acc bs (abandon s)) :=
  have ⟨_, memory⟩ := rangeLoop_treated op side acc bs s
  memory

/-- An invalidate leaves memory and the write buffer as they were. -/
theorem rangeLoop_invalidate (side : Side) (acc : Access) (bs : List Block) (s : State) :
    (rangeLoop .invalidate side acc bs (abandon s)).mem = s.mem
      ∧ (rangeLoop .invalidate side acc bs (abandon s)).writeBuffer = s.writeBuffer :=
  rangeLoop_memory .invalidate side acc bs s

theorem rangeLoop_quiet {s : State} (isQuiet : quiet s = true) (op : LineOp) (side : Side) (acc : Access) (bs : List Block) :
    (rangeLoop op side acc bs (abandon s)).draws = s.draws ∧ (rangeLoop op side acc bs (abandon s)).inputs = s.inputs
      ∧ (rangeLoop op side acc bs (abandon s)).points = s.points := by
  rw [rangeLoop_frame, walkRange_after_quiet (s := abandon s) isQuiet]
  exact ⟨rfl, rfl, rfl⟩

/-! ## The blocking range operations -/

/-- With the checks passed and Start not above End, a blocking range operation is its loop over the blocks of the range. -/
theorem exec_blocking_runs {c : Cond} {rd rn : RegNo} {s : State} {i : Instr} {op : LineOp} {side : Side} {acc : Access}
    (h : (i, op, side, acc) ∈ blockingOps c rd rn) (admitted : Admitted c (Instr.userOk s.debugState i) [rd, rn] s)
    (premise : Premise s) (runs : RangeRuns (readReg s rn) (readReg s rd)) :
    exec i s = blockingRun op side acc (rangeBlocks (readReg s rn) (readReg s rd)) (abandon s) :=
  (exec_blockingOps h s).trans (rangeAccess_runs admitted premise _ runs)

/-- The two range invalidates among the blocking range operations; they are closed to User mode. -/
theorem mem_blockingOps_of_invalidate {c : Cond} {rd rn : RegNo} {i : Instr} {side : Side} {acc : Access}
    (h : (i, side, acc) ∈ [(Instr.invIcacheRange c rd rn, Side.instr, Access.fetch), (.invDcacheRange c rd rn, .data, .data)]) :
    (i, LineOp.invalidate, side, acc) ∈ blockingOps c rd rn ∧ ∀ debug, Instr.userOk debug i = false := by
  simp only [List.mem_cons, Prod.mk.injEq, List.not_mem_nil, or_false] at h
  obtain ⟨rfl, rfl, rfl⟩ | ⟨rfl, rfl, rfl⟩ := h
  all_goals exact ⟨by simp [blockingOps], fun _ => rfl⟩

/-- The two range cleans among the blocking range operations, with who may execute them. -/
theorem mem_blockingOps_of_clean {c : Cond} {rd rn : RegNo} {i : Instr} {op : LineOp} {u : Bool}
    (h : (i, op, u) ∈ [(Instr.cleanDcacheRange c rd rn, LineOp.clean, true),
      (.cleaninvDcacheRange c rd rn, .cleanInvalidate, false)]) :
    (i, op, Side.data, Access.data) ∈ blockingOps c rd rn ∧ (∀ debug, Instr.userOk debug i = u) ∧ op ≠ .invalidate := by
  simp only [List.mem_cons, Prod.mk.injEq, List.not_mem_nil, or_false] at h
  obtain ⟨rfl, rfl, rfl⟩ | ⟨rfl, rfl, rfl⟩ := h
  all_goals exact ⟨by simp [blockingOps], fun _ => rfl, nofun⟩

/-- Settles O33: the loop passes every block and, being an invalidate, leaves memory alone (`rangeLoop_invalidate`). -/
theorem rangeInvalidate : Obligations.RangeInvalidate := by
  intro c rd rn s i side acc hi admitted premise runs completed
  obtain ⟨blocking, userOk⟩ := mem_blockingOps_of_invalidate hi
  rw [← userOk s.debugState] at admitted
  refine ⟨_, (exec_blocking_runs blocking admitted premise runs).trans (blockingRun_completed completed .invalidate side),
    ?frame, fun isQuiet => rangeLoop_quiet isQuiet .invalidate side acc _⟩
  obtain ⟨memKept, bufferKept⟩ := rangeLoop_invalidate side acc (rangeBlocks (readReg s rn) (readReg s rd)) s
  rw [rangeLoop_frame, passedBlocks_completed completed, memKept, bufferKept]
  cases side <;> rfl

/-- Settles O34: the loop passes every block (`rangeLoop_frame`), and what their dirty slots held is in memory
(`rangeLoop_memory`). -/
theorem rangeClean : Obligations.RangeClean := by
  intro c rd rn s i op u hit hi admitted premise wf runs completed hhit oneData
  subst hhit
  obtain ⟨blocking, userOk, cleans⟩ := mem_blockingOps_of_clean hi
  rw [← userOk s.debugState] at admitted
  have memory := rangeLoop_memory op .data .data (rangeBlocks (readReg s rn) (readReg s rd)) s
  rw [passedBlocks_completed completed] at memory
  obtain ⟨inMemory, wroteBack⟩ := (memoryAfter_iff cleans).1 memory wf oneData
  refine ⟨_, (exec_blocking_runs blocking admitted premise runs).trans (blockingRun_completed completed op .data),
    inMemory, wroteBack, ?frame, fun isQuiet => rangeLoop_quiet isQuiet op .data .data _⟩
  rw [rangeLoop_frame, passedBlocks_completed completed]
  rfl

/-- FAR names a byte of the faulting line, by its VA or by its MVA (60_exceptions R262). -/
theorem lineOf_farOf (f : TransFault) : lineOf (farOf f) = lineOf f.va ∨ lineOf (farOf f) = lineOf f.mva := by
  have far_line : lineOf (farOf f) = lineOf (if farHoldsMva f then f.mva else f.va) := by
    unfold farOf lineOf
    exact BitVec.extractLsb'_append_eq_left
  rw [far_line]
  split
  · exact .inr rfl
  · exact .inl rfl

/-- Settles O35: not interrupted, the walk ends at the first line that does not translate (`walkRange_aborted`), with the lines
before it passed; the abort changes none of what the loop leaves but FAR, DFSR and what an exception entry writes. -/
theorem rangeTranslationFault : Obligations.RangeTranslationFault := by
  intro c rd rn s i op side acc pre post b r hi admitted premise runs blocks notInterrupted translated faults
  have answer := exec_blocking_runs hi admitted premise runs
  rw [blocks] at notInterrupted answer
  obtain ⟨treated, aborted⟩ := walkRange_aborted (s := abandon s) notInterrupted translated faults
  have passed : passedBlocks acc (pre ++ b :: post) (abandon s) = pre := by rw [passedBlocks, treated, List.take_left]
  have memory := rangeLoop_memory op side acc (pre ++ b :: post) s
  rw [passed] at memory
  refine ⟨_, answer.trans (blockingRun_aborted aborted op side), ?far, rfl, memoryAfter_congr rfl rfl memory, ?frame,
    fun isQuiet => rangeLoop_quiet isQuiet op side acc _⟩
  case far =>
    have inLine := lineOf_farOf { va := blockBase b, mva := fcse s (blockBase b), access := acc, reason := r }
    rwa [lineOf_blockBase] at inLine
  case frame =>
    rw [rangeLoop_frame, passed]
    cases side <;> rfl

/-- Settles O36: what the loop takes is pending at the levels sampled last (`walkRange_interrupted`), and its handler is entered
from the registers and the status of before, which the loop leaves alone (`rangeLoop_frame`). -/
theorem rangeInterrupted : Obligations.RangeInterrupted := by
  intro c rd rn s i op side acc e w passed hi admitted premise runs hw interrupted hpassed
  subst hw hpassed
  obtain ⟨x, hx, entered⟩ := blockingRun_interrupted interrupted op side
  obtain ⟨pending, -⟩ := walkRange_interrupted interrupted
  refine ⟨_, (exec_blocking_runs hi admitted premise runs).trans entered, ⟨x, hx, ?entry⟩, ?pending,
    memoryAfter_congr rfl rfl (rangeLoop_memory op side acc _ s), ?frame⟩
  case entry =>
    rw [rangeLoop_frame]
    cases side <;> exact ⟨rfl, rfl, rfl, rfl⟩
  case pending =>
    rw [takeException_inputs, rangeLoop_frame]
    exact pending
  case frame =>
    rw [rangeLoop_frame]
    cases side <;> rfl

/-! ## Start above End -/

/-- The checks of a range operation read no free value, and the Start Address register twice is checked as with the End's. -/
theorem Admitted.startTwice {c : Cond} {u : Bool} {rd rn : RegNo} {s : State} (h : Admitted c u [rd, rn] s) :
    Admitted c u [rn, rn] (afterDraw s) := by
  obtain ⟨holds, mode, noR15⟩ := h
  exact ⟨holds, mode, fun isR15 => noR15 (List.mem_cons_of_mem _ (by simpa using isR15))⟩

/-- Settles O37: by lines the comparison is certain (`rangeAccess_above`), and `noRange_frame` says what is left; on one line a
free value decides (`rangeAccess_lowAbove`), and the line is what the same operation runs with the Start Address for both. -/
theorem startAboveEnd_holds : Obligations.StartAboveEnd := by
  intro c rd rn s k i j hi hj admitted premise
  obtain ⟨userOk, answer⟩ := exec_rangeOps hi
  obtain ⟨-, answerTwice⟩ := exec_rangeOps hj
  rw [userOk] at admitted
  refine ⟨fun above => ?lines, fun sameLine lowAbove => ?low⟩
  case lines =>
    obtain ⟨frame, transfer⟩ := noRange_frame s
    refine ⟨_, (answer s).trans (rangeAccess_above admitted premise _ above), transfer, ?_⟩
    conv_lhs => rw [frame]
    rfl
  case low =>
    have runsTwice := rangeAccess_runs admitted.startTwice premise (rangeRun k) (.inr ⟨rfl, Nat.le_refl _⟩)
    rw [answer, answerTwice, runsTwice]
    exact rangeAccess_lowAbove admitted premise (rangeRun k) sameLine lowAbove

/-! ## One transfer at a time -/

/-- A blocking loop starts no transfer, however it ends. -/
theorem blockingRun_bt {op : LineOp} {side : Side} {acc : Access} {bs : List Block} {s t : State}
    (h : blockingRun op side acc bs s = .next t) : t.bt = s.bt := by
  rcases blockingRun_next h with rfl | ⟨_, x, -, -, rfl⟩ | ⟨f, -, rfl⟩
  all_goals
    rw [treatBlocks_frame, walkRange_frame]
    rfl

/-- What a range operation runs leaves the transfer it started or, none having been running, none (43_range R189). -/
theorem rangeRun_bt {k : Fin 6} {first last : Block} {s t : State} (h : rangeRun k first last (abandon s) = .next t) :
    t.bt = none ∨ ∃ side, t.bt = some { side := side, cur := first, last := last } := by
  match k with
  | 0 | 1 | 2 | 3 => exact .inl (blockingRun_bt h)
  | 4 | 5 => cases h; exact .inr ⟨_, rfl⟩

/-- Settles O39: with Start not above End the operation abandons before it runs (`rangeAccess_runs`), so what was running makes no
difference, and what it leaves is its own (`rangeRun_bt`). -/
theorem newTransferAbandonsOld : Obligations.NewTransferAbandonsOld := by
  intro c rd rn s i hi admitted premise runs
  obtain ⟨k, hk, found⟩ := List.getElem_of_mem hi
  obtain ⟨userOk, answer⟩ := exec_rangeOps (k := ⟨k, hk⟩) (List.getElem?_eq_some_iff.2 ⟨hk, found⟩)
  rw [userOk] at admitted
  have runAbandoned := (answer s).trans (rangeAccess_runs admitted premise _ runs)
  have runWithout := (answer (abandon s)).trans (rangeAccess_runs (s := abandon s) admitted premise _ runs)
  exact ⟨runAbandoned.trans runWithout.symm, fun t ht => rangeRun_bt (runAbandoned.symm.trans ht)⟩

/-- Settles O38: a Prefetch Range runs nothing but the start of the engine. -/
theorem prefetchRangeStarts : Obligations.PrefetchRangeStarts := by
  intro c rd rn s i side hi admitted premise runs
  exact ⟨_, (exec_prefetchOps hi s).trans (rangeAccess_runs admitted premise _ runs), rfl, rfl⟩

/-! ## The steps of the engine -/

/-- The FCSE PID of an engine step is the current one or one that was replaced while the transfer ran (43_range R195). -/
theorem enginePid_mem (s : State) : enginePid s ∈ s.fcsePid :: s.btOldPids := by
  unfold enginePid
  split
  · exact List.mem_cons_self
  · rename_i p ps older
    have inRange : s.draws.head % (ps.length + 2) < (s.fcsePid :: p :: ps).length := Nat.mod_lt _ (Nat.succ_pos _)
    rw [older, List.getElem?_eq_getElem inRange]
    exact List.getElem_mem inRange

/-- With no replaced PID to choose from, no free value is used up. -/
theorem afterEnginePid_of_none {s : State} (h : s.btOldPids = []) : afterEnginePid s = s := if_pos h

/-- The MVA of the block an engine step handles (43_range R192). -/
def engineMva (x : Transfer) (s : State) : Word := fcseWith s.cfg (enginePid s) (blockBase x.cur)

theorem translates_afterEnginePid (s : State) (mva : Word) (acc : Access) :
    translates (afterEnginePid s) mva acc = translates s mva acc := by
  rw [afterEnginePid_frame]; rfl

/-- A fault, of memory or of the translation, ends the transfer silently (43_range R194). -/
theorem engineStep_fault {s : State} {x : Transfer} {memFault : Bool} (running : s.bt = some x)
    (fault : memFault = true ∨ translates s (engineMva x s) (sideAccess x.side) = false) :
    engineStep memFault s = abandon (afterEnginePid s) := by
  have faulty : (memFault || !translates (afterEnginePid s) (engineMva x s) (sideAccess x.side)) = true := by
    rw [translates_afterEnginePid]
    simpa using fault
  unfold engineStep
  rw [running]
  exact if_pos faulty

/-- Without one the line is offered to a fill, and the transfer moves on by one block or, its last one handled, ends (43_range
R192, R193). -/
theorem engineStep_fill {s : State} {x : Transfer} {memFault : Bool} (running : s.bt = some x) (noFault : memFault = false)
    (translated : translates s (engineMva x s) (sideAccess x.side) = true) :
    engineStep memFault s = { fillSlot (afterEnginePid s) x.side (engineMva x s) with
      bt := if x.cur = x.last then none else some { x with cur := x.cur + 1 }
      btOldPids := if x.cur = x.last then [] else s.btOldPids } := by
  have fine : ¬ (memFault || !translates (afterEnginePid s) (engineMva x s) (sideAccess x.side)) = true := by
    rw [translates_afterEnginePid, noFault, translated]
    decide
  have pidsKept : (fillSlot (afterEnginePid s) x.side (engineMva x s)).btOldPids = s.btOldPids := by
    rw [fillSlot_frame, afterEnginePid_frame]
  unfold engineStep
  rw [running]
  refine (if_neg fine).trans ?_
  rw [← pidsKept]
  split
  · rfl
  · rfl

/-- The engine is not software: its step is its move, also in standby. -/
theorem step_engine {s : State} {memFault : Bool} {rest : List Action} (h : s.agenda = .engine memFault :: rest) :
    step s = .next (engineStep memFault { s with agenda := rest }) := by
  rw [step_act h (by simp)]
  simp [act, Action.bySoftware, move]

/-- Settles O41: the step is `engineStep`, which faults (`engineStep_fault`) or offers its line to a fill (`engineStep_fill`). -/
theorem engineStep_holds : Obligations.EngineStep := by
  intro s memFault rest x hagenda running
  refine ⟨_, enginePid { s with agenda := rest }, (afterEnginePid { s with agenda := rest }).draws, step_engine hagenda,
    enginePid_mem { s with agenda := rest }, fun noneReplaced => ?noDraw, fun fault => ?fault, fun noFault translated => ?fill⟩
  case noDraw => rw [afterEnginePid_of_none (s := { s with agenda := rest }) noneReplaced]
  case fault =>
    rw [engineStep_fault (s := { s with agenda := rest }) running fault, afterEnginePid_frame]
    rfl
  case fill =>
    rw [engineStep_fill (s := { s with agenda := rest }) running noFault translated, afterEnginePid_frame]
    rfl

/-- Settles O40: the step that handles the last block ends the transfer in a fault or after the fill (`engineStep_holds`). -/
theorem engineEnds : Obligations.EngineEnds := by
  intro s memFault rest x hagenda running atLast
  obtain ⟨t, pid, draws, answer, -, -, onFault, onFill⟩ := engineStep_holds s memFault rest x hagenda running
  have ended : t.bt = none := by
    by_cases fault : memFault = true ∨ translates s (fcseWith s.cfg pid (blockBase x.cur)) (sideAccess x.side) = false
    · rw [onFault fault]
    · simp only [not_or, Bool.not_eq_true, Bool.not_eq_false] at fault
      obtain ⟨noFault, translated⟩ := fault
      rw [onFill noFault translated]
      exact if_pos atLast
  exact ⟨t, answer, ended, by simp [btsrR, ended]⟩

end Sys2Proof.Machine

/-! The statement of 45_flush_operations on the three flushes: what each leaves in the prefetch buffer and in the branch target
cache, at once and after a barrier. -/

namespace Sys2Proof.Machine

/-! ## Entries tied to an address -/

theorem Branch.near_iff (mva : Word) (x : Branch) :
    x.near mva = true ↔ x.addr.extractLsb' 3 29 = mva.extractLsb' 3 29 := beq_iff_eq

theorem Branch.near_eq_false_iff (mva : Word) (x : Branch) :
    x.near mva = false ↔ x.addr.extractLsb' 3 29 ≠ mva.extractLsb' 3 29 := beq_eq_false_iff_ne

/-- What an entry is tied to does not change while its flush is under way. -/
@[simp] theorem Branch.near_fade (mva : Word) (x : Branch) : x.fade.near mva = x.near mva := rfl

@[simp] theorem Branch.fade_fading (x : Branch) : x.fade.fading = true := rfl

/-! ## Flush Branch Target Cache Entry -/

/-- The entries tied to other addresses stay exactly as they were, whether the flush is complete or under way. -/
theorem mem_flushBtacEntry_far {late : Bool} {s : State} {mva : Word} {x : Branch} (far : x.near mva = false) :
    x ∈ (flushBtacEntry late s mva).btac ↔ x ∈ s.btac := by
  cases late with
  | false => simp [far]
  | true =>
    simp only [flushBtacEntry_btac, if_true, List.mem_map]
    constructor
    · rintro ⟨y, hy, rfl⟩
      by_cases near : y.near mva = true
      · simp [near] at far
      · rwa [if_neg near]
    · exact fun hx => ⟨x, hx, by simp [far]⟩

/-- An entry tied to the address is found again only while its flush is under way (70_reset R306). -/
theorem fading_of_mem_flushBtacEntry {late : Bool} {s : State} {mva : Word} {x : Branch}
    (hx : x ∈ (flushBtacEntry late s mva).btac) (near : x.near mva = true) : x.fading = true := by
  cases late with
  | false => simp [near] at hx
  | true =>
    simp only [flushBtacEntry_btac, if_true, List.mem_map] at hx
    obtain ⟨y, -, rfl⟩ := hx
    by_cases nearBefore : y.near mva = true
    · rw [if_pos nearBefore, Branch.fade_fading]
    · rw [if_neg nearBefore] at near
      exact absurd near nearBefore

/-- So once the flushes under way are complete, what is left is what was not under way before and is tied to other addresses. -/
theorem mem_flushBtacEntry_settled {late : Bool} {s : State} {mva : Word} {x : Branch} :
    x ∈ (flushBtacEntry late s mva).btac.filter (fun y => !y.fading) ↔
      x ∈ s.btac ∧ x.fading = false ∧ x.near mva = false := by
  rw [List.mem_filter, Bool.not_eq_true']
  constructor
  · rintro ⟨hx, notFading⟩
    have far : x.near mva = false := Bool.eq_false_iff.2 fun near =>
      Bool.eq_false_iff.1 notFading (fading_of_mem_flushBtacEntry hx near)
    exact ⟨(mem_flushBtacEntry_far far).1 hx, notFading, far⟩
  · rintro ⟨hx, notFading, far⟩
    exact ⟨(mem_flushBtacEntry_far far).2 hx, notFading⟩

theorem length_flushBtacEntry_le (late : Bool) (s : State) (mva : Word) :
    (flushBtacEntry late s mva).btac.length ≤ s.btac.length := by
  cases late with
  | false => exact List.length_filter_le _ s.btac
  | true => exact (List.length_map _).le

/-! ## Flush Entire Branch Target Cache -/

/-- An entry that is left is one whose flush is under way. -/
theorem fading_of_mem_flushBtac {late : Bool} {s : State} : ∀ x ∈ (flushBtac late s).btac, x.fading = true := by
  cases late with
  | false => exact fun x hx => nomatch hx
  | true => exact List.forall_mem_map.2 fun x _ => Branch.fade_fading x

theorem length_flushBtac_le (late : Bool) (s : State) : (flushBtac late s).btac.length ≤ s.btac.length := by
  cases late with
  | false => exact Nat.zero_le _
  | true => exact (List.length_map _).le

/-! ## The three flushes -/

theorem exec_flushPrefetchBuffer {c : Cond} {rd : RegNo} {s : State} (admitted : Admitted c true [rd] s)
    (zero : readReg s rd = 0) : exec (.flushPrefetchBuffer c rd) s = .next (advance (flushPfb s)) :=
  (c7Access_admitted admitted _).trans (requireSbz_zero zero _)

theorem exec_flushBtcAll {c : Cond} {rd : RegNo} {s : State} (admitted : Admitted c s.debugState [rd] s)
    (zero : readReg s rd = 0) : exec (.flushBtcAll c rd) s = .next (advance (flushBtac (delayed s) (afterDraw s))) :=
  (c7Access_admitted admitted _).trans (requireSbz_zero zero _)

theorem exec_flushBtcMva {c : Cond} {rd : RegNo} {s : State} (admitted : Admitted c false [rd] s) :
    exec (.flushBtcMva c rd) s = .next (advance (flushBtacEntry (delayed s) (afterDraw s) (readReg s rd))) :=
  c7Access_admitted admitted _

/-- Settles O42: the answers are `exec_flushPrefetchBuffer`, `exec_flushBtcAll` and `exec_flushBtcMva`; what a flush of the branch
target cache leaves of the entries it names is fading, so a barrier, which drops every fading entry, leaves none of them. -/
theorem flushes : Obligations.Flushes := by
  intro c rd s
  refine ⟨fun admitted zero => exec_flushPrefetchBuffer admitted zero,
    fun admitted zero => ⟨_, exec_flushBtcAll admitted zero, fading_of_mem_flushBtac,
      afterDsb_of (flushed_settled (delayed s) s.btac), length_flushBtac_le (delayed s) (afterDraw s), rfl⟩,
    fun admitted => ⟨_, exec_flushBtcMva admitted, fun x far => ?othersKept, fun x hx near => ?stillFading,
      afterDsb_of fun x => ?settled, length_flushBtacEntry_le (delayed s) (afterDraw s) (readReg s rd), rfl⟩⟩
  case othersKept => exact mem_flushBtacEntry_far (s := afterDraw s) ((Branch.near_eq_false_iff _ x).2 far)
  case stillFading => exact fading_of_mem_flushBtacEntry hx ((Branch.near_iff _ x).2 near)
  case settled =>
    rw [← Branch.near_eq_false_iff]
    exact mem_flushBtacEntry_settled (s := afterDraw s)

end Sys2Proof.Machine

/-! The statements of 46_barriers on the two barriers: what each completes, and what it leaves alone. -/

namespace Sys2Proof.Machine

open Sys2Proof.Config

/-! ## Data Synchronization Barrier -/

/-- No slot of a side is still being invalidated after the barrier (20_memory R73, 70_reset R306). -/
theorem fading_of_mem_sideSlots_barred {s : State} {side : Side} : ∀ sl ∈ sideSlots (barred s) side, sl.fading = false := by
  rw [sideSlots_barred]
  exact List.forall_mem_map.2 fun sl _ => Slot.settled_fading sl

/-- Nor is an entry of the branch target cache still being flushed (20_memory R76, 70_reset R306). -/
theorem fading_of_mem_btac_barred {s : State} : ∀ x ∈ (barred s).btac, x.fading = false := by
  intro x hx
  obtain ⟨-, notFading⟩ := List.mem_filter.1 hx
  rwa [Bool.not_eq_true'] at notFading

/-- Settles O43: the answer is `dsb_exec`; in the one state `barred s` that it leaves, memory is read by `barred_read` and what is
left of slots and entries was not under way. -/
theorem dataSynchronizationBarrier : Obligations.DataSynchronizationBarrier := by
  intro c rd s admitted zero
  exact ⟨barred s, dsb_exec admitted zero, rfl, barred_read s, fun _ sl hsl _ => fading_of_mem_sideSlots_barred sl hsl,
    fading_of_mem_btac_barred, barred_frame s⟩

/-! ## Data Memory Barrier -/

theorem exec_dmb {c : Cond} {rd : RegNo} {s : State} (admitted : Admitted c true [rd] s) (zero : readReg s rd = 0) :
    exec (.dmb c rd) s = .next (advance (completeExplicit s)) :=
  (c7Access_admitted admitted _).trans (requireSbz_zero zero _)

/-- Settles O44: the answer is `exec_dmb`; the bytes it leaves in the write buffer are `dmbLeaves`, none of them explicit, and those
it completes (`dmbWaits`) reach memory in an order that changes no byte's final value (log entry 29). -/
theorem dataMemoryBarrier : Obligations.DataMemoryBarrier := by
  intro c rd s admitted zero canonical
  refine ⟨advance (completeExplicit s), exec_dmb admitted zero, ?noExplicit, ?inOrder, fun a => ?bytesKept,
    fun l p r buffer explicit last => ?lastInMemory, rfl⟩
  case noExplicit => exact dmbLeaves_explicit s.writeBuffer
  case inOrder => exact dmbLeaves_sublist s.writeBuffer
  case bytesKept => exact completeExplicit_settled a canonical
  case lastInMemory => exact completeExplicit_read canonical buffer explicit last

end Sys2Proof.Machine

/-! The statements of 47_wait_for_interrupt: standby is entered, and left when an input is asserted. -/

namespace Sys2Proof.Machine

/-- Settles O45: the access check and the check of the should-be-zero operand both pass, and the body sets standby alone. -/
theorem waitForInterrupt : Obligations.WaitForInterrupt := by
  intro c rd s admitted zero
  calc exec (.wfi c rd) s
    _ = requireSbz rd s (.next { s with standby := true }) := c7Access_admitted admitted _
    _ = .next { s with standby := true } := requireSbz_zero zero _

/-! ## The inputs that wake the core -/

theorem Inputs.anyAsserted_iff (i : Inputs) :
    i.anyAsserted = true ↔ i.irq = true ∨ i.fiq = true ∨ i.impreciseAbort = true ∨ i.debugRequest = true := by
  simp only [Inputs.anyAsserted, Bool.or_eq_true, or_assoc]

theorem Inputs.anyAsserted_eq_false_iff (i : Inputs) :
    i.anyAsserted = false ↔ i.irq = false ∧ i.fiq = false ∧ i.impreciseAbort = false ∧ i.debugRequest = false := by
  simp only [Inputs.anyAsserted, Bool.or_eq_false_iff, and_assoc]

/-- An event is enabled only if its input is asserted (60_exceptions R263 to R266): masks only take events away. -/
theorem enabledEvents_of_not_asserted {s : State} (h : s.inputs.anyAsserted = false) : enabledEvents s = [] := by
  obtain ⟨irq, fiq, abort, debug⟩ := (Inputs.anyAsserted_eq_false_iff _).1 h
  simp [enabledEvents, enabledInterrupts, irq, fiq, abort, debug]

/-- So whatever event is enabled in standby ends it (47_wait_for_interrupt R241). -/
theorem anyAsserted_of_mem_enabledEvents {s : State} {e : Event} (h : e ∈ enabledEvents s) : s.inputs.anyAsserted = true := by
  by_contra notAsserted
  rw [Bool.not_eq_true] at notAsserted
  rw [enabledEvents_of_not_asserted notAsserted] at h
  exact List.not_mem_nil h

/-! ## The core's turn in standby and after it -/

/-- The core moves if no move of another agent is listed (00_scope R9). -/
theorem step_core {s : State} (h : s.agenda = []) : step s = coreStep s := by
  simp only [step, h]

theorem coreStep_wakes {s : State} (hs : s.standby = true) (hi : s.inputs.anyAsserted = true) :
    coreStep s = .next (wake s) := by
  simp only [coreStep, hs, hi, if_true]

theorem coreStep_waits {s : State} (hs : s.standby = true) (hi : s.inputs.anyAsserted = false) : coreStep s = .next s := by
  simp only [coreStep, hs, hi, if_true, Bool.false_eq_true, if_false]

/-- An event enabled alone is taken, with no free value used up (60_exceptions R269). -/
theorem coreStep_takes {s : State} {e : Event} (hs : s.standby = false) (he : enabledEvents s = [e]) :
    coreStep s = takeEvent e s := by
  simp only [coreStep, hs, he, chooseEvent, afterChoice, Bool.false_eq_true, if_false]

/-- The wake changes neither the inputs nor the masks. -/
@[simp] theorem enabledEvents_wake (s : State) : enabledEvents (wake s) = enabledEvents s := rfl

/-- IRQ or FIQ entry links the address of the next instruction plus 4 (60_exceptions R268). -/
theorem takeEvent_interrupt {e : Event} {x : Exc} (h : (e, x) ∈ [(Event.irq, Exc.irq), (.fiq, .fiq)]) (s : State) :
    takeEvent e s = .next (takeException x (s.pc + 4) s) := by
  simp only [List.mem_cons, Prod.mk.injEq, List.not_mem_nil, or_false] at h
  rcases h with ⟨rfl, rfl⟩ | ⟨rfl, rfl⟩
  · rfl
  · rfl

/-- After the wake the next instruction is at A + 4, so that link is A + 8, A the address of the MCR
(47_wait_for_interrupt R242). -/
theorem wake_pc_add_four (s : State) : (wake s).pc + 4 = s.pc + 8 := BitVec.add_assoc s.pc 4 4

/-- Settles O46: `coreStep_wakes` and `coreStep_waits` read the inputs alone, never the masks; an enabled interrupt is an asserted
input (`anyAsserted_of_mem_enabledEvents`) that the wake leaves enabled, so `coreStep_takes` takes it from the state woken. -/
theorem wakeWhateverTheMasks : Obligations.WakeWhateverTheMasks := by
  intro s agenda asleep
  have wakes (asserted : s.inputs.anyAsserted = true) : step s = .next (wake s) :=
    (step_core agenda).trans (coreStep_wakes asleep asserted)
  refine ⟨fun asserted => wakes ((Inputs.anyAsserted_iff _).2 asserted), fun irq fiq abort debug => ?quiet,
    fun e x interrupt alone => ⟨wake s, wakes ?enabled, ?taken⟩⟩
  case quiet =>
    exact (step_core agenda).trans
      (coreStep_waits asleep ((Inputs.anyAsserted_eq_false_iff _).2 ⟨irq, fiq, abort, debug⟩))
  case enabled => exact anyAsserted_of_mem_enabledEvents (alone ▸ List.mem_singleton_self e)
  case taken =>
    calc step (wake s)
      _ = coreStep (wake s) := step_core agenda
      _ = takeEvent e (wake s) := coreStep_takes rfl ((enabledEvents_wake s).trans alone)
      _ = .next (takeException x ((wake s).pc + 4) (wake s)) := takeEvent_interrupt interrupt _
      _ = .next (takeException x (s.pc + 8) (wake s)) := by rw [wake_pc_add_four]

end Sys2Proof.Machine

/-! The statements of 48_block_transfer_control: a transfer is stopped by Stop Prefetch Range, and started by no step but one that
executes a Prefetch Range. -/

namespace Sys2Proof.Machine

open Sys2Proof.Config

/-! ## Stop Prefetch Range -/

theorem exec_stopPrefetchRange {c : Cond} {rd : RegNo} {s : State} (admitted : Admitted c true [rd] s)
    (zero : readReg s rd = 0) : exec (.stopPrefetchRange c rd) s = .next (advance (abandon s)) :=
  (c7Access_admitted admitted _).trans (requireSbz_zero zero _)

/-- Settles O31: with its checks passed the operation abandons the transfer, of whichever side it is. -/
theorem stopPrefetchRange : Obligations.StopPrefetchRange := by
  intro c rd s admitted zero
  exact ⟨_, exec_stopPrefetchRange admitted zero, rfl, rfl⟩

/-! ## What starts no transfer -/

/-- No transfer is running after, unless one was before. -/
def StartsNoTransfer (s t : State) : Prop := btsrR s = false → btsrR t = false

theorem startsNoTransfer_of_bt {s t : State} (h : t.bt = s.bt) : StartsNoTransfer s t := fun idle => by
  rwa [btsrR, h]

theorem startsNoTransfer_of_none {s t : State} (h : t.bt = none) : StartsNoTransfer s t := fun _ => by
  rw [btsrR, h]; rfl

theorem startsNoTransfer_turnedAway {s t : State} (h : TurnedAway s t) : StartsNoTransfer s t := by
  rcases h with rfl | rfl
  · exact startsNoTransfer_of_bt rfl
  · exact startsNoTransfer_of_bt rfl

theorem startsNoTransfer_noRange (s : State) (start stop : Word) :
    StartsNoTransfer s (advance (noRange (afterCompare s start stop))) := by
  obtain ⟨-, ⟨kept, -⟩ | ⟨gone, -⟩⟩ := noRange_frame (afterCompare s start stop)
  · rw [afterCompare_frame] at kept
    exact startsNoTransfer_of_bt (by rw [advance_bt, afterCompare_frame]; exact kept)
  · exact startsNoTransfer_of_none gone

theorem startsNoTransfer_cleanEntire {op : LineOp} {s t : State} (h : cleanEntire op s = .next t) : StartsNoTransfer s t := by
  rcases cleanEntire_next h with ⟨-, rfl⟩ | ⟨_, x, -, -, rfl⟩
  all_goals
    rw [treatEntire_frame, afterOrder, walkPoints_frame]
    exact startsNoTransfer_of_bt rfl

/-- No instruction but the two of Prefetch Range starts a transfer (43_range R190). -/
theorem startsNoTransfer_exec {i : Instr} {s t : State} (h : exec i s = .next t) :
    StartsNoTransfer s t ∨ ∃ c rd rn, i ∈ [Instr.prefetchIcacheRange c rd rn, .prefetchDcacheRange c rd rn] := by
  rcases exec_next h with away | ⟨-, own⟩
  · exact .inl (startsNoTransfer_turnedAway away)
  · cases i <;> dsimp only [OwnEffect] at own
    case prefetchIcacheRange c rd rn => exact .inr ⟨c, rd, rn, by simp⟩
    case prefetchDcacheRange c rd rn => exact .inr ⟨c, rd, rn, by simp⟩
    case invIcacheRange | invDcacheRange | cleanDcacheRange | cleaninvDcacheRange =>
      rcases own with rfl | ⟨op, side, acc, -, run⟩
      · exact .inl (startsNoTransfer_noRange s _ _)
      · exact .inl (startsNoTransfer_of_none (blockingRun_bt run))
    case cleanDcacheAll | cleaninvDcacheAll => exact .inl (startsNoTransfer_cleanEntire own)
    case invIcacheMva | invDcacheMva | cleanDcacheMva | cleaninvDcacheMva =>
      obtain ⟨op, side, -, rfl⟩ := own
      exact .inl (startsNoTransfer_of_bt (by rw [writeOut_frame, changeHeld_frame]; rfl))
    case invIcacheSw | invDcacheSw | cleanDcacheSw | cleaninvDcacheSw =>
      obtain ⟨op, side, r, -, -, rfl⟩ := own
      exact .inl (startsNoTransfer_of_bt (by rw [writeOut_frame, updateSlot_frame]; rfl))
    case prefetchIcacheMva =>
      refine .inl (startsNoTransfer_of_bt ?_)
      subst own; split
      · rw [fillSlot_frame]; rfl
      · rfl
    case stopPrefetchRange => exact .inl (startsNoTransfer_of_none (by rw [own]; rfl))
    all_goals subst own; exact .inl (startsNoTransfer_of_bt rfl)

/-- The engine's steps go on with a transfer or end it (43_range R192, R193). -/
theorem startsNoTransfer_engineStep (memFault : Bool) (s : State) : StartsNoTransfer s (engineStep memFault s) := by
  intro idle
  have noTransfer : s.bt = none := Option.not_isSome_iff_eq_none.1 (by simpa [btsrR] using idle)
  rwa [engineStep, noTransfer]

theorem startsNoTransfer_act (a : Action) (s : State) : StartsNoTransfer s (act a s) := by
  rcases act_eq a s with ⟨-, -, waits⟩ | ⟨-, moves⟩
  · rw [waits]; exact id
  · rw [moves]
    cases a with
    | engine memFault => exact startsNoTransfer_engineStep memFault s
    | fill => exact startsNoTransfer_of_bt (by dsimp only [move]; rw [fillSlot_frame])
    | evict => exact startsNoTransfer_of_bt (by dsimp only [move]; rw [evictSlot_frame])
    | clean => exact startsNoTransfer_of_bt (by dsimp only [move]; rw [writeOut_frame, updateSlot_frame])
    | settle => exact startsNoTransfer_of_bt (by dsimp only [move]; rw [updateSlot_frame])
    | settleCdsr => exact startsNoTransfer_of_bt (by dsimp only [move]; rw [settleCdsr_frame])
    | drain => exact startsNoTransfer_of_bt (by dsimp only [move]; rw [drainByte_frame])
    | prefetchWord => exact startsNoTransfer_of_bt (by dsimp only [move]; rw [prefetchAhead_frame])
    | store => exact startsNoTransfer_of_bt (by dsimp only [move]; rw [storeBytes_frame])
    | core | dropPrefetched | predict | dropBranch | setInputs | setFcsePid | setMapping | setControl | setDebugState =>
      exact startsNoTransfer_of_bt rfl

/-! ## The step that starts one -/

/-- A transfer that was not running before the core's turn was started by the instruction it fetched. -/
theorem coreAnswer_starts {s t : State} (h : CoreAnswer s t) (idle : btsrR s = false) (started : btsrR t = true) :
    ∃ s1 w i c rd rn, fetchWord s = .ok (w, s1) ∧ decode w = .ok i
      ∧ i ∈ [Instr.prefetchIcacheRange c rd rn, .prefetchDcacheRange c rd rn] ∧ exec i s1 = .next t := by
  have fetch_bt {w : Word} {s1 : State} (hf : fetchWord s = .ok (w, s1)) : s1.bt = s.bt := by rw [fetchWord_frame hf]
  have starts {u : State} (kept : StartsNoTransfer u t) : btsrR u ≠ false := fun off => by
    simp [kept off] at started
  cases h with
  | waits _ _ ht => exact absurd idle (starts (startsNoTransfer_of_bt (by rw [ht])))
  | wakes _ _ ht => exact absurd idle (starts (startsNoTransfer_of_bt (by rw [ht]; rfl)))
  | event _ x link far dfsr draws ht => exact absurd idle (starts (startsNoTransfer_of_bt (by rw [ht]; rfl)))
  | returns _ w k p s1 hf _ _ ht => exact absurd idle (starts (startsNoTransfer_of_bt (by rw [ht]; exact fetch_bt (s1 := s1) hf)))
  | runs _ w s1 i hf hd ht =>
    rcases startsNoTransfer_exec ht with kept | ⟨c, rd, rn, hi⟩
    · exact absurd (startsNoTransfer_of_bt (fetch_bt hf) idle) (starts kept)
    · exact ⟨s1, w, i, c, rd, rn, hf, hd, hi, ht⟩

/-- Settles O53: the other agents start none (`startsNoTransfer_act`), and in the core's turn an instruction does
(`coreAnswer_starts`). -/
theorem onlyPrefetchRangeStarts : Obligations.OnlyPrefetchRangeStarts := by
  intro s t h idle started
  rcases step_next h with ⟨a, rest, -, -, rfl⟩ | ⟨rest, -, answer⟩
  · have kept := startsNoTransfer_act a { s with agenda := rest } idle
    simp [kept] at started
  · obtain ⟨s1, w, i, c, rd, rn, hf, hd, hi, he⟩ := coreAnswer_starts answer idle started
    have agenda : t.agenda = rest := fetch_exec_agenda hf he
    exact ⟨s1, w, i, c, rd, rn, agenda ▸ hf, hd, hi, he⟩

end Sys2Proof.Machine

/-! The statements of 60_exceptions: entering and leaving an exception, the events taken between two instructions, what the step
stops on, and what an instruction in User mode cannot change. -/

namespace Sys2Proof.Machine

open Sys2Proof.Config

/-! ## The modes of the exceptions -/

/-- No exception is taken to User mode. -/
theorem Exc.mode_ne_user (e : Exc) : e.mode ≠ .user := by cases e <;> decide

/-- Nor to System mode, so that each has an SPSR and a bank of its own (60_exceptions R277). -/
theorem Exc.mode_ne_system (e : Exc) : e.mode ≠ .system := by cases e <;> decide

theorem Exc.setsF_eq (e : Exc) : e.setsF = (e == .fiq) := by cases e <;> rfl

theorem Exc.setsA_eq (e : Exc) : e.setsA = (e != .undefinedInstruction) := by cases e <;> rfl

theorem Mode.ofBits_bits (m : Mode) : Mode.ofBits m.bits = some m := by cases m <;> rfl

@[simp] theorem modeOf_takeException (e : Exc) (link : Word) (s : State) : modeOf (takeException e link s) = some e.mode := by
  rw [modeOf, takeException_cpsr, psrMode_entryPsr, Mode.ofBits_bits]

@[simp] theorem spsrOf_takeException (e : Exc) (link : Word) (s : State) :
    (takeException e link s).spsr.of (some e.mode) = some s.cpsr :=
  SavedStatus.of_set_self s.spsr e.mode s.cpsr e.mode_ne_user e.mode_ne_system

@[simp] theorem bank_takeException (e : Exc) (link : Word) (s : State) :
    (takeException e link s).regs.bank (some e.mode) = { s.regs.bank (some e.mode) with lr := link } :=
  Regs.bank_setBank_self ..

/-! ## The bits of an entry status -/

/-- Above the mode field an entry status has I, and F and A where they are set, and keeps every bit but J, I, F and T of the
status before (60_exceptions R270). -/
theorem getLsbD_entryPsr (p : Word) (m : Mode) (setF setA : Bool) {k : Nat} (aboveMode : 5 ≤ k) :
    (entryPsr p m setF setA).getLsbD k
      = (p.getLsbD k && (0xFEFFFFC0#32).getLsbD k || (0x80#32).getLsbD k || setF && (0x40#32).getLsbD k
        || setA && (0x100#32).getLsbD k) := by
  have noMode : (m.bits.setWidth 32).getLsbD k = false := by
    rw [BitVec.getLsbD_setWidth, BitVec.getLsbD_of_ge _ _ aboveMode, Bool.and_false]
  have setBit (set : Bool) (bit : Word) : (if set then bit else 0#32).getLsbD k = (set && bit.getLsbD k) := by
    cases set <;> simp
  simp only [entryPsr, BitVec.getLsbD_or, BitVec.getLsbD_and, noMode, setBit, Bool.or_false]

/-- Bits [31:9] but bit 24 are kept. -/
theorem getLsbD_entryPsr_high (p : Word) (m : Mode) (setF setA : Bool) {k : Nat} (high : 9 ≤ k) (notJ : k ≠ 24) :
    (entryPsr p m setF setA).getLsbD k = p.getLsbD k := by
  by_cases inside : k < 32
  · have kept : ∀ j : Fin 32, 9 ≤ j.val → j.val ≠ 24 → (0xFEFFFFC0#32).getLsbD j = true ∧ (0x80#32).getLsbD j = false
        ∧ (0x40#32).getLsbD j = false ∧ (0x100#32).getLsbD j = false := by decide
    obtain ⟨keeps, i, f, a⟩ := kept ⟨k, inside⟩ high notJ
    rw [getLsbD_entryPsr p m setF setA (by omega)]
    simp only [keeps, i, f, a, Bool.and_true, Bool.and_false, Bool.or_false]
  · rw [BitVec.getLsbD_of_ge _ _ (by omega), BitVec.getLsbD_of_ge _ _ (by omega)]

theorem psrJ_entryPsr (p : Word) (m : Mode) (setF setA : Bool) : psrJ (entryPsr p m setF setA) = false := by
  rw [psrJ, getLsbD_entryPsr _ _ _ _ (by decide)]
  simp

theorem psrT_entryPsr (p : Word) (m : Mode) (setF setA : Bool) : psrT (entryPsr p m setF setA) = false := by
  rw [psrT, getLsbD_entryPsr _ _ _ _ (by decide)]
  simp

theorem psrI_entryPsr (p : Word) (m : Mode) (setF setA : Bool) : psrI (entryPsr p m setF setA) = true := by
  rw [psrI, getLsbD_entryPsr _ _ _ _ (by decide)]
  simp

theorem psrF_entryPsr (p : Word) (m : Mode) (setF setA : Bool) : psrF (entryPsr p m setF setA) = (psrF p || setF) := by
  rw [psrF, getLsbD_entryPsr _ _ _ _ (by decide)]
  simp [psrF]

theorem psrA_entryPsr (p : Word) (m : Mode) (setF setA : Bool) : psrA (entryPsr p m setF setA) = (psrA p || setA) := by
  rw [psrA, getLsbD_entryPsr _ _ _ _ (by decide)]
  simp [psrA]

/-! ## Entry and return -/

/-- The modes and vectors of the table as launched. -/
theorem entry_launched (e : Exc) :
    (e, e.mode.bits, launchParams.vectors.base + e.offset launchParams.vectors)
      ∈ [(Exc.undefinedInstruction, 0b11011#5, 0x04#32), (.dataAbort, 0b10111#5, 0x10#32),
        (.impreciseAbort, 0b10111#5, 0x10#32), (.irq, 0b10010#5, 0x18#32), (.fiq, 0b10001#5, 0x1C#32)] := by
  cases e <;> decide

/-- Settles O48: the SPSR and the bank are the entered mode's own, which is neither User nor System; the status bit by bit
(`getLsbD_entryPsr`); the table as launched is `entry_launched`. -/
theorem exceptionEntry : Obligations.ExceptionEntry := by
  rintro e link s t rfl
  refine ⟨rfl, spsrOf_takeException .., fun m other => ?otherSpsrs, bank_takeException .., fun m other => ?otherBanks,
    Regs.usr_setBank .., Regs.fiqHigh_setBank .., modeOf_takeException .., psrT_entryPsr .., psrI_entryPsr .., ?fMask, ?aMask,
    fun k high notJ => getLsbD_entryPsr_high _ _ _ _ high notJ, psrJ_entryPsr .., rfl, fun launched => ?table⟩
  case otherSpsrs => exact SavedStatus.of_set_ne s.spsr e.mode s.cpsr other
  case otherBanks => exact Regs.bank_setBank_ne s.regs e.mode _ e.mode_ne_user e.mode_ne_system other
  case fMask => rw [takeException_cpsr, psrF_entryPsr, e.setsF_eq]
  case aMask => rw [takeException_cpsr, psrA_entryPsr, e.setsA_eq]
  case table =>
    rw [takeException_cpsr, psrMode_entryPsr, takeException_pc, launched]
    exact entry_launched e

/-- A return in a mode with an SPSR goes to r14 less the constant, with the status saved (60_exceptions R271). -/
theorem exceptionReturn_saved {s : State} {p : Word} (h : s.spsr.of (modeOf s) = some p) (k : Word) :
    exceptionReturn k s = .next { s with pc := (s.regs.bank (modeOf s)).lr - k, cpsr := p } := by
  simp only [exceptionReturn, h]

theorem exceptionReturn_refused {s : State} (h : s.spsr.of (modeOf s) = none) (k : Word) :
    exceptionReturn k s = .refused .noSavedStatus := by
  simp only [exceptionReturn, h]

/-- Settles O51: the mode entered has saved the status and holds the link in its r14. -/
theorem returnUndoesEntry : Obligations.ReturnUndoesEntry := by
  rintro e link k s t rfl
  have saved : (takeException e link s).spsr.of (modeOf (takeException e link s)) = some s.cpsr := by
    rw [modeOf_takeException, spsrOf_takeException]
  rw [exceptionReturn_saved saved, modeOf_takeException, bank_takeException]

/-! ## What the step runs, or stops on -/

/-- A core that is to take nothing first runs the instruction at the pc. -/
theorem step_runs {s : State} (agenda : s.agenda = []) (awake : s.standby = false) (noEvent : enabledEvents s = []) :
    step s = runInstruction s :=
  (step_core agenda).trans (coreStep_runs awake noEvent)

theorem runInstruction_notArm {s : State} (h : psrT s.cpsr = true ∨ psrJ s.cpsr = true) :
    runInstruction s = .refused .notArmState :=
  if_pos (Bool.or_eq_true_iff.2 h)

section
variable {s : State} (notThumb : psrT s.cpsr = false) (notJazelle : psrJ s.cpsr = false)
include notThumb notJazelle

theorem runInstruction_unaligned (unaligned : s.pc.extractLsb' 0 2 ≠ 0#2) : runInstruction s = .refused .unalignedPc := by
  simp [runInstruction, notThumb, notJazelle, unaligned]

variable (aligned : s.pc.extractLsb' 0 2 = 0#2)
include aligned

theorem runInstruction_untranslated {f : TransFault} (h : fetchWord s = .error f) :
    runInstruction s = .fault .fetchTranslation := by
  simp [runInstruction, notThumb, notJazelle, aligned, h]

variable {w : Word} {s1 : State} (fetched : fetchWord s = .ok (w, s1))
include fetched

theorem runInstruction_unconditional (h : decode w = .error .unconditional) :
    runInstruction s = .refused .unconditional := by
  simp [runInstruction, notThumb, notJazelle, aligned, fetched, h]

theorem runInstruction_mrrc (h : decode w = .error .mrrc) : runInstruction s = .refused .mrrc := by
  simp [runInstruction, notThumb, notJazelle, aligned, fetched, h]

theorem runInstruction_outside (h : decode w = .error .notC7) (noReturn : returnWord w = none) :
    runInstruction s = .refused .outsideSpec := by
  simp [runInstruction, notThumb, notJazelle, aligned, fetched, h, noReturn]

theorem runInstruction_return {k : Word} (h : decode w = .error .notC7) (returns : returnWord w = some k) :
    runInstruction s = exceptionReturn k s1 := by
  simp [runInstruction, notThumb, notJazelle, aligned, fetched, h, returns]

end

/-- Settles O7: the core runs the instruction at the pc (`step_runs`), which stops by one lemma for each ground. -/
theorem stepStops : Obligations.StepStops := by
  intro s agenda awake noEvent
  rw [step_runs agenda awake noEvent]
  refine ⟨runInstruction_notArm, fun notThumb notJazelle => ⟨runInstruction_unaligned notThumb notJazelle, fun aligned =>
    ⟨fun f untranslated => ?fetch, fun w s1 fetched => ⟨?unconditional, ?mrrc, ?outside⟩⟩⟩⟩
  case fetch => exact runInstruction_untranslated notThumb notJazelle aligned untranslated
  case unconditional => exact runInstruction_unconditional notThumb notJazelle aligned fetched
  case mrrc => exact runInstruction_mrrc notThumb notJazelle aligned fetched
  case outside => exact runInstruction_outside notThumb notJazelle aligned fetched

/-- The three words of 60_exceptions R271 are no access to c7, and subtract what their names say. -/
theorem returnWord_of_mem {w k : Word} (h : (w, k) ∈ [(0xE25EF004#32, 4#32), (0xE25EF008#32, 8#32), (0xE1B0F00E#32, 0#32)]) :
    decode w = .error .notC7 ∧ returnWord w = some k := by
  simp only [List.mem_cons, Prod.mk.injEq, List.not_mem_nil, or_false] at h
  rcases h with ⟨rfl, rfl⟩ | ⟨rfl, rfl⟩ | ⟨rfl, rfl⟩
  all_goals decide

/-- The fetch changes neither the mode nor what a return reads. -/
theorem fetchWord_saved {s s1 : State} {w : Word} (h : fetchWord s = .ok (w, s1)) :
    s1.spsr.of (modeOf s1) = s.spsr.of (modeOf s) ∧ s1.regs.bank (modeOf s1) = s.regs.bank (modeOf s) := by
  rw [fetchWord_frame h]; exact ⟨rfl, rfl⟩

/-- Settles O50: the step is the return (`returnWord_of_mem`) on the state after the fetch, whose SPSR and r14 are those of
before. -/
theorem returnInstructions : Obligations.ReturnInstructions := by
  rintro s s1 w k ⟨agenda, awake, noEvent, notThumb, notJazelle, aligned⟩ fetched word
  obtain ⟨notC7, returns⟩ := returnWord_of_mem word
  obtain ⟨sameSpsr, sameBank⟩ := fetchWord_saved fetched
  have answer : step s = exceptionReturn k s1 := (step_runs agenda awake noEvent).trans
    (runInstruction_return notThumb notJazelle aligned fetched notC7 returns)
  rw [answer, ← sameSpsr, ← sameBank]
  exact ⟨fun p saved => exceptionReturn_saved saved k, fun unsaved => exceptionReturn_refused unsaved k⟩

/-! ## The events between two instructions -/

theorem irq_mem_enabledEvents {s : State} : .irq ∈ enabledEvents s ↔ s.inputs.irq = true ∧ psrI s.cpsr = false := by
  simp [enabledEvents, enabledInterrupts]

theorem fiq_mem_enabledEvents {s : State} : .fiq ∈ enabledEvents s ↔ s.inputs.fiq = true ∧ psrF s.cpsr = false := by
  simp [enabledEvents, enabledInterrupts]

theorem impreciseAbort_mem_enabledEvents {s : State} :
    .impreciseAbort ∈ enabledEvents s ↔ s.inputs.impreciseAbort = true ∧ psrA s.cpsr = false := by
  simp [enabledEvents, enabledInterrupts]

theorem debugRequest_mem_enabledEvents {s : State} : .debugRequest ∈ enabledEvents s ↔ s.inputs.debugRequest = true := by
  simp [enabledEvents, enabledInterrupts]

/-- Where events are enabled, one of them is chosen (60_exceptions R269). -/
theorem chooseEvent_mem {l : List Event} (h : l ≠ []) (s : State) : ∃ e ∈ l, chooseEvent s l = some e := by
  match l with
  | [] => exact absurd rfl h
  | [e] => exact ⟨e, List.mem_singleton_self e, rfl⟩
  | e :: e' :: es =>
    have inside : s.draws.head % (e :: e' :: es).length < (e :: e' :: es).length := Nat.mod_lt _ (by simp)
    exact ⟨_, List.getElem_mem inside, List.getElem?_eq_getElem inside⟩

/-- The core takes one of the enabled events, choosing it costing a free value at most. -/
theorem coreStep_takesOne {s : State} (awake : s.standby = false) (enabled : enabledEvents s ≠ []) :
    ∃ e ∈ enabledEvents s, ∃ draws, coreStep s = takeEvent e { s with draws := draws } := by
  obtain ⟨e, he, chosen⟩ := chooseEvent_mem enabled s
  refine ⟨e, he, (afterChoice s (enabledEvents s)).draws, ?_⟩
  rw [← afterChoice_frame]
  simp only [coreStep, awake, chosen, Bool.false_eq_true, if_false]

/-- An imprecise abort is entered with a link, an FAR and a DFSR of the hardware's choice (60_exceptions R265; log entry 17). -/
theorem takeImpreciseAbort_eq (s : State) : ∃ link far dfsr draws,
    takeImpreciseAbort s = takeException .impreciseAbort link { s with far := far, dfsr := dfsr, draws := draws } :=
  ⟨BitVec.ofNat 32 s.draws.head, BitVec.ofNat 32 (afterDraw s).draws.head, BitVec.ofNat 32 (afterDraw (afterDraw s)).draws.head,
    (afterDraw (afterDraw (afterDraw s))).draws, rfl⟩

/-- Settles O49: which events are enabled is read off the inputs and the masks; one of them is chosen (`coreStep_takesOne`), and
what taking it does is `takeEvent`, event by event. -/
theorem eventTaken : Obligations.EventTaken := by
  intro s agenda awake
  refine ⟨irq_mem_enabledEvents, fiq_mem_enabledEvents, impreciseAbort_mem_enabledEvents, debugRequest_mem_enabledEvents,
    fun enabled => ?_⟩
  rw [step_core agenda]
  obtain ⟨e, he, draws, answer⟩ := coreStep_takesOne awake enabled
  rw [answer]
  cases e with
  | irq | fiq | debugRequest => exact ⟨_, draws, he, by simp [takeEvent]⟩
  | impreciseAbort =>
    obtain ⟨link, far, dfsr, draws', entered⟩ := takeImpreciseAbort_eq { s with draws := draws }
    refine ⟨_, draws', he, nofun, nofun, fun _ => ⟨link, far, dfsr, ?_⟩, nofun⟩
    exact congrArg Host.Outcome.next entered

/-! ## User mode -/

/-- An exception entry leaves User mode, so it changes the status. -/
theorem cpsr_takeException_ne {s : State} (user : psrMode s.cpsr = Mode.user.bits) (e : Exc) (link : Word) :
    (takeException e link s).cpsr ≠ s.cpsr := by
  intro same
  have entered : psrMode s.cpsr = e.mode.bits := by rw [← same, takeException_cpsr, psrMode_entryPsr]
  rw [user] at entered
  cases e <;> cases entered

/-- The banks of the modes that do not share User mode's, and r8_fiq to r12_fiq, are as before. -/
def KeepsOtherRegs (r r' : Regs) : Prop :=
  (∀ m, m ≠ some .user → m ≠ some .system → m ≠ none → r'.bank m = r.bank m) ∧ r'.fiqHigh = r.fiqHigh

theorem keepsOtherRegs_refl (r : Regs) : KeepsOtherRegs r r := ⟨fun _ _ _ _ => rfl, rfl⟩

theorem keepsOtherRegs_setBank_user (r : Regs) (b : Bank) : KeepsOtherRegs r (r.setBank (some .user) b) := by
  refine ⟨fun m notUser notSystem named => ?_, rfl⟩
  match m with
  | none | some .user | some .system => contradiction
  | some .fiq | some .irq | some .supervisor | some .abort | some .undefined => rfl

/-- A register written in User mode is one of r0 to r12 or of User mode's own bank. -/
theorem keepsOtherRegs_write_user (r : Regs) (n : RegNo) (v : Word) : KeepsOtherRegs r (r.write (some .user) n v) := by
  unfold Regs.write
  split
  · exact keepsOtherRegs_refl r
  · split
    · exact keepsOtherRegs_setBank_user ..
    · split
      · exact keepsOtherRegs_setBank_user ..
      · rw [if_neg (by simp)]
        exact ⟨fun m _ _ _ => by cases m with | none => rfl | some m => cases m <;> rfl, rfl⟩

/-- What no instruction in User mode changes, but for `f` on the slots of both sides (60_exceptions R276). -/
structure UserFrame (f : Slot → Slot) (s t : State) : Prop where
  standby : t.standby = s.standby
  spsr : t.spsr = s.spsr
  far : t.far = s.far
  dfsr : t.dfsr = s.dfsr
  ic : t.ic = s.ic.map f
  tcmI : t.tcmI = s.tcmI.map (Tcm.mapSlots f)
  dcValid : t.dc.map (·.valid) = (s.dc.map f).map (·.valid)
  tcmValid : (smartSlots t.tcmD).map (·.valid) = ((smartSlots s.tcmD).map f).map (·.valid)
  regs : KeepsOtherRegs s.regs t.regs

/-- An instruction that leaves the instruction side alone, and makes no data side slot valid or invalid. -/
theorem UserFrame.of_frame {s t : State} (frame : t = { s with
      pc := t.pc, regs := t.regs, dc := t.dc, tcmD := t.tcmD, btac := t.btac, pfb := t.pfb, bt := t.bt, btOldPids := t.btOldPids
      mem := t.mem, writeBuffer := t.writeBuffer, inputs := t.inputs, points := t.points, draws := t.draws })
    (dcValid : t.dc.map (·.valid) = s.dc.map (·.valid))
    (tcmValid : (smartSlots t.tcmD).map (·.valid) = (smartSlots s.tcmD).map (·.valid))
    (regs : KeepsOtherRegs s.regs t.regs) : UserFrame id s t where
  standby := by rw [frame]
  spsr := by rw [frame]
  far := by rw [frame]
  dfsr := by rw [frame]
  ic := by rw [frame, List.map_id]
  tcmI := by rw [frame, show Tcm.mapSlots id = id from funext Tcm.mapSlots_id, List.map_id]
  dcValid := by rw [dcValid, List.map_id]
  tcmValid := by rw [tcmValid, List.map_id]
  regs := regs

/-- The same of one that changes neither side, nor the registers. -/
theorem UserFrame.of_same {s t : State} (frame : t = { s with
      pc := t.pc, btac := t.btac, pfb := t.pfb, bt := t.bt, btOldPids := t.btOldPids, mem := t.mem
      writeBuffer := t.writeBuffer, draws := t.draws }) : UserFrame id s t := by
  refine .of_frame ?_ ?_ ?_ ?_ <;> rw [frame]
  exact keepsOtherRegs_refl s.regs

/-- What an instruction in User mode leaves, with C and the branch target cache (40_access R123; log entry 41). -/
structure UserLimited (s t : State) : Prop where
  cdsrC : t.cdsrC = s.cdsrC ∨ s.cdsrClearing = true ∧ t.cdsrC = false
  slots : ∃ f, (f = id ∨ f = Slot.settled) ∧ UserFrame f s t
  btac : s.debugState = false → t.btac = s.btac ∨ t.btac = s.btac.filter fun x => !x.fading

theorem UserLimited.of_frame {s t : State} (frame : UserFrame id s t) (cdsrC : t.cdsrC = s.cdsrC) (btac : t.btac = s.btac) :
    UserLimited s t :=
  ⟨.inl cdsrC, ⟨id, .inl rfl, frame⟩, fun _ => .inl btac⟩

/-- A barrier completes what is under way, all of it (20_memory R73). -/
theorem userLimited_barred (s : State) : UserLimited s (barred s) where
  cdsrC := by
    cases clearing : s.cdsrClearing
    · exact .inl (by simp [barred, settleAll, completeOutstanding, clearing])
    · exact .inr ⟨rfl, by simp [barred, settleAll, completeOutstanding, clearing]⟩
  slots := by
    refine ⟨Slot.settled, .inr rfl, rfl, rfl, rfl, rfl, rfl, rfl, rfl, ?_, keepsOtherRegs_refl _⟩
    rw [barred_frame, smartSlots_map]
  btac := fun _ => .inr rfl

/-! ## Clean Data Cache Range in User mode -/

theorem treatedBy_clean_valid (s : State) (bs : List Block) (sl : Slot) : (treatedBy .clean s bs sl).valid = sl.valid := by
  unfold treatedBy
  split
  · exact Slot.cleaned_valid sl
  · rfl

/-- A clean makes no slot valid or invalid (10_state R30). -/
theorem treatBlocks_clean_valid (bs : List Block) (s : State) :
    (treatBlocks .clean .data bs s).dc.map (·.valid) = s.dc.map (·.valid)
      ∧ (smartSlots (treatBlocks .clean .data bs s).tcmD).map (·.valid) = (smartSlots s.tcmD).map (·.valid) := by
  have valid : (·.valid) ∘ treatedBy .clean s bs = (·.valid) := funext (treatedBy_clean_valid s bs)
  obtain ⟨ws, treated, -⟩ := treatBlocks_eq .clean .data bs s
  rw [treated, commit_frame, mapSide_data, smartSlots_map, List.map_map, List.map_map, valid]
  exact ⟨rfl, rfl⟩

theorem treatBlocks_data_frame (op : LineOp) (bs : List Block) (s : State) :
    treatBlocks op .data bs s = { s with
      dc := (treatBlocks op .data bs s).dc, tcmD := (treatBlocks op .data bs s).tcmD
      mem := (treatBlocks op .data bs s).mem, writeBuffer := (treatBlocks op .data bs s).writeBuffer } := by
  obtain ⟨ws, treated, -⟩ := treatBlocks_eq op .data bs s
  rw [treated, commit_frame, mapSide_data]

/-- A blocking loop that ends with the status of User mode ended in neither an interrupt nor an abort. -/
theorem blockingRun_user {op : LineOp} {side : Side} {acc : Access} {bs : List Block} {s t : State}
    (user : psrMode s.cpsr = Mode.user.bits) (h : blockingRun op side acc bs s = .next t) (same : t.cpsr = s.cpsr) :
    t = advance (treatBlocks op side (bs.take (walkRange acc bs s).treated) (walkRange acc bs s).after) := by
  have loop : (treatBlocks op side (bs.take (walkRange acc bs s).treated) (walkRange acc bs s).after).cpsr = s.cpsr := by
    rw [treatBlocks_frame, walkRange_frame]
  rw [← loop] at user same
  rcases blockingRun_next h with ht | ⟨_, x, -, -, rfl⟩ | ⟨f, -, rfl⟩
  · exact ht
  · exact absurd same (cpsr_takeException_ne user x _)
  · exact absurd same (cpsr_takeException_ne (s := { treatBlocks .. with far := farOf f, dfsr := dfsrOf f }) user .dataAbort _)

theorem userLimited_noRange (s : State) (start stop : Word) :
    UserLimited s (advance (noRange (afterCompare s start stop))) := by
  rw [(noRange_frame _).1, afterCompare_frame]
  exact .of_frame (.of_same rfl) rfl rfl

/-- The loop of a clean, from what is left of a state once its walk is done. -/
theorem userLimited_treatBlocks_clean {s u : State} (bs : List Block) (walked : u = { s with
      bt := u.bt, btOldPids := u.btOldPids, inputs := u.inputs, points := u.points, draws := u.draws }) :
    UserLimited s (advance (treatBlocks .clean .data bs u)) := by
  obtain ⟨dcValid, tcmValid⟩ := treatBlocks_clean_valid bs u
  refine .of_frame (.of_frame ?frame (dcValid.trans ?dc) (tcmValid.trans ?tcmD) ?regs) ?cdsrC ?btac
  case frame | cdsrC | btac => rw [treatBlocks_data_frame, walked]; rfl
  case dc | tcmD => rw [walked]
  case regs => rw [treatBlocks_data_frame, walked]; exact keepsOtherRegs_refl s.regs

theorem userLimited_cleanRun {bs : List Block} {s t : State} {start stop : Word} (user : psrMode s.cpsr = Mode.user.bits)
    (h : blockingRun .clean .data .data bs (abandon (afterCompare s start stop)) = .next t) (same : t.cpsr = s.cpsr) :
    UserLimited s t := by
  have compared : (abandon (afterCompare s start stop)).cpsr = s.cpsr := by rw [abandon_cpsr, afterCompare_frame]
  rw [← compared] at user same
  rw [blockingRun_user user h same]
  exact userLimited_treatBlocks_clean _ (by rw [walkRange_abandon, afterCompare_frame])

/-- Every instruction that User mode is allowed, and that takes no exception. -/
theorem userLimited_exec {i : Instr} {s t : State} (user : psrMode s.cpsr = Mode.user.bits) (h : exec i s = .next t)
    (same : t.cpsr = s.cpsr) : UserLimited s t := by
  rcases exec_next h with (rfl | rfl) | ⟨⟨-, allowed, -⟩, own⟩
  · exact .of_frame (.of_same rfl) rfl rfl
  · exact absurd same (cpsr_takeException_ne user _ _)
  · have unprivileged : privileged s = false := (privileged_eq_false_iff s).2 user
    have openToUser : Instr.userOk s.debugState i = true := allowed.resolve_left (by simp [unprivileged])
    cases i with
    | flushPrefetchBuffer | dmb | stopPrefetchRange | cp15OtherMcrr => cases own; exact .of_frame (.of_same rfl) rfl rfl
    | flushBtcAll =>
      cases own
      have inDebug : s.debugState = true := openToUser
      exact ⟨.inl rfl, ⟨id, .inl rfl, .of_same rfl⟩, fun outside => by simp [inDebug] at outside⟩
    | dsb => cases own; exact userLimited_barred s
    | readBtsr c rd =>
      cases own
      have mode : modeOf s = some .user := by rw [modeOf, user, Mode.ofBits_bits]
      refine .of_frame (.of_frame rfl rfl rfl ?_) rfl rfl
      rw [advance_regs, regs_writeReg, mode]
      exact keepsOtherRegs_write_user ..
    | cleanDcacheRange c rd rn =>
      rcases own with rfl | ⟨op, side, acc, cleans, run⟩
      · exact userLimited_noRange ..
      · obtain ⟨rfl, rfl, rfl⟩ : op = .clean ∧ side = .data ∧ acc = .data := by simpa [blockingOps] using cleans
        exact userLimited_cleanRun user run same
    | prefetchIcacheRange | prefetchDcacheRange =>
      rcases own with rfl | ⟨-, side, rfl⟩
      · exact userLimited_noRange ..
      · rw [afterCompare_frame]
        exact .of_frame (.of_same rfl) rfl rfl
    | _ => cases openToUser

/-- Settles O52: what `userLimited_exec` says, taken apart. -/
theorem userModeLimits : Obligations.UserModeLimits := by
  intro i s t user h same
  obtain ⟨cdsrC, ⟨f, hf, frame⟩, btac⟩ := userLimited_exec user h same
  obtain ⟨standby, spsr, far, dfsr, ic, tcmI, dcValid, tcmValid, banks, fiqHigh⟩ := frame
  exact ⟨cdsrC, standby, spsr, far, dfsr, ⟨f, hf, ic, tcmI, dcValid, tcmValid⟩, banks, fiqHigh, btac⟩

end Sys2Proof.Machine

/-! The statement of 70_reset on the launch premise: outside it the operations concerned are refused. -/

namespace Sys2Proof.Machine

/-! ## The checks of the launch premise -/

theorem requireUnlocked_refused {s : State} (h : s.lockdown = true) (body : Result) :
    requireUnlocked s body = .refused .cacheLockdown := if_pos h

theorem requireRa_refused {s : State} (h : s.aux.ra = true) (body : Result) : requireRa s body = .refused .auxDisabled := if_pos h

theorem requireRv_refused {s : State} (h : s.aux.rv = true) (body : Result) : requireRv s body = .refused .auxDisabled := if_pos h

/-! ## What is checked before the launch premise -/

/-- The check of the operand that should be zero, where an instruction has one (30_encoding R97). -/
def checkSbz (i : Instr) (s : State) (body : Result) : Result :=
  match Instr.sbz i with
  | some r => requireSbz r s body
  | none => body

theorem checkSbz_passed {i : Instr} {s : State} (zero : ∀ r, Instr.sbz i = some r → readReg s r = 0) (body : Result) :
    checkSbz i s body = body := by
  unfold checkSbz
  split
  · next r sbz => exact requireSbz_zero (zero r sbz) body
  · rfl

/-- The checks of 40_access R120 that come before those of the launch premise: condition, mode, register 15, should be zero. -/
def accessChecks (i : Instr) (s : State) (body : Result) : Result :=
  c7Access (Instr.cond i) (Instr.userOk s.debugState i) (Instr.operands i) s (checkSbz i s body)

theorem accessChecks_passed {i : Instr} {s : State}
    (admitted : Admitted (Instr.cond i) (Instr.userOk s.debugState i) (Instr.operands i) s)
    (zero : ∀ r, Instr.sbz i = some r → readReg s r = 0) (body : Result) : accessChecks i s body = body :=
  (c7Access_admitted admitted _).trans (checkSbz_passed zero body)

/-- After them, every cache operation looks at the lockdown (70_reset R296 (e)). -/
theorem exec_cacheOp {i : Instr} (h : Instr.isCacheOp i = true) (s : State) :
    ∃ body, exec i s = accessChecks i s (requireUnlocked s body) := by
  cases i with
  | wfi | flushPrefetchBuffer | flushBtcAll | flushBtcMva | dsb | dmb | readCdsr | readBtsr | stopPrefetchRange
  | unifiedNopC7k1 | unifiedNopC7k2 | unifiedNopC7k3 | unifiedNopC7k4 | unifiedNopC7k5 | unifiedNopC7k6 | unifiedNopC7k7
  | unifiedNopC11 | unifiedNopC15 | c7OtherCprt | cp15OtherMcrr => cases h
  | _ => exact ⟨_, rfl⟩

/-- The entire cleans look at bit RA next (70_reset R296 (a)). -/
theorem exec_entireClean_checks {c : Cond} {rd : RegNo} {i : Instr}
    (h : i ∈ [Instr.cleanDcacheAll c rd, .cleaninvDcacheAll c rd]) (s : State) :
    ∃ body, exec i s = accessChecks i s (requireUnlocked s (requireRa s body)) := by
  simp only [List.mem_cons, List.not_mem_nil, or_false] at h
  rcases h with rfl | rfl
  · exact ⟨_, rfl⟩
  · exact ⟨_, rfl⟩

/-- The six range operations look at bit RV next. -/
theorem exec_rangeOp_checks {c : Cond} {rd rn : RegNo} {i : Instr} (h : i ∈ rangeOps c rd rn) (s : State) :
    ∃ body, exec i s = accessChecks i s (requireUnlocked s (requireRv s body)) := by
  simp only [rangeOps, List.mem_cons, List.not_mem_nil, or_false] at h
  rcases h with rfl | rfl | rfl | rfl | rfl | rfl
  all_goals exact ⟨_, rfl⟩

/-- Settles O16: with the access checks passed, the lockdown is looked at first (`exec_cacheOp`), then bit RA by the entire cleans
(`exec_entireClean_checks`) and bit RV by the range operations (`exec_rangeOp_checks`). -/
theorem outsidePremiseRefused : Obligations.OutsidePremiseRefused := by
  intro i s admitted zero
  have passed := accessChecks_passed admitted zero
  refine ⟨fun cacheOp locked => ?lockdown, fun unlocked ra c rd hi => ?ra, fun unlocked rv c rd rn hi => ?rv⟩
  case lockdown =>
    obtain ⟨body, checked⟩ := exec_cacheOp cacheOp s
    rw [checked, passed, requireUnlocked_refused locked]
  case ra =>
    obtain ⟨body, checked⟩ := exec_entireClean_checks hi s
    rw [checked, passed, requireUnlocked_of unlocked, requireRa_refused ra]
  case rv =>
    obtain ⟨body, checked⟩ := exec_rangeOp_checks hi s
    rw [checked, passed, requireUnlocked_of unlocked, requireRv_refused rv]

end Sys2Proof.Machine
